-- ==== Sys2Proof/Word.lean ====
section
/-! DEFINITION. The word and byte types: every register is 32 bits wide and a FIFO entry 8 bits (spec/00_scope.md R8, R10). -/

namespace Sys2Proof

/-- A register value or a command word: `REG_W` = 32 bits (R8). -/
abbrev Word := BitVec 32

/-- An entry of the FIFO, of TXBUF or of a message: `FIFO_W` = 8 bits (R8). -/
abbrev Byte := BitVec 8

end Sys2Proof
end

