-- ==== Sys2Proof/Syntax.lean ====
section
/-! DEFINITION. The six commands of the block (spec/30_encoding.md R105), and why words can fail to be one. -/

namespace Sys2Proof

/-- The six commands, one constructor per row of the opcode table (R105); operands as R102 to R104 assemble them. -/
inductive Instr where
  /-- `initialize()` (R131). -/
  | kinit
  /-- `scan_once()` (R134). -/
  | kscan
  /-- `decode(row, column)` (R140): two 8-bit two's-complement operands (R102). -/
  | kdec (row col : BitVec 8)
  /-- `wait_for_key()` (R145). -/
  | kwait
  /-- `configure(stop_bits, data_bits, parity, baud_divisor_pair)` (R161): field codes and the baud pair (R103). -/
  | ucfg (stop : BitVec 2) (data : BitVec 2) (parity : BitVec 3) (cd : BitVec 16) (bdiv : BitVec 8)
  /-- `transmit(...)` (R170): the rendered text without terminator; its length is the operand `n` (R104). -/
  | utx (msg : List Byte)
  deriving DecidableEq, Repr

/-- Why presented words are no command: the verdict "illegal" of R106 and R107, by name. -/
inductive DecodeError where
  /-- The stream held no word. -/
  | noWord
  /-- The first word matches no row of R105. -/
  | illegalFirstWord
  /-- Bits 31:24 of the second word of a UCFG are not zero. -/
  | illegalSecondWord
  /-- Bits 31:8 of a payload word of a UTX are not zero. -/
  | illegalPayloadWord
  /-- The stream ended inside a command (log entry 10). -/
  | truncated
  deriving DecidableEq, Repr

end Sys2Proof
end

