-- ==== Sys2Proof/WellFormed.lean ====
section
/-! DEFINITION. Which commands an encoding exists for: all operand values are legal (R108), and only the length of a
UTX message is bounded, by its 16-bit operand `n` (R104). -/

namespace Sys2Proof

/-- The largest length the operand `n` of UTX can carry (R104). -/
def maxMessageLength : Nat := 65535

/-- Whether a command has an encoding. The operands of the other five commands are typed at their field's width. -/
def Instr.wellFormed (i : Instr) : Bool :=
  match i with
  | .kinit => true
  | .kscan => true
  | .kdec _ _ => true
  | .kwait => true
  | .ucfg _ _ _ _ _ => true
  | .utx msg => msg.length ≤ maxMessageLength

/-- A command that has an encoding (R104, R108). -/
abbrev Instr.WellFormed (i : Instr) : Prop := i.wellFormed = true

end Sys2Proof
end

