-- ==== Sys2Proof/Decode.lean ====
section
/-! DEFINITION. The decoder, total on every stream of words (spec/30_encoding.md R105 to R107), the encoder written from
the same formats (R101), and the decoder's face to the host's opcode table. -/

namespace Sys2Proof

/-- The rows of the opcode map (R105). -/
inductive OpRow where
  | kinit | kscan | kdec | kwait | ucfg | utx
  deriving DecidableEq, Repr

/-- One row of R105: a first word `w` selects it exactly when `w &&& mask = pattern`. -/
structure OpcodeRow where
  row : OpRow
  pattern : Word
  mask : Word
  deriving DecidableEq, Repr

/-- The opcode map (R105). -/
def opcodeRows : List OpcodeRow :=
  [⟨.kinit, 0x01000000, 0xFFFFFFFF⟩, ⟨.kscan, 0x02000000, 0xFFFFFFFF⟩, ⟨.kdec, 0x03000000, 0xFFFF0000⟩,
   ⟨.kwait, 0x04000000, 0xFFFFFFFF⟩, ⟨.ucfg, 0x10000000, 0xFFFFFF01⟩, ⟨.utx, 0x20000000, 0xFFFF0000⟩]

/-- Whether a first word selects a row (R105). -/
def OpcodeRow.selects (r : OpcodeRow) (w : Word) : Bool := w &&& r.mask == r.pattern

/-- The row a first word selects (R105); none when it is illegal (R107). -/
def selectRow (w : Word) : Option OpRow := (opcodeRows.find? (·.selects w)).map (·.row)

/-- How many words a command takes, from its first word alone (R106). -/
def wordCount (w : Word) : Nat :=
  match selectRow w with
  | some .utx => 1 + (w.extractLsb' 0 16).toNat
  | some .ucfg => 2
  | _ => 1

/-- Takes `n` payload words of format T (R101), gathering `msg` in reverse; each must have bits 31:8 zero (R106). -/
def takePayload : Nat → List Word → List Byte → Except DecodeError (List Byte × List Word)
  | 0, ws, acc => .ok (acc.reverse, ws)
  | _ + 1, [], _ => .error .truncated
  | n + 1, w :: ws, acc =>
    if w.extractLsb' 8 24 = 0 then takePayload n ws (w.extractLsb' 0 8 :: acc) else .error .illegalPayloadWord

/-- The rest of a UCFG, formats C (R101, R103). -/
def decodeUcfg (w0 : Word) : List Word → Except DecodeError (Instr × List Word)
  | [] => .error .truncated
  | w1 :: ws =>
    if w1.extractLsb' 24 8 = 0 then
      .ok (.ucfg (w0.extractLsb' 6 2) (w0.extractLsb' 1 2) (w0.extractLsb' 3 3) (w1.extractLsb' 0 16)
        (w1.extractLsb' 16 8), ws)
    else .error .illegalSecondWord

/-- The rest of a UTX, format T (R101, R104). -/
def decodeUtx (w0 : Word) (ws : List Word) : Except DecodeError (Instr × List Word) :=
  match takePayload (w0.extractLsb' 0 16).toNat ws [] with
  | .ok (msg, rest) => .ok (.utx msg, rest)
  | .error e => .error e

/-- Decoding (R106): the command at the head of the stream and the words that follow it, or why it is illegal. -/
def decode : List Word → Except DecodeError (Instr × List Word)
  | [] => .error .noWord
  | w :: ws =>
    match selectRow w with
    | some .kinit => .ok (.kinit, ws)
    | some .kscan => .ok (.kscan, ws)
    | some .kdec => .ok (.kdec (w.extractLsb' 8 8) (w.extractLsb' 0 8), ws)
    | some .kwait => .ok (.kwait, ws)
    | some .ucfg => decodeUcfg w ws
    | some .utx => decodeUtx w ws
    | none => .error .illegalFirstWord

/-- The word of a KDEC, format P (R101). -/
def kdecWord (row col : BitVec 8) : Word := 0x03#8 ++ 0#8 ++ row ++ col

/-- Word 0 of a UCFG, format C (R101). -/
def ucfgWord0 (stop data : BitVec 2) (parity : BitVec 3) : Word := 0x10#8 ++ 0#16 ++ stop ++ parity ++ data ++ 0#1

/-- Word 1 of a UCFG, format C (R101). -/
def ucfgWord1 (cd : BitVec 16) (bdiv : BitVec 8) : Word := 0#8 ++ bdiv ++ cd

/-- Word 0 of a UTX, format T (R101). -/
def utxWord0 (n : BitVec 16) : Word := 0x20#8 ++ 0#8 ++ n

/-- A payload word of a UTX, format T (R101). -/
def payloadWord (b : Byte) : Word := 0#24 ++ b

/-- The words of a command, by the formats of R101. -/
def encode : Instr → List Word
  | .kinit => [0x01000000]
  | .kscan => [0x02000000]
  | .kdec row col => [kdecWord row col]
  | .kwait => [0x04000000]
  | .ucfg stop data parity cd bdiv => [ucfgWord0 stop data parity, ucfgWord1 cd bdiv]
  | .utx msg => utxWord0 (BitVec.ofNat 16 msg.length) :: msg.map payloadWord

/-- The first `k` words of a bit string whose bit 0 is the least significant bit of the first word. -/
def splitWords : Nat → Nat → List Word
  | 0, _ => []
  | k + 1, w => BitVec.ofNat 32 w :: splitWords k (w / 2 ^ 32)

/-- The words of an instruction whose table bits are `w`, `nbits` of them, and whose further bits are zero, as many
words as its first word asks for (R106). -/
def tableWords (nbits w : Nat) : List Word :=
  let given := splitWords (max 1 ((nbits + 31) / 32)) w
  given ++ List.replicate (wordCount (BitVec.ofNat 32 w) - given.length) 0

/-- What the decoder reads from an instruction numbered as spec/opcode_table.json numbers its bits. A command word is
transferred whole and has no byte order (R74, R100). -/
def decodeTableWord (nbits w : Nat) : Option Instr :=
  match decode (tableWords nbits w) with
  | .ok (i, _) => some i
  | .error _ => none

end Sys2Proof
end

