-- ==== Sys2Proof/Machine/Params.lean ====
section
/-! DEFINITION. The parameters to which the spec gives a value (spec/00_scope.md R8), and the depth of the FIFO that
the state after reset is given. They stand beside the operations, and not in Config, so that a later repair may mend them. -/

namespace Sys2Proof.Machine

/-- `PORT_LSB` = 7: the register bit of port pin 1 (R8, R22). -/
def portLsb : Nat := 7

/-- `TXBUF_CAP` = 64 (R8, R171). -/
def txbufCap : Nat := 64

/-- `TX_TERM` = 0x00, the trailing terminator (R8, R171). -/
def txTerm : Byte := 0x00

/-- The offset of POUT from `PORT_BASE` (R21). -/
def poutOffset : Nat := 0x040
/-- The offset of PIN from `PORT_BASE` (R21). -/
def pinOffset : Nat := 0x060
/-- The offset of PDIR from `PORT_BASE` (R21). -/
def pdirOffset : Nat := 0x204
/-- The offset of POEN from `PORT_BASE` (R21). -/
def poenOffset : Nat := 0x208
/-- The bytes the port group spans, from `PORT_BASE` to the end of POEN (R21). -/
def portSpan : Nat := 0x20C
/-- The bytes the UART group spans, from `UART_BASE` to the end of UBD (R34). -/
def uartSpan : Nat := 0x38

/-- `FIFO_DEPTH` less 1 in the state after reset: the suggested depth 1 (R8, D22). DESIGN CHOICE, log entry 4. -/
def fifoExtraAtReset : Nat := 0

end Sys2Proof.Machine
end

