-- ==== Sys2Proof/Machine/State.lean ====
section
/-! DEFINITION. The state of the block and of the agents around it, as plain data (spec/10_state.md), the reasons a step
can stop, and the state after reset. -/

namespace Sys2Proof.Machine

/-- A row of the key matrix, 1 to 4 (R23, R30). -/
inductive Row where
  | r1 | r2 | r3 | r4
  deriving DecidableEq, Repr

/-- A column of the key matrix, 1 to 4 (R23, R30); column `c` is pin `c + 4`. -/
inductive Col where
  | c1 | c2 | c3 | c4
  deriving DecidableEq, Repr

/-- The place of a row in the set `K`. -/
def Row.idx : Row → Fin 4
  | .r1 => 0 | .r2 => 1 | .r3 => 2 | .r4 => 3

/-- The place of a column in the set `K`. -/
def Col.idx : Col → Fin 4
  | .c1 => 0 | .c2 => 1 | .c3 => 2 | .c4 => 3

/-- The set `K` of closed contacts (R47): row by row, true where the contact is closed. -/
abbrev Contacts := Vector (Vector Bool 4) 4

/-- The eleven registers of the register space (R70, R71). -/
inductive Reg where
  | pout | pin | pdir | poen | ucr | umr | uier | uisr | ubg | ufifo | ubd
  deriving DecidableEq, Repr

/-- The three port registers that other users share by bits (R212). -/
inductive SharedReg where
  | pdir | poen | pout
  deriving DecidableEq, Repr

/-- The labels of SEQ (R44). A column stands for its pin `p` in `KS_SAMPLE(r, p)`. -/
inductive SeqLabel where
  | idle
  | kiDirRd | kiDirWr | kiOenRd | kiOenWr | kiOutRd | kiOutWr
  | ksBegin
  | ksDrvRd (r : Row) | ksDrvWr (r : Row) | ksSample (r : Row) (c : Col) | ksRstRd (r : Row) | ksRstWr (r : Row)
  | ksEnd
  | kdExec
  | ucReset | ucWait | ucEnable | ucMode | ucBg | ucBd | ucIen
  | utLoad | utCheck | utClear | utPoll | utWrite
  deriving DecidableEq, Repr

/-- One step of some agent (R218). An entry of the agenda whose agent has no enabled step changes nothing (log entry 2). -/
inductive Event where
  /-- SEQ takes a micro-step. -/
  | seq
  /-- KEYS replaces the set `K` (R200). -/
  | keys (k : Contacts)
  /-- UARTDEV's ResetDone clears the named bits of those pending (R207). -/
  | resetDone (rx tx : Bool)
  /-- UARTDEV's Dequeue (R208). -/
  | dequeue
  /-- OTHER replaces the bits outside the window of one register (R212). -/
  | other (r : SharedReg) (v : Word)
  /-- HOST issues the next command (R216). -/
  | hostIssue
  /-- HOST reads KEY (R216). -/
  | hostRead
  /-- The reset event, which stands for power-on (R260). -/
  | powerOn
  deriving DecidableEq, Repr

/-- Why the machine stops with a fault. -/
inductive Fault where
  /-- Raised by a write to UFIFO while the FIFO is full (R205, R240), with the byte written. Safe: the hardware's
  behaviour is not specified; UTX never causes it (R174). -/
  | txOverrun (b : Byte)
  /-- Raised by a meaning when SEQ holds a label of another operation than CMD's. Safe: R44 gives each operation its own
  labels, and no run reaches such a state (log entry 13). -/
  | strayLabel
  /-- Raised by UT_WRITE when TXIDX lies outside TXBUF. Safe: R43 bounds TXIDX, and no run reaches such a state (log
  entry 13). -/
  | txIndexOutOfBuffer
  deriving DecidableEq, Repr

/-- Why a step is given no meaning. -/
inductive Refusal where
  /-- An instruction that has no meaning yet; raised by no arm of `exec` now. Safe. -/
  | notModelled (mnemonic : String)
  /-- HOST presented words that decode to "illegal" (R107, R240). Safe: the hardware's behaviour is not specified. -/
  | illegalCommand (why : DecodeError)
  /-- KSCAN or KWAIT issued with KINIT_DONE = 0, or UTX with UCFG_DONE = 0 (R240, R262). Safe: not specified. -/
  | useBeforeInit
  /-- A write to UFIFO while UCR.TXRST = 1 (R209, R240). Safe: not specified; no operation makes one. -/
  | writeDuringReset
  /-- A read of UFIFO (R40, U12). Safe: not specified; no operation makes one. -/
  | readUfifo
  /-- `exec` asked for another command than CMD's while BUSY = 1: there is no such step (R216, R240, log entry 13). Safe. -/
  | commandWhileBusy
  deriving DecidableEq, Repr

/-- Everything the spec gives the machine and its agents, then the model's own inputs and parameters. -/
structure State where
  /-- PDIR, the direction register (R24), its 24 bits outside the window included (R28). -/
  pdir : Word
  /-- POEN, the output-enable register (R25, R28). -/
  poen : Word
  /-- POUT, the output-data register (R26, R28). -/
  pout : Word
  /-- ROW of the position latch, two's complement (R30). -/
  row : BitVec 8
  /-- COL of the position latch, two's complement (R30). -/
  col : BitVec 8
  /-- HIT of the position latch (R30). -/
  hit : Bool
  /-- KEY, the result register, two's complement (R31). -/
  key : Word
  /-- TMP, which carries a read-modify-write (R32). -/
  tmp : Word
  /-- UCR bit 0, receive soft reset pending (R35). -/
  rxrst : Bool
  /-- UCR bit 1, transmit soft reset pending (R35). -/
  txrst : Bool
  /-- UCR bit 2, receive enable (R35). -/
  rxen : Bool
  /-- UCR bit 4, transmit enable (R35). -/
  txen : Bool
  /-- UMR bits 2:1, CHRL (R36). -/
  chrl : BitVec 2
  /-- UMR bits 5:3, PAR (R36). -/
  par : BitVec 3
  /-- UMR bits 7:6, NBSTOP (R36). -/
  nbstop : BitVec 2
  /-- UIER bit 3 (R37). -/
  txemptyEn : Bool
  /-- UIER bit 4 (R37). -/
  txfullEn : Bool
  /-- UISR bit 4, the sticky full flag (R38). -/
  txfull : Bool
  /-- CD in UBG (R39). -/
  cd : BitVec 16
  /-- BDIV in UBD (R39). -/
  bdiv : BitVec 8
  /-- The transmit FIFO, head first; `occ` is its length (R42). -/
  fifo : List Byte
  /-- TXBUF (R43). -/
  txbuf : Vector Byte txbufCap
  /-- TXLEN (R43). -/
  txlen : Nat
  /-- TXIDX (R43). -/
  txidx : Nat
  /-- SEQ, the micro-step to take next (R44). -/
  seq : SeqLabel
  /-- CMD, the decoded command of the operation in progress (R45). -/
  cmd : Instr
  /-- WAITMODE (R45). -/
  waitmode : Bool
  /-- BUSY (R46). -/
  busy : Bool
  /-- KINIT_DONE (R46). -/
  kinitDone : Bool
  /-- UCFG_DONE (R46). -/
  ucfgDone : Bool
  /-- `K`, the closed contacts (R47). -/
  closed : Contacts
  /-- `txlog`, the bytes that have left the FIFO, in order (R48). -/
  txlog : List Byte
  /-- The model's own, on HOST's side: what HOST's last Read returned (R216; log entry 9). -/
  hostKey : Option Word
  /-- The model's own: the parameter `FIFO_DEPTH` less 1, changed by no step (R8; log entry 4). -/
  fifoExtra : Nat
  /-- The model's own: how many reads of PIN have been made, the index of the next draw (R11; log entry 6). -/
  draws : Nat
  /-- The model's own: the steps the agents will take, first first (R218; log entry 1). -/
  agenda : List Event
  /-- The model's own: the words HOST has still to present (R100, R50; log entry 1). -/
  cmds : List Word
  deriving DecidableEq, Repr

/-- What a step or a micro-step answers. -/
abbrev Out := Host.Outcome State Fault Refusal

/-- `FIFO_DEPTH`, at least 1 (R8). -/
def State.fifoDepth (s : State) : Nat := s.fifoExtra + 1

/-- No contact closed. -/
def noContacts : Contacts := Vector.replicate 4 (Vector.replicate 4 false)

/-- The state right after reset (R51). Where R51 gives no value the one here is a DESIGN CHOICE (log entries 1, 4, 5, 6
and 9). -/
def State.reset : State where
  pdir := 0
  poen := 0
  pout := 0
  row := 0
  col := 0
  hit := false
  key := 0
  tmp := 0
  rxrst := false
  txrst := false
  rxen := false
  txen := false
  chrl := 0
  par := 0
  nbstop := 0
  txemptyEn := false
  txfullEn := false
  txfull := false
  cd := 0
  bdiv := 0
  fifo := []
  txbuf := Vector.replicate txbufCap 0
  txlen := 1
  txidx := 0
  seq := .idle
  cmd := .kinit
  waitmode := false
  busy := false
  kinitDone := false
  ucfgDone := false
  closed := noContacts
  txlog := []
  hostKey := none
  fifoExtra := fifoExtraAtReset
  draws := 0
  agenda := []
  cmds := []

end Sys2Proof.Machine
end

