-- ==== Sys2Proof/Machine/Flags.lean ====
section
/-! DEFINITION. The flags and the register words the UART device shows (spec/10_state.md R35 to R39), and the interrupt
request line (spec/60_exceptions.md R234). Bits without a field read as 0 (log entry 21). -/

namespace Sys2Proof.Machine

/-- UISR.TXEMPTY, a live level: 1 exactly when the FIFO holds nothing (R38). -/
def txempty (s : State) : Bool := s.fifo.isEmpty

/-- TXFULL after one more byte has entered the FIFO: set by the write that fills it, and sticky (R38, R205). -/
def txfullAfterWrite (s : State) : Bool := s.txfull || s.fifo.length + 1 == s.fifoDepth

/-- The interrupt request output (R234). Nothing reads it (R235). -/
def irq (s : State) : Bool := (s.txfull && s.txfullEn) || (txempty s && s.txemptyEn)

/-- What UCR reads (R35). -/
def ucrWord (s : State) : Word :=
  0#27 ++ BitVec.ofBool s.txen ++ 0#1 ++ BitVec.ofBool s.rxen ++ BitVec.ofBool s.txrst ++ BitVec.ofBool s.rxrst

/-- What UMR reads (R36). -/
def umrWord (s : State) : Word := 0#24 ++ s.nbstop ++ s.par ++ s.chrl ++ 0#1

/-- What UIER reads (R37). -/
def uierWord (s : State) : Word := 0#27 ++ BitVec.ofBool s.txfullEn ++ BitVec.ofBool s.txemptyEn ++ 0#3

/-- What UISR reads (R38). -/
def uisrWord (s : State) : Word := 0#27 ++ BitVec.ofBool s.txfull ++ BitVec.ofBool (txempty s) ++ 0#3

/-- What UBG reads (R39). -/
def ubgWord (s : State) : Word := 0#16 ++ s.cd

/-- What UBD reads (R39). -/
def ubdWord (s : State) : Word := 0#24 ++ s.bdiv

end Sys2Proof.Machine
end

