-- ==== Sys2Proof/Config.lean ====
section
/-! DEFINITION. What the spec leaves OPEN or free, as constants without a body: nothing can be proved of their values.
The parameters to which the spec gives a value stand in Sys2Proof/Machine/Params.lean. -/

namespace Sys2Proof

/-- `draw` (R11): the levels one read of PIN takes where the spec promises none, indexed by the number of the read.
Bit `i` is the level drawn for register bit `i`: a bit outside the window (R213), a row pin nothing drives (R27), a
column joined to a low and a high row at once (R202). Log entry 6. -/
opaque Config.freePin : Nat → Word

/-- The lower of the two register groups starts at four times this number: `PORT_BASE` and `UART_BASE` are OPEN, each
a multiple of 4 (R8, R71). Log entry 8. -/
opaque Config.lowBaseWords : Nat

/-- How many words lie between the two register groups, which do not overlap (R71). Log entry 8. -/
opaque Config.gapWords : Nat

/-- Whether the UART group is the lower one (R71 fixes no order). Log entry 8. -/
opaque Config.uartIsLower : Bool

end Sys2Proof
end

