-- ==== Sys2Proof/Machine/Pins.lean ====
section
/-! DEFINITION. The port window, the scan order, and the levels a read of PIN sees (spec/10_state.md R22 to R27,
spec/45_agents.md R201, R202, R213). -/

namespace Sys2Proof.Machine

/-- All rows. -/
def allRows : List Row := [.r1, .r2, .r3, .r4]

/-- All columns. -/
def allCols : List Col := [.c1, .c2, .c3, .c4]

/-- `ROW_ORDER` = [4, 3, 2, 1] (R8, R9). -/
def rowOrder : List Row := [.r4, .r3, .r2, .r1]

/-- `PIN_ORDER` = [8, 7, 6, 5] (R8, R9); pin `p` is column `p - 4` (R23). -/
def pinOrder : List Col := [.c4, .c3, .c2, .c1]

/-- What follows an element in an order; none after the last one. -/
def nextIn {α : Type} [DecidableEq α] (a : α) : List α → Option α
  | [] => none
  | b :: l => if a = b then l.head? else nextIn a l

/-- The number of a row, 1 to 4, which is also its pin (R23). -/
def Row.num (r : Row) : Nat := r.idx.val + 1

/-- The number of a column, 1 to 4 (R23). -/
def Col.num (c : Col) : Nat := c.idx.val + 1

/-- The register bit of a row's pin (R23). -/
def Row.bit (r : Row) : Nat := portLsb + r.num - 1

/-- The register bit of a column's pin, which is pin `c + 4` (R23). -/
def Col.bit (c : Col) : Nat := portLsb + c.num + 3

/-- The column whose pin a register bit shows, if it shows one (R23). -/
def colOfBit (i : Nat) : Option Col := allCols.find? (fun c => c.bit == i)

/-- `win(v)` (R12): the eight bits of the port. -/
def win (v : Word) : BitVec 8 := v.extractLsb' portLsb 8

/-- `WMASK` (R12). -/
def wmask : Word := 0xFF#32 <<< portLsb

/-- `setwin(v, m, d)` (R12): the window bits that `m` selects become those of `d`. -/
def setwin (v : Word) (m d : BitVec 8) : Word :=
  (v &&& ~~~(m.setWidth 32 <<< portLsb)) ||| ((d &&& m).setWidth 32 <<< portLsb)

/-- The row nibble of KS_DRV_WR(r): row `r` low, the others high (R134). -/
def rowNibble (r : Row) : BitVec 8 := 0x0F#8 &&& ~~~(1#8 <<< (r.num - 1))

/-- Whether a register bit lies in the window (R22). -/
def inWindow (i : Nat) : Bool := portLsb ≤ i && i < portLsb + 8

/-- Whether the port drives the pin a window bit shows: both its direction and its enable bit are 1 (R25). -/
def driven (s : State) (i : Nat) : Bool := inWindow i && s.pdir.getLsbD i && s.poen.getLsbD i

/-- Whether the contact at a key position is closed (R47). -/
def contact (k : Contacts) (r : Row) (c : Col) : Bool := (k[r.idx])[c.idx]

/-- The set `A` of R202 is not empty: a closed contact joins the column to a row driven low. -/
def joinedLow (s : State) (c : Col) : Bool :=
  allRows.any fun r => contact s.closed r c && driven s r.bit && !s.pout.getLsbD r.bit

/-- The set `B` of R202 is not empty: a closed contact joins the column to a row driven high. -/
def joinedHigh (s : State) (c : Col) : Bool :=
  allRows.any fun r => contact s.closed r c && driven s r.bit && s.pout.getLsbD r.bit

/-- The level the next read of PIN draws for a register bit (R11, R202, R213). -/
def drawn (s : State) (i : Nat) : Bool := (Config.freePin s.draws).getLsbD i

/-- `ext[c + 4]`: the level on a column pin the port does not drive (R202). -/
def colLevel (s : State) (c : Col) : Bool :=
  if joinedLow s c then (if joinedHigh s c then drawn s c.bit else false) else true

/-- Bit `i` of what a read of PIN returns now (R27): the POUT bit on a driven pin, `ext` on another, and a draw outside
the window (R213) and on a row pin nothing drives (log entry 7). -/
def pinBit (s : State) (i : Nat) : Bool :=
  if driven s i then s.pout.getLsbD i
  else
    match colOfBit i with
    | some c => colLevel s c
    | none => drawn s i

/-- All 32 bits of what a read of PIN returns now (R27). -/
def pinWord (s : State) : Word := BitVec.ofFnLE (fun i : Fin 32 => pinBit s i.val)

end Sys2Proof.Machine
end

