-- ==== Sys2Proof/Machine/Operands.lean ====
section
/-! DEFINITION. What the operands of a command become: the key decode function (spec/40_keypad.md R139), the mode word of
UCFG (spec/41_uart_tx.md R161), the buffer a UTX loads (R171). -/

namespace Sys2Proof.Machine

/-- `decode(row, col)` (R139): the branches in their order, on mathematical integers. Outside the matrix the list is
applied as written (R141, log entry 20). -/
def decodeKey (row col : Int) : Int :=
  if 1 ≤ row ∧ row < 4 ∧ 1 ≤ col ∧ col < 4 then col + (row - 1) * 3
  else if col = 4 then row + 9
  else if row = 4 ∧ col = 1 then 0
  else if row = 4 ∧ col < 4 then 17 - col
  else -1

/-- `sext_32(decode(row, col))` of two 8-bit signed values (R102, R134, R140). -/
def keyOf (row col : BitVec 8) : Word := BitVec.ofInt 32 (decodeKey row.toInt col.toInt)

/-- The value UC_MODE writes (R161). -/
def modeWord (stop data : BitVec 2) (parity : BitVec 3) : Word :=
  (stop.setWidth 32 <<< 6) ||| (parity.setWidth 32 <<< 3) ||| (data.setWidth 32 <<< 1)

/-- How many bytes of a text of `n` bytes are sent: `min(n, TXBUF_CAP - 1)` (R170, R171). -/
def keptLength (n : Nat) : Nat := min n (txbufCap - 1)

/-- The bytes a UTX sends: the text, cut, and the terminator (R171, R172). -/
def sentBytes (msg : List Byte) : List Byte := msg.take (keptLength msg.length) ++ [txTerm]

/-- TXBUF after UT_LOAD (R170): the bytes to send from index 0 on, every later byte as it was. Marked irreducible so that
comparing two states never unrolls the 64 entries; Sys2Proof/Laws/Ops.lean says what it holds. -/
@[irreducible] def loadBuffer (msg : List Byte) (old : Vector Byte txbufCap) : Vector Byte txbufCap :=
  Vector.ofFn fun i => ((sentBytes msg)[i.val]?).getD old[i]

end Sys2Proof.Machine
end

