-- ==== Sys2Proof/Machine/Updates.lean ====
section
/-! DEFINITION. The named updates of the state: every assignment the rules make, under one name each. -/

namespace Sys2Proof.Machine

/-- SEQ moves to a label: `SEQ <- label` (R11). -/
def setSeq (l : SeqLabel) (s : State) : State := { s with seq := l }

/-- The last assignments of every operation: `BUSY <- 0; SEQ <- IDLE`. -/
def finish (s : State) : State := { s with busy := false, seq := SeqLabel.idle }

/-- HOST's Issue of a command whose precondition holds (R216): CMD, BUSY, WAITMODE and SEQ. -/
def accept (i : Instr) (l : SeqLabel) (wait : Bool) (s : State) : State :=
  { s with
    cmd := i
    busy := true
    waitmode := wait
    seq := l }

/-- TMP takes a value (R32). -/
def setTmp (v : Word) (s : State) : State := { s with tmp := v }

/-- A write to PDIR stores the value (R24). -/
def setPdir (v : Word) (s : State) : State := { s with pdir := v }

/-- A write to POEN stores the value (R25). -/
def setPoen (v : Word) (s : State) : State := { s with poen := v }

/-- A write to POUT stores the value (R26). -/
def setPout (v : Word) (s : State) : State := { s with pout := v }

/-- A read of PIN has been made, so the next one makes its own draws (R202, R213). -/
def countRead (s : State) : State := { s with draws := s.draws + 1 }

/-- `HIT <- 0` (R134). -/
def clearHit (s : State) : State := { s with hit := false }

/-- The latch records a position (R134); what an earlier sample recorded is overwritten (R136). -/
def recordHit (r : Row) (c : Col) (s : State) : State :=
  { s with
    row := BitVec.ofNat 8 r.num
    col := BitVec.ofNat 8 c.num
    hit := true }

/-- KEY takes a value (R31). -/
def setKey (v : Word) (s : State) : State := { s with key := v }

/-- `WAITMODE <- 0` (R134). -/
def clearWait (s : State) : State := { s with waitmode := false }

/-- `KINIT_DONE <- 1` (R131). -/
def markKinit (s : State) : State := { s with kinitDone := true }

/-- `UCFG_DONE <- 1` (R161). -/
def markUcfg (s : State) : State := { s with ucfgDone := true }

/-- The effect of a write to UCR (R35, R206): the enables are replaced, a reset bit written 1 becomes pending, and TXRST
empties the FIFO and clears TXFULL. -/
def writeUcr (v : Word) (s : State) : State :=
  { s with
    rxen := v.getLsbD 2
    txen := v.getLsbD 4
    rxrst := (s.rxrst || v.getLsbD 0)
    txrst := (s.txrst || v.getLsbD 1)
    fifo := (if v.getLsbD 1 then [] else s.fifo)
    txfull := (s.txfull && !v.getLsbD 1) }

/-- A write to UMR stores the defined bits (R36). -/
def writeUmr (v : Word) (s : State) : State :=
  { s with
    chrl := v.extractLsb' 1 2
    par := v.extractLsb' 3 3
    nbstop := v.extractLsb' 6 2 }

/-- A write to UIER stores the defined bits (R37). -/
def writeUier (v : Word) (s : State) : State := { s with txemptyEn := v.getLsbD 3, txfullEn := v.getLsbD 4 }

/-- A write to UISR clears TXFULL where bit 4 is 1, and never changes TXEMPTY (R38). -/
def writeUisr (v : Word) (s : State) : State := { s with txfull := (s.txfull && !v.getLsbD 4) }

/-- A write to UBG stores CD (R39). -/
def writeUbg (v : Word) (s : State) : State := { s with cd := v.extractLsb' 0 16 }

/-- A write to UBD stores BDIV (R39). -/
def writeUbd (v : Word) (s : State) : State := { s with bdiv := v.extractLsb' 0 8 }

/-- A byte enters the FIFO at its tail; the write that fills it sets TXFULL (R205). -/
def pushFifo (b : Byte) (s : State) : State := { s with fifo := s.fifo ++ [b], txfull := txfullAfterWrite s }

/-- The byte `b` at the head leaves the FIFO for txlog (R208). -/
def popFifo (b : Byte) (rest : List Byte) (s : State) : State := { s with fifo := rest, txlog := s.txlog ++ [b] }

/-- TXBUF, TXLEN and TXIDX as UT_LOAD leaves them (R170, R171). -/
def loadText (msg : List Byte) (s : State) : State :=
  { s with
    txbuf := loadBuffer msg s.txbuf
    txlen := keptLength msg.length + 1
    txidx := 0 }

/-- TXIDX takes a value (R170). -/
def setTxidx (n : Nat) (s : State) : State := { s with txidx := n }

/-- The set of closed contacts is replaced (R200). -/
def setClosed (k : Contacts) (s : State) : State := { s with closed := k }

/-- The named reset bits are no longer pending (R207). -/
def clearResets (rx tx : Bool) (s : State) : State :=
  { s with
    rxrst := (s.rxrst && !rx)
    txrst := (s.txrst && !tx) }

/-- HOST has read a value from KEY (R216). -/
def setHostKey (v : Word) (s : State) : State := { s with hostKey := some v }

/-- The words HOST has still to present (R100). -/
def setCmds (ws : List Word) (s : State) : State := { s with cmds := ws }

/-- The event at the head of the agenda has been taken (log entry 1). -/
def takeEvent (s : State) : State := { s with agenda := s.agenda.tail }

end Sys2Proof.Machine
end

