-- ==== Sys2Proof/Machine/Ops.lean ====
section
/-! DEFINITION. The named operations: register reads and writes with their side effects (spec/20_memory.md R70 to R79,
spec/45_agents.md R205, R206, R209), the two halves of a read-modify-write (R78), issuing and ending an operation. The
block takes no exception and returns from none (spec/60_exceptions.md R233, R238, R239; log entry 16). -/

namespace Sys2Proof.Machine

/-- `PORT_BASE` and `UART_BASE` are multiples of 4 and the groups do not overlap (R71); nothing else is known. -/
def portBase : Nat :=
  4 * Config.lowBaseWords + (if Config.uartIsLower then uartSpan + 4 * Config.gapWords else 0)

/-- See `portBase`. -/
def uartBase : Nat :=
  4 * Config.lowBaseWords + (if Config.uartIsLower then 0 else portSpan + 4 * Config.gapWords)

/-- The byte address of a register (R21, R34, R71). -/
def Reg.addr : Reg → Nat
  | .pout => portBase + poutOffset
  | .pin => portBase + pinOffset
  | .pdir => portBase + pdirOffset
  | .poen => portBase + poenOffset
  | .ucr => uartBase + 0x00
  | .umr => uartBase + 0x04
  | .uier => uartBase + 0x08
  | .uisr => uartBase + 0x14
  | .ubg => uartBase + 0x18
  | .ufifo => uartBase + 0x30
  | .ubd => uartBase + 0x34

/-- Goes on from a next state; a fault or a refusal stays. -/
def andThen {α β : Type} (o : Host.Outcome α Fault Refusal) (f : α → Host.Outcome β Fault Refusal) :
    Host.Outcome β Fault Refusal :=
  match o with
  | .next a => f a
  | .fault e => .fault e
  | .refused e => .refused e

/-- `MemRead(r, 4)` (R11, R71): the value and the state after. No read changes a register (R76); a read of UFIFO is
refused (R40, U12). -/
def memRead (r : Reg) (s : State) : Host.Outcome (Word × State) Fault Refusal :=
  match r with
  | .pout => .next (s.pout, s)
  | .pin => .next (pinWord s, countRead s)
  | .pdir => .next (s.pdir, s)
  | .poen => .next (s.poen, s)
  | .ucr => .next (ucrWord s, s)
  | .umr => .next (umrWord s, s)
  | .uier => .next (uierWord s, s)
  | .uisr => .next (uisrWord s, s)
  | .ubg => .next (ubgWord s, s)
  | .ufifo => .refused .readUfifo
  | .ubd => .next (ubdWord s, s)

/-- The effect of a write to UFIFO (R40, R205, R209). -/
def writeFifo (v : Word) (s : State) : Out :=
  if s.txrst then .refused .writeDuringReset
  else if s.fifo.length < s.fifoDepth then
    .next (pushFifo (v.extractLsb' 0 8) s)
  else .fault (.txOverrun (v.extractLsb' 0 8))

/-- `MemWrite(r, 4, v)` (R11, R71), with the side effects of R76. A write to PIN changes nothing (R27). -/
def memWrite (r : Reg) (v : Word) (s : State) : Out :=
  match r with
  | .pout => .next (setPout v s)
  | .pin => .next s
  | .pdir => .next (setPdir v s)
  | .poen => .next (setPoen v s)
  | .ucr => .next (writeUcr v s)
  | .umr => .next (writeUmr v s)
  | .uier => .next (writeUier v s)
  | .uisr => .next (writeUisr v s)
  | .ubg => .next (writeUbg v s)
  | .ufifo => writeFifo v s
  | .ubd => .next (writeUbd v s)

/-- The first half of a read-modify-write (R78): `TMP <- MemRead(r, 4)`. -/
def rmwRead (r : Reg) (l : SeqLabel) (s : State) : Out :=
  andThen (memRead r s) fun p => .next (setSeq l (setTmp p.1 p.2))

/-- The second half (R78): `MemWrite(r, 4, setwin(TMP, m, d))`. -/
def rmwWrite (r : Reg) (m d : BitVec 8) (l : SeqLabel) (s : State) : Out :=
  andThen (memWrite r (setwin s.tmp m d) s) fun t => .next (setSeq l t)

/-- A write of a whole value, then the next label. -/
def putReg (r : Reg) (v : Word) (l : SeqLabel) (s : State) : Out :=
  andThen (memWrite r v s) fun t => .next (setSeq l t)

/-- Issue of a command that needs an initialisation to have ended (R262); refused when it has not (R240). -/
def acceptIf (ready : Bool) (i : Instr) (l : SeqLabel) (wait : Bool) (s : State) : Out :=
  if ready then .next (accept i l wait s) else .refused .useBeforeInit

/-- A command while BUSY = 1: CMD's own next micro-step. Another command has no step (R216, R240, log entry 13). -/
def inProgress (i : Instr) (micro : State → Out) (s : State) : Out :=
  if s.cmd = i then micro s else .refused .commandWhileBusy

end Sys2Proof.Machine
end

