-- ==== Sys2Proof/Machine/Keypad.lean ====
section
/-! DEFINITION. The Keypad Scanner: KINIT, KSCAN, KDEC and KWAIT (spec/40_keypad.md). Each meaning issues its command
when BUSY = 0 (R216) and takes one micro-step of it when BUSY = 1 (log entry 3). -/

namespace Sys2Proof.Machine

/-- The last micro-step of KINIT (R131): POUT is written, KINIT_DONE is set and the operation ends. -/
def kinitEnd (s : State) : Out :=
  andThen (memWrite .pout (setwin s.tmp 0x0F 0x0F) s) fun t => .next (finish (markKinit t))

/-- The micro-steps of KINIT (R131). -/
def kinitMicro (s : State) : Out :=
  match s.seq with
  | .kiDirRd => rmwRead .pdir .kiDirWr s
  | .kiDirWr => rmwWrite .pdir 0xFF 0x0F .kiOenRd s
  | .kiOenRd => rmwRead .poen .kiOenWr s
  | .kiOenWr => rmwWrite .poen 0xFF 0x0F .kiOutRd s
  | .kiOutRd => rmwRead .pout .kiOutWr s
  | .kiOutWr => kinitEnd s
  | _ => .fault .strayLabel

/-- KINIT, `initialize()` (R131). -/
def execKinit (s : State) : Out :=
  if s.busy then inProgress .kinit kinitMicro s else .next (accept .kinit .kiDirRd false s)

/-- The row KS_BEGIN goes to (R134): the first of ROW_ORDER. -/
def firstRow : Row := rowOrder.headD .r4

/-- The column sampled first in a row (R134): the first of PIN_ORDER. -/
def firstCol : Col := pinOrder.headD .c4

/-- Where a pass goes after KS_SAMPLE(r, p) (R134). -/
def afterSample (r : Row) (c : Col) : SeqLabel :=
  match nextIn c pinOrder with
  | some c' => .ksSample r c'
  | none => .ksRstRd r

/-- Where a pass goes after KS_RST_WR(r) (R134). -/
def afterRow (r : Row) : SeqLabel :=
  match nextIn r rowOrder with
  | some r' => .ksDrvRd r'
  | none => .ksEnd

/-- KS_SAMPLE(r, p) (R134): one read of PIN, of which only the bit of the column's pin is used (R135). -/
def sample (r : Row) (c : Col) (s : State) : Out :=
  .next (setSeq (afterSample r c)
    (if pinBit s c.bit then countRead s else recordHit r c (countRead s)))

/-- The key code KS_END stores (R134, R137). -/
def scanResult (s : State) : Word := if s.hit then keyOf s.row s.col else 0xFFFFFFFF

/-- KS_END (R134): in a KWAIT a negative code starts another pass (R145); else the operation ends. -/
def scanEnd (s : State) : Out :=
  if s.waitmode && (scanResult s).msb then .next (setSeq .ksBegin (setKey (scanResult s) s))
  else .next (finish (clearWait (setKey (scanResult s) s)))

/-- The micro-steps of a scanning pass, of KSCAN and KWAIT alike (R134, R145). -/
def scanMicro (s : State) : Out :=
  match s.seq with
  | .ksBegin => .next (setSeq (.ksDrvRd firstRow) (clearHit s))
  | .ksDrvRd r => rmwRead .pout (.ksDrvWr r) s
  | .ksDrvWr r => rmwWrite .pout 0x0F (rowNibble r) (.ksSample r firstCol) s
  | .ksSample r c => sample r c s
  | .ksRstRd r => rmwRead .pout (.ksRstWr r) s
  | .ksRstWr r => rmwWrite .pout 0x0F 0x0F (afterRow r) s
  | .ksEnd => scanEnd s
  | _ => .fault .strayLabel

/-- KSCAN, `scan_once()` (R134). -/
def execKscan (s : State) : Out :=
  if s.busy then inProgress .kscan scanMicro s else acceptIf s.kinitDone .kscan .ksBegin false s

/-- The one micro-step of KDEC (R140). -/
def kdecMicro (row col : BitVec 8) (s : State) : Out :=
  match s.seq with
  | .kdExec => .next (finish (setKey (keyOf row col) s))
  | _ => .fault .strayLabel

/-- KDEC, `decode(row, column)` (R140): no register access, no initialisation needed. -/
def execKdec (row col : BitVec 8) (s : State) : Out :=
  if s.busy then inProgress (.kdec row col) (kdecMicro row col) s
  else .next (accept (.kdec row col) .kdExec false s)

/-- KWAIT, `wait_for_key()` (R145): the passes of KSCAN with WAITMODE = 1. -/
def execKwait (s : State) : Out :=
  if s.busy then inProgress .kwait scanMicro s else acceptIf s.kinitDone .kwait .ksBegin true s

end Sys2Proof.Machine
end

