-- ==== Sys2Proof/Machine/Uart.lean ====
section
/-! DEFINITION. The Serial Transmit Driver: UCFG and UTX (spec/41_uart_tx.md). Each meaning issues its command when
BUSY = 0 (R216) and takes one micro-step of it when BUSY = 1 (log entry 3). -/

namespace Sys2Proof.Machine

/-- UC_WAIT (R161): one read of UCR, repeated until both reset bits read 0; no timeout (R165). -/
def ucfgWait (s : State) : Out :=
  andThen (memRead .ucr s) fun p =>
    .next (setSeq (if p.1.extractLsb' 0 2 = 0 then .ucEnable else .ucWait) p.2)

/-- UC_IEN (R161): the interrupt enables, UCFG_DONE, and the end of the operation. -/
def ucfgEnd (s : State) : Out :=
  andThen (memWrite .uier 0x00000018 s) fun t => .next (finish (markUcfg t))

/-- The micro-steps of UCFG (R161). -/
def ucfgMicro (stop data : BitVec 2) (parity : BitVec 3) (cd : BitVec 16) (bdiv : BitVec 8) (s : State) : Out :=
  match s.seq with
  | .ucReset => putReg .ucr 0x00000003 .ucWait s
  | .ucWait => ucfgWait s
  | .ucEnable => putReg .ucr 0x00000014 .ucMode s
  | .ucMode => putReg .umr (modeWord stop data parity) .ucBg s
  | .ucBg => putReg .ubg (cd.setWidth 32) .ucBd s
  | .ucBd => putReg .ubd (bdiv.setWidth 32) .ucIen s
  | .ucIen => ucfgEnd s
  | _ => .fault .strayLabel

/-- UCFG, `configure(...)` (R161). -/
def execUcfg (stop data : BitVec 2) (parity : BitVec 3) (cd : BitVec 16) (bdiv : BitVec 8) (s : State) : Out :=
  if s.busy then inProgress (.ucfg stop data parity cd bdiv) (ucfgMicro stop data parity cd bdiv) s
  else .next (accept (.ucfg stop data parity cd bdiv) .ucReset false s)

/-- UT_LOAD (R170, R171): the text, cut, and the terminator; no register access. -/
def utxLoad (msg : List Byte) (s : State) : Out :=
  .next (setSeq .utCheck (loadText msg s))

/-- UT_CHECK (R170): the full flag decides between the drain path and the write. -/
def utxCheck (s : State) : Out :=
  andThen (memRead .uisr s) fun p => .next (setSeq (if p.1.getLsbD 4 then .utClear else .utWrite) p.2)

/-- UT_POLL (R170): repeated until the empty flag reads 1; no timeout (R175). The short sleep changes nothing (R176). -/
def utxPoll (s : State) : Out :=
  andThen (memRead .uisr s) fun p => .next (setSeq (if p.1.getLsbD 3 then .utWrite else .utPoll) p.2)

/-- TXIDX moves on; the operation goes to the next byte or ends (R170). -/
def utxAdvance (s : State) : State :=
  if s.txidx + 1 < s.txlen then setSeq .utCheck (setTxidx (s.txidx + 1) s)
  else finish (setTxidx (s.txidx + 1) s)

/-- UT_WRITE (R170): one byte of TXBUF into the FIFO. -/
def utxWrite (s : State) : Out :=
  match s.txbuf[s.txidx]? with
  | some b => andThen (memWrite .ufifo (b.setWidth 32) s) fun t => .next (utxAdvance t)
  | none => .fault .txIndexOutOfBuffer

/-- The micro-steps of UTX (R170). -/
def utxMicro (msg : List Byte) (s : State) : Out :=
  match s.seq with
  | .utLoad => utxLoad msg s
  | .utCheck => utxCheck s
  | .utClear => putReg .uisr 0x00000010 .utPoll s
  | .utPoll => utxPoll s
  | .utWrite => utxWrite s
  | _ => .fault .strayLabel

/-- UTX, `transmit(...)` (R170). -/
def execUtx (msg : List Byte) (s : State) : Out :=
  if s.busy then inProgress (.utx msg) (utxMicro msg) s else acceptIf s.ucfgDone (.utx msg) .utLoad false s

end Sys2Proof.Machine
end

