-- ==== Sys2Proof/Machine/Dispatch.lean ====
section
/-! DEFINITION. What a command does in a state: HOST's Issue of it when BUSY = 0 (spec/45_agents.md R216), one micro-step
of it when BUSY = 1 (R3, R218; log entry 3). -/

namespace Sys2Proof.Machine

def exec (i : Instr) (s : State) : Host.Outcome State Fault Refusal :=
  match i with
  | .kinit => Sys2Proof.Machine.execKinit s
  | .kscan => Sys2Proof.Machine.execKscan s
  | .kdec row col => Sys2Proof.Machine.execKdec row col s
  | .kwait => Sys2Proof.Machine.execKwait s
  | .ucfg stop data parity cd bdiv => Sys2Proof.Machine.execUcfg stop data parity cd bdiv s
  | .utx msg => Sys2Proof.Machine.execUtx msg s

end Sys2Proof.Machine
end

