-- ==== Sys2Proof/Machine/Agents.lean ====
section
/-! DEFINITION. The steps of the agents beside SEQ (spec/45_agents.md), the reset event (spec/70_reset_and_hazards.md
R260), and which agent moves next (R218; log entries 1 and 2). -/

namespace Sys2Proof.Machine

/-- UARTDEV's Dequeue (R208), enabled when TXEN = 1, TXRST = 0 and the FIFO holds a byte. -/
def dequeueStep (s : State) : State :=
  match s.fifo with
  | [] => s
  | b :: rest => if s.txen && !s.txrst then popFifo b rest s else s

/-- The bits outside the window replaced by those of `v` (R212). -/
def setForeign (old v : Word) : Word := (old &&& wmask) ||| (v &&& ~~~wmask)

/-- OTHER's step (R212), enabled only while BUSY = 0. -/
def otherStep (r : SharedReg) (v : Word) (s : State) : State :=
  if s.busy then s
  else
    match r with
    | .pdir => setPdir (setForeign s.pdir v) s
    | .poen => setPoen (setForeign s.poen v) s
    | .pout => setPout (setForeign s.pout v) s

/-- HOST's Read of KEY (R216), enabled only while BUSY = 0. What KEY holds before anything has written it is its value
after reset (log entries 5 and 9). -/
def hostReadStep (s : State) : State := if s.busy then s else setHostKey s.key s

/-- HOST's Issue (R216), enabled while BUSY = 0 and words are left to present: they are decoded (R106), an illegal
command is refused (R107), and a legal one goes to `exec`. -/
def hostIssueStep (s : State) : Out :=
  if s.busy then .next s
  else if s.cmds.isEmpty then .next s
  else
    match decode s.cmds with
    | .ok (i, rest) => exec i (setCmds rest s)
    | .error e => .refused (.illegalCommand e)

/-- SEQ's micro-step (R218), enabled while BUSY = 1: the next one of the operation in CMD. -/
def seqStep (s : State) : Out := if s.busy then exec s.cmd s else .next s

/-- The reset event (R260): every piece of the block's state takes its value after reset. The contacts, the host's side
and the model's own inputs are not the block's and stay (log entry 15). -/
def powerOnStep (s : State) : State :=
  { State.reset with
    closed := s.closed, hostKey := s.hostKey, fifoExtra := s.fifoExtra, draws := s.draws, agenda := s.agenda,
    cmds := s.cmds }

/-- One step of the agent an event names. KEYS may always replace `K` (R200). ResetDone clears the bits it names; where
none of them is pending it is not enabled and nothing changes (R207). -/
def runEvent (e : Event) (s : State) : Out :=
  match e with
  | .seq => seqStep s
  | .keys k => .next (setClosed k s)
  | .resetDone rx tx => .next (clearResets rx tx s)
  | .dequeue => .next (dequeueStep s)
  | .other r v => .next (otherStep r v s)
  | .hostIssue => hostIssueStep s
  | .hostRead => .next (hostReadStep s)
  | .powerOn => .next (powerOnStep s)

/-- Who moves when the agenda is empty: SEQ while an operation is in progress, else HOST (log entry 1). -/
def defaultEvent (s : State) : Event := if s.busy then .seq else .hostIssue

/-- The event the next step carries out. -/
def nextEvent (s : State) : Event :=
  match s.agenda with
  | e :: _ => e
  | [] => defaultEvent s

/-- The words of an instruction made ready for the very next step (log entry 12): no operation is in progress and HOST's
next step is to present them. -/
def placeCommand (words : List Word) (s : State) : State :=
  { s with cmds := words ++ s.cmds, agenda := .hostIssue :: s.agenda, busy := false, seq := .idle }

end Sys2Proof.Machine
end

