-- ==== Sys2Proof/Machine/Step.lean ====
section
/-! DEFINITION. One step of the whole machine (spec/45_agents.md R218), and a command placed where the next step takes it. -/

namespace Sys2Proof.Machine

/-- One step of one agent (R218): the event at the head of the agenda, or the default one. -/
def step (s : State) : Host.Outcome State Fault Refusal := runEvent (nextEvent s) (takeEvent s)

/-- `s` with an instruction of the opcode table where HOST presents its next command (log entry 12). -/
def State.withFetchWord (s : State) (nbits w : Nat) : State := placeCommand (tableWords nbits w) s

end Sys2Proof.Machine
end

