-- ==== Sys2Proof/Safety.lean ====
section
/-! DEFINITION. The terms in which claims about the block are stated: whole operations, when a run is over, what stays
the same, and the invariant of the machine. -/

namespace Sys2Proof.Machine

/-! ### Runs -/

/-- `n` steps of SEQ alone, the command `i` being issued or in progress. -/
def seqRun : Nat → Instr → State → Out
  | 0, _, s => .next s
  | n + 1, i, s => andThen (exec i s) (seqRun n i)

/-- A run is over (R219): the command stream is exhausted, nothing is in progress or pending, and the FIFO is empty. -/
def runOver (s : State) : Bool := s.cmds.isEmpty && !s.busy && !s.rxrst && !s.txrst && s.fifo.isEmpty

/-- Every byte that has gone into the FIFO and was not discarded: those that left it, then those in it (R178). -/
def delivered (s : State) : List Byte := s.txlog ++ s.fifo

/-- The values the spec states for reset (R51); every other field is left to the log. -/
def StatedReset (s : State) : Prop :=
  win s.pdir = 0 ∧ win s.poen = 0 ∧ win s.pout = 0 ∧ ucrWord s = 0 ∧ uierWord s = 0 ∧ s.seq = .idle ∧
    s.waitmode = false ∧ s.busy = false ∧ s.kinitDone = false ∧ s.ucfgDone = false ∧ s.txlog = []

/-! ### What stays the same (the frames of the operations) -/

/-- The three stored port registers are unchanged. -/
def SamePort (s t : State) : Prop := t.pdir = s.pdir ∧ t.poen = s.poen ∧ t.pout = s.pout

/-- The position latch is unchanged. -/
def SameLatch (s t : State) : Prop := t.row = s.row ∧ t.col = s.col ∧ t.hit = s.hit

/-- KEY is unchanged. -/
def SameKey (s t : State) : Prop := t.key = s.key

/-- UCR, UMR, UIER, UBG and UBD are unchanged. -/
def SameUartConfig (s t : State) : Prop :=
  t.rxrst = s.rxrst ∧ t.txrst = s.txrst ∧ t.rxen = s.rxen ∧ t.txen = s.txen ∧ t.chrl = s.chrl ∧ t.par = s.par ∧
    t.nbstop = s.nbstop ∧ t.txemptyEn = s.txemptyEn ∧ t.txfullEn = s.txfullEn ∧ t.cd = s.cd ∧ t.bdiv = s.bdiv

/-- The FIFO, the full flag and the output are unchanged. -/
def SameFifo (s t : State) : Prop := t.fifo = s.fifo ∧ t.txfull = s.txfull ∧ t.txlog = s.txlog

/-- TXBUF, TXLEN and TXIDX are unchanged. -/
def SameBuffer (s t : State) : Prop := t.txbuf = s.txbuf ∧ t.txlen = s.txlen ∧ t.txidx = s.txidx

/-- The initialisation flags are unchanged. -/
def SameDone (s t : State) : Prop := t.kinitDone = s.kinitDone ∧ t.ucfgDone = s.ucfgDone

/-- The contacts, the host's side and the model's own inputs are unchanged. -/
def SameSurroundings (s t : State) : Prop :=
  t.closed = s.closed ∧ t.hostKey = s.hostKey ∧ t.fifoExtra = s.fifoExtra ∧ t.agenda = s.agenda ∧ t.cmds = s.cmds

/-! ### The scanner -/

/-- The window as KINIT leaves it and every operation finds it (R132): rows are driven, high, and columns are not. -/
def KeypadIdle (s : State) : Prop := win s.pdir = 0x0F ∧ win s.poen = 0x0F ∧ win s.pout &&& 0x0F = 0x0F

/-- The sixteen positions in the order a pass tests them (R136). -/
def testOrder : List (Row × Col) := rowOrder.flatMap fun r => pinOrder.map fun c => (r, c)

/-- The closed position that is tested last, if one is closed (R136). -/
def lastClosed (k : Contacts) : Option (Row × Col) :=
  (testOrder.filter fun p => contact k p.1 p.2).getLast?

/-- The key code of a position, as KEY holds it (R134). -/
def codeOf (p : Row × Col) : Word := BitVec.ofInt 32 (decodeKey p.1.num p.2.num)

/-- The result of a pass over contacts of which no two share a column (R136, R137, R203). -/
def passResult (k : Contacts) : Word :=
  match lastClosed k with
  | some p => codeOf p
  | none => 0xFFFFFFFF

/-- At most one contact is closed in each column, so no column is joined to two rows (R203). -/
def OnePerColumn (k : Contacts) : Prop :=
  ∀ (c : Col) (r r' : Row), contact k r c = true → contact k r' c = true → r = r'

/-- The row that is driven low while SEQ is at a label, if one is (R134). -/
def lowRow : SeqLabel → Option Row
  | .ksSample r _ => some r
  | .ksRstRd r => some r
  | .ksRstWr r => some r
  | _ => none

/-- The row bits of POUT at a label (R132, R134). -/
def rowsAt (l : SeqLabel) : BitVec 8 :=
  match lowRow l with
  | some r => rowNibble r
  | none => 0x0F

/-! ### The labels of each operation (R44) -/

/-- The labels of KINIT. -/
def kinitLabel : SeqLabel → Bool
  | .kiDirRd => true
  | .kiDirWr => true
  | .kiOenRd => true
  | .kiOenWr => true
  | .kiOutRd => true
  | .kiOutWr => true
  | _ => false

/-- The labels of KSCAN and KWAIT. -/
def scanLabel : SeqLabel → Bool
  | .ksBegin => true
  | .ksDrvRd _ => true
  | .ksDrvWr _ => true
  | .ksSample _ _ => true
  | .ksRstRd _ => true
  | .ksRstWr _ => true
  | .ksEnd => true
  | _ => false

/-- The labels of UCFG after UC_RESET. -/
def ucfgTail : SeqLabel → Bool
  | .ucWait => true
  | .ucEnable => true
  | .ucMode => true
  | .ucBg => true
  | .ucBd => true
  | .ucIen => true
  | _ => false

/-- The labels of UTX after UT_LOAD. -/
def utxBody : SeqLabel → Bool
  | .utCheck => true
  | .utClear => true
  | .utPoll => true
  | .utWrite => true
  | _ => false

/-- Whether a label belongs to the operation of a command (R44). -/
def labelFits (i : Instr) (l : SeqLabel) : Bool :=
  match i with
  | .kinit => kinitLabel l
  | .kscan => scanLabel l
  | .kdec _ _ => l == .kdExec
  | .kwait => scanLabel l
  | .ucfg _ _ _ _ _ => l == .ucReset || ucfgTail l
  | .utx _ => l == .utLoad || utxBody l

/-- Whether the direction register has been written by the KINIT in progress (R131). -/
def directionSet : SeqLabel → Bool
  | .kiOenRd => true
  | .kiOenWr => true
  | .kiOutRd => true
  | .kiOutWr => true
  | _ => false

/-- Whether the output-enable register has been written by the KINIT in progress (R131). -/
def enableSet : SeqLabel → Bool
  | .kiOutRd => true
  | .kiOutWr => true
  | _ => false

/-- TMP holds the register that is about to be written back (R78). -/
def tmpHeld (s : State) : Bool :=
  match s.seq with
  | .kiDirWr => s.tmp == s.pdir
  | .kiOenWr => s.tmp == s.poen
  | .kiOutWr => s.tmp == s.pout
  | .ksDrvWr _ => s.tmp == s.pout
  | .ksRstWr _ => s.tmp == s.pout
  | _ => true

/-- A latched number names a row or a column: 1 to 4 (R30). -/
def oneToFour (v : BitVec 8) : Bool := 1 ≤ v.toNat && v.toNat ≤ 4

/-! ### The invariant -/

/-- SEQ, CMD, BUSY and WAITMODE agree (R44, R45, R46). -/
structure SequencerInv (s : State) : Prop where
  idle : s.busy = false → s.seq = .idle
  fits : s.busy = true → labelFits s.cmd s.seq = true
  wait : s.waitmode = (s.busy && s.cmd == .kwait)

/-- The port window, TMP and the position latch (R29, R30, R78, R132). -/
structure KeypadInv (s : State) : Prop where
  direction : s.kinitDone = true ∨ directionSet s.seq = true → win s.pdir = 0x0F
  enable : s.kinitDone = true ∨ enableSet s.seq = true → win s.poen = 0x0F
  rows : s.kinitDone = true → win s.pout &&& 0x0F = rowsAt s.seq
  held : tmpHeld s = true
  ready : scanLabel s.seq = true → s.kinitDone = true
  latch : s.hit = true → oneToFour s.row = true ∧ oneToFour s.col = true

/-- The FIFO, its flags, the reset bits, TXIDX and TXEN (R42, R43, R163, R174). -/
structure UartInv (s : State) : Prop where
  room : s.fifo.length ≤ s.fifoDepth
  noReset : s.seq ≠ .ucWait → s.txrst = false ∧ s.rxrst = false
  emptied : ucfgTail s.seq = true → s.fifo = [] ∧ s.txfull = false
  full : s.ucfgDone = true → s.seq ≠ .utPoll → s.fifo.length = s.fifoDepth → s.txfull = true
  cleared : s.seq = .utPoll ∨ s.seq = .utWrite → s.txfull = false
  free : s.seq = .utWrite → s.fifo.length < s.fifoDepth
  ready : s.seq = .utLoad ∨ utxBody s.seq = true → s.ucfgDone = true
  index : utxBody s.seq = true → s.txidx < s.txlen ∧ s.txlen ≤ txbufCap
  enabled : s.ucfgDone = true ∨ ucfgTail s.seq = true → s.seq ≠ .ucWait → s.seq ≠ .ucEnable → s.txen = true

/-- The invariant of the machine: it holds after reset and every step keeps it. -/
structure BlockInv (s : State) : Prop where
  sequencer : SequencerInv s
  keypad : KeypadInv s
  uart : UartInv s

/-! ### Schedules and fairness (R211, R218) -/

/-- An infinite run under a schedule of events: before each step the agenda is given the next event of the schedule. -/
def ScheduledRun (sched : Nat → Event) (st : Nat → State) : Prop :=
  ∀ n, step { st n with agenda := [sched n] } = .next (st (n + 1))

/-- ResetDone is enabled: a reset bit is pending (R207). -/
def resetPending (s : State) : Bool := s.rxrst || s.txrst

/-- Dequeue is enabled (R208). -/
def dequeueEnabled (s : State) : Bool := s.txen && !s.txrst && !s.fifo.isEmpty

/-- An event that takes the step ResetDone: it clears a non-empty subset of the pending bits (R207). -/
def takesResetDone (e : Event) (s : State) : Bool :=
  match e with
  | .resetDone rx tx => (rx && s.rxrst) || (tx && s.txrst)
  | _ => false

/-- Weak fairness of UARTDEV (R211): a step of it that stays enabled is eventually taken. -/
structure DeviceFair (sched : Nat → Event) (st : Nat → State) : Prop where
  resetDone : ∀ n, (∀ m, n ≤ m → resetPending (st m) = true) → ∃ m, n ≤ m ∧ takesResetDone (sched m) (st m) = true
  dequeue : ∀ n, (∀ m, n ≤ m → dequeueEnabled (st m) = true) → ∃ m, n ≤ m ∧ sched m = .dequeue

/-- Weak fairness of SEQ: while BUSY stays 1 a micro-step is eventually taken. R218 leaves SEQ's steps as open as any
other agent's (log entry 22). -/
def SequencerFair (sched : Nat → Event) (st : Nat → State) : Prop :=
  ∀ n, (∀ m, n ≤ m → (st m).busy = true) → ∃ m, n ≤ m ∧ sched m = .seq

/-- A UCFG or a UTX is in progress. -/
def uartBusy (s : State) : Bool :=
  s.busy && match s.cmd with
    | .ucfg _ _ _ _ _ => true
    | .utx _ => true
    | _ => false

/-! ### Waiting for a key -/

/-- A KWAIT in progress that has found no key and can find none: every contact is open, and past KS_BEGIN nothing has
been recorded (R137, R145, R237). -/
structure WaitingForKey (s : State) : Prop where
  inv : BlockInv s
  busy : s.busy = true
  cmd : s.cmd = .kwait
  allOpen : ∀ r c, contact s.closed r c = false
  nothingRecorded : s.seq ≠ .ksBegin → s.hit = false

/-! ### Progress of a configuration and of a transmission -/

/-- How many of the settings of a UCFG have been made when SEQ is at a label after UC_RESET (R161). -/
def ucfgRank : SeqLabel → Nat
  | .ucWait => 0
  | .ucEnable => 1
  | .ucMode => 2
  | .ucBg => 3
  | .ucBd => 4
  | .ucIen => 5
  | _ => 6

/-- A UCFG past UC_RESET, in progress or ended: the FIFO is empty, txlog is still `log`, and every register written so
far reads its value (R163). -/
def UcfgProgress (stop data : BitVec 2) (parity : BitVec 3) (cd : BitVec 16) (bdiv : BitVec 8) (log : List Byte)
    (s : State) : Prop :=
  ((s.busy = true ∧ s.cmd = .ucfg stop data parity cd bdiv ∧ ucfgTail s.seq = true) ∨
    (s.busy = false ∧ s.seq = .idle ∧ s.ucfgDone = true ∧ uierWord s = 0x00000018)) ∧
  s.fifo = [] ∧ s.txfull = false ∧ s.txlog = log ∧
  (1 ≤ ucfgRank s.seq → s.rxrst = false ∧ s.txrst = false) ∧
  (2 ≤ ucfgRank s.seq → ucrWord s = 0x00000014) ∧
  (3 ≤ ucfgRank s.seq →
    umrWord s = (stop.setWidth 32 <<< 6) ||| (parity.setWidth 32 <<< 3) ||| (data.setWidth 32 <<< 1)) ∧
  (4 ≤ ucfgRank s.seq → ubgWord s = cd.setWidth 32) ∧
  (5 ≤ ucfgRank s.seq → ubdWord s = bdiv.setWidth 32)

/-- The bytes of the UTX of `msg` reach the FIFO in order on top of `base` (R178): nothing of it is sent before UT_LOAD
has run, the first TXIDX bytes are sent while it runs, all are sent when it has ended. -/
def UtxProgress (base msg : List Byte) (s : State) : Prop :=
  (s.busy = true ∧ s.cmd = .utx msg ∧ s.seq = .utLoad ∧ delivered s = base) ∨
  (s.busy = true ∧ s.cmd = .utx msg ∧ utxBody s.seq = true ∧ s.txlen = (sentBytes msg).length ∧
    (∀ j, j < s.txlen → s.txbuf[j]? = (sentBytes msg)[j]?) ∧
    delivered s = base ++ (sentBytes msg).take s.txidx) ∨
  (s.busy = false ∧ delivered s = base ++ sentBytes msg)

end Sys2Proof.Machine
end

