-- ==== Sys2Proof/Certificates/Slice0/Obligations.lean ====
section
/-! DEFINITION. The statements about the block, from the numbered rules of spec/. Every statement is about every state
its hypotheses admit; none is about a program. -/

open Sys2Proof Sys2Proof.Machine

/-! ### Encoding (spec/30_encoding.md) -/

/-- R111: the worked encodings, in both directions. -/
def Obligations.WorkedEncodings : Prop :=
  (encode .kinit = [0x01000000] ∧ decode [0x01000000] = .ok (.kinit, [])) ∧
  (encode .kscan = [0x02000000] ∧ decode [0x02000000] = .ok (.kscan, [])) ∧
  (encode (.kdec 3 3) = [0x03000303] ∧ decode [0x03000303] = .ok (.kdec 3 3, [])) ∧
  (encode (.kdec (BitVec.ofInt 8 (-1)) 4) = [0x0300FF04] ∧
    decode [0x0300FF04] = .ok (.kdec (BitVec.ofInt 8 (-1)) 4, [])) ∧
  (encode .kwait = [0x04000000] ∧ decode [0x04000000] = .ok (.kwait, [])) ∧
  (encode (.ucfg 0 0 4 0x7C 6) = [0x10000020, 0x0006007C] ∧
    decode [0x10000020, 0x0006007C] = .ok (.ucfg 0 0 4 0x7C 6, [])) ∧
  (encode (.utx [0x48, 0x69]) = [0x20000002, 0x00000048, 0x00000069] ∧
    decode [0x20000002, 0x00000048, 0x00000069] = .ok (.utx [0x48, 0x69], [])) ∧
  (encode (.utx []) = [0x20000000] ∧ decode [0x20000000] = .ok (.utx [], []))

/-- R101 to R106: decoding the words of a well-formed command gives it back, and leaves the words after it. -/
def Obligations.DecodeReadsBackEncode : Prop :=
  ∀ (i : Instr) (rest : List Word), i.WellFormed → decode (encode i ++ rest) = .ok (i, rest)

/-- R101 to R107: whatever decodes is the encoding of a well-formed command, so no bit of a word is ignored. -/
def Obligations.EncodeReadsBackDecode : Prop :=
  ∀ (ws : List Word) (i : Instr) (rest : List Word),
    decode ws = .ok (i, rest) → i.WellFormed ∧ ws = encode i ++ rest

/-- R102 to R104: which bits of the words each operand is. -/
def Obligations.OperandFields : Prop :=
  (∀ (w : Word) (ws : List Word), w &&& 0xFFFF0000 = 0x03000000 →
    decode (w :: ws) = .ok (.kdec (w.extractLsb' 8 8) (w.extractLsb' 0 8), ws)) ∧
  (∀ (w w1 : Word) (ws : List Word), w &&& 0xFFFFFF01 = 0x10000000 → w1 &&& 0xFF000000 = 0 →
    decode (w :: w1 :: ws) = .ok (.ucfg (w.extractLsb' 6 2) (w.extractLsb' 1 2) (w.extractLsb' 3 3)
      (w1.extractLsb' 0 16) (w1.extractLsb' 16 8), ws)) ∧
  (∀ (w : Word) (payload ws : List Word), w &&& 0xFFFF0000 = 0x20000000 →
    payload.length = (w.extractLsb' 0 16).toNat → (∀ p ∈ payload, p &&& 0xFFFFFF00 = 0) →
    decode (w :: payload ++ ws) = .ok (.utx (payload.map (·.extractLsb' 0 8)), ws))

/-- R107: a first word that matches no row, a UCFG second word with bits 31:24 set and a UTX payload word with bits 31:8
set are illegal, and HOST's Issue of illegal words is refused (R240). -/
def Obligations.IllegalWordsRefused : Prop :=
  (∀ (w : Word) (ws : List Word), (∀ r ∈ opcodeRows, w &&& r.mask ≠ r.pattern) →
    decode (w :: ws) = .error .illegalFirstWord) ∧
  (∀ (w w1 : Word) (ws : List Word), w &&& 0xFFFFFF01 = 0x10000000 → w1 &&& 0xFF000000 ≠ 0 →
    decode (w :: w1 :: ws) = .error .illegalSecondWord) ∧
  (∀ (w : Word) (ws : List Word), w &&& 0xFFFF0000 = 0x20000000 → (w.extractLsb' 0 16).toNat ≤ ws.length →
    (∃ p ∈ ws.take (w.extractLsb' 0 16).toNat, p &&& 0xFFFFFF00 ≠ 0) →
    decode (w :: ws) = .error .illegalPayloadWord) ∧
  (∀ (s : State) (e : DecodeError), s.busy = false → nextEvent s = .hostIssue → s.cmds ≠ [] →
    decode s.cmds = .error e → step s = .refused (.illegalCommand e))

/-! ### Steps of the machine (spec/45_agents.md) -/

/-- R216, R218: when HOST moves, BUSY = 0 and the words at the head of the stream decode to a command, the step is that
command's `exec`, with the words and the event taken away. HOST moves when the agenda says so, or by default
(log entry 1) when it is empty. -/
def Obligations.StepRunsIssuedCommand : Prop :=
  (∀ (s : State) (i : Instr) (rest : List Word), s.busy = false → nextEvent s = .hostIssue →
    decode s.cmds = .ok (i, rest) →
    step s = exec i { s with agenda := s.agenda.tail, cmds := rest }) ∧
  (∀ (s : State) (a : List Event), s.agenda = .hostIssue :: a → nextEvent s = .hostIssue) ∧
  (∀ s : State, s.agenda = [] → s.busy = false → nextEvent s = .hostIssue)

/-- R218: when SEQ moves and BUSY = 1, the step is `exec` of the command in CMD. SEQ moves when the agenda says so, or by
default (log entry 1) when it is empty. -/
def Obligations.StepRunsMicroStep : Prop :=
  (∀ s : State, s.busy = true → nextEvent s = .seq → step s = exec s.cmd { s with agenda := s.agenda.tail }) ∧
  (∀ (s : State) (a : List Event), s.agenda = .seq :: a → nextEvent s = .seq) ∧
  (∀ s : State, s.agenda = [] → s.busy = true → nextEvent s = .seq)

/-- The model's own (log entry 12): an instruction placed by `withFetchWord` is the one the very next step runs, and the
words left to present are those the decoder leaves, then those that stood there before. -/
def Obligations.StepRunsPlacedWord : Prop :=
  ∀ (s : State) (nbits w : Nat) (i : Instr), decodeTableWord nbits w = some i →
    ∃ rest, decode (tableWords nbits w) = .ok (i, rest) ∧
      step (s.withFetchWord nbits w) = exec i { s with busy := false, seq := .idle, cmds := rest ++ s.cmds }

/-- R207, R208, R212, R216, R218: a step that is not enabled changes nothing but the agenda (log entry 2). -/
def Obligations.StepsNotEnabledChangeNothing : Prop :=
  (∀ (s : State) (r : SharedReg) (v : Word), s.busy = true →
    nextEvent s = .hostIssue ∨ nextEvent s = .hostRead ∨ nextEvent s = .other r v →
    step s = .next { s with agenda := s.agenda.tail }) ∧
  (∀ s : State, s.busy = false → nextEvent s = .seq → step s = .next { s with agenda := s.agenda.tail }) ∧
  (∀ s : State, s.busy = false → s.cmds = [] → nextEvent s = .hostIssue →
    step s = .next { s with agenda := s.agenda.tail }) ∧
  (∀ s : State, s.txen = false ∨ s.txrst = true ∨ s.fifo = [] → nextEvent s = .dequeue →
    step s = .next { s with agenda := s.agenda.tail }) ∧
  (∀ (s : State) (rx tx : Bool), s.txrst = false → s.rxrst = false → nextEvent s = .resetDone rx tx →
    step s = .next { s with agenda := s.agenda.tail })

/-! ### Reset (spec/10_state.md section 7, spec/70_reset_and_hazards.md section 1) -/

/-- R51, R260, R261: the stated values hold after reset, and the reset event brings them back from every state. -/
def Obligations.ResetGivesStatedValues : Prop :=
  StatedReset State.reset ∧ irq State.reset = false ∧
  ∀ s : State, nextEvent s = .powerOn →
    ∃ t, step s = .next t ∧ StatedReset t ∧ irq t = false ∧ t.fifoDepth = s.fifoDepth ∧ t.cmds = s.cmds

/-- R52: after reset no pin of the window is driven, and no closed contact can pull a column low. -/
def Obligations.NoPinDrivenAfterReset : Prop :=
  (∀ i, driven State.reset i = false) ∧
  (∀ (k : Contacts) (c : Col), colLevel { State.reset with closed := k } c = true)

/-! ### KINIT (spec/40_keypad.md section 1) -/

/-- R131: Issue and every micro-step of KINIT, and the rule's example. -/
def Obligations.KinitMicroSteps : Prop :=
  (∀ s : State, s.busy = false →
    exec .kinit s = .next { s with cmd := .kinit, busy := true, waitmode := false, seq := .kiDirRd }) ∧
  (∀ s : State, s.busy = true → s.cmd = .kinit →
    (s.seq = .kiDirRd → exec .kinit s = .next { s with tmp := s.pdir, seq := .kiDirWr }) ∧
    (s.seq = .kiDirWr → exec .kinit s = .next { s with pdir := setwin s.tmp 0xFF 0x0F, seq := .kiOenRd }) ∧
    (s.seq = .kiOenRd → exec .kinit s = .next { s with tmp := s.poen, seq := .kiOenWr }) ∧
    (s.seq = .kiOenWr → exec .kinit s = .next { s with poen := setwin s.tmp 0xFF 0x0F, seq := .kiOutRd }) ∧
    (s.seq = .kiOutRd → exec .kinit s = .next { s with tmp := s.pout, seq := .kiOutWr }) ∧
    (s.seq = .kiOutWr → exec .kinit s =
      .next { s with pout := setwin s.tmp 0x0F 0x0F, kinitDone := true, busy := false, seq := .idle })) ∧
  setwin 0xDEADBEEF 0xFF 0x0F = 0xDEAD87EF ∧ setwin 0x00000000 0x0F 0x0F = 0x00000780

/-- R131, R132: the whole of KINIT, taken without another agent's step in between, from any idle state. -/
def Obligations.KinitWholeOperation : Prop :=
  ∀ s : State, s.busy = false →
    ∃ t, seqRun 7 .kinit s = .next t ∧
      t.pdir = setwin s.pdir 0xFF 0x0F ∧ t.poen = setwin s.poen 0xFF 0x0F ∧ t.pout = setwin s.pout 0x0F 0x0F ∧
      KeypadIdle t ∧ t.kinitDone = true ∧ t.busy = false ∧ t.seq = .idle ∧ t.ucfgDone = s.ucfgDone ∧
      SameLatch s t ∧ SameKey s t ∧ SameUartConfig s t ∧ SameFifo s t ∧ SameBuffer s t ∧ SameSurroundings s t ∧
      t.draws = s.draws

/-- The frame of KINIT (R131): each register it writes changes only at the micro-step that writes it. -/
def Obligations.KinitFrame : Prop :=
  ∀ s t : State, exec .kinit s = .next t →
    SameLatch s t ∧ SameKey s t ∧ SameUartConfig s t ∧ SameFifo s t ∧ SameBuffer s t ∧ SameSurroundings s t ∧
    t.draws = s.draws ∧ t.ucfgDone = s.ucfgDone ∧ t.cmd = .kinit ∧
    (¬ (s.busy = true ∧ s.seq = .kiDirWr) → t.pdir = s.pdir) ∧
    (¬ (s.busy = true ∧ s.seq = .kiOenWr) → t.poen = s.poen) ∧
    (¬ (s.busy = true ∧ s.seq = .kiOutWr) → t.pout = s.pout ∧ t.kinitDone = s.kinitDone) ∧
    (¬ (s.busy = true ∧ (s.seq = .kiDirRd ∨ s.seq = .kiOenRd ∨ s.seq = .kiOutRd)) → t.tmp = s.tmp) ∧
    (s.busy = true → t.waitmode = s.waitmode)

/-- R132: after KINIT, whenever BUSY = 0, the window idles high: all four row pins driven high, no column pin driven. -/
def Obligations.RowsIdleHigh : Prop :=
  ∀ s t : State, BlockInv s → step s = .next t → t.kinitDone = true → t.busy = false →
    win t.pdir = 0x0F ∧ win t.poen = 0x0F ∧ win t.pout &&& 0x0F = 0x0F ∧
    (∀ r : Row, driven t r.bit = true ∧ t.pout.getLsbD r.bit = true) ∧ (∀ c : Col, driven t c.bit = false)

/-- R214: no operation changes a bit outside the window of a port register, nor any bit of PDIR or POEN once KINIT has
run. -/
def Obligations.ForeignBitsKept : Prop :=
  ∀ s t : State, BlockInv s → nextEvent s = .seq ∨ nextEvent s = .hostIssue → step s = .next t →
    t.pdir &&& ~~~wmask = s.pdir &&& ~~~wmask ∧ t.poen &&& ~~~wmask = s.poen &&& ~~~wmask ∧
    t.pout &&& ~~~wmask = s.pout &&& ~~~wmask ∧
    (s.kinitDone = true → t.pdir = s.pdir ∧ t.poen = s.poen)

/-! ### KSCAN and KWAIT (spec/40_keypad.md sections 2 and 4) -/

/-- The micro-steps a scanning command `i` shares (R134), all but KS_SAMPLE, which `SampleTestsOneBit` gives. -/
def ScanMicroSteps (i : Instr) : Prop :=
  ∀ s : State, s.busy = true → s.cmd = i →
    (s.seq = .ksBegin → exec i s = .next { s with hit := false, seq := .ksDrvRd .r4 }) ∧
    (∀ r, s.seq = .ksDrvRd r → exec i s = .next { s with tmp := s.pout, seq := .ksDrvWr r }) ∧
    (∀ r, s.seq = .ksDrvWr r → exec i s = .next { s with
      pout := setwin s.tmp 0x0F (0x0F#8 &&& ~~~(1#8 <<< (r.num - 1))), seq := .ksSample r .c4 }) ∧
    (∀ r, s.seq = .ksRstRd r → exec i s = .next { s with tmp := s.pout, seq := .ksRstWr r }) ∧
    (s.seq = .ksRstWr .r4 → exec i s = .next { s with pout := setwin s.tmp 0x0F 0x0F, seq := .ksDrvRd .r3 }) ∧
    (s.seq = .ksRstWr .r3 → exec i s = .next { s with pout := setwin s.tmp 0x0F 0x0F, seq := .ksDrvRd .r2 }) ∧
    (s.seq = .ksRstWr .r2 → exec i s = .next { s with pout := setwin s.tmp 0x0F 0x0F, seq := .ksDrvRd .r1 }) ∧
    (s.seq = .ksRstWr .r1 → exec i s = .next { s with pout := setwin s.tmp 0x0F 0x0F, seq := .ksEnd })

/-- The key code KS_END stores (R134): the decoded latch, or -1 when nothing was recorded (R137). -/
def endCode (s : State) : Word :=
  if s.hit then BitVec.ofInt 32 (decodeKey s.row.toInt s.col.toInt) else 0xFFFFFFFF

/-- R134: Issue, refusal before KINIT, and the micro-steps of KSCAN other than KS_SAMPLE. -/
def Obligations.KscanMicroSteps : Prop :=
  (∀ s : State, s.busy = false → s.kinitDone = true →
    exec .kscan s = .next { s with cmd := .kscan, busy := true, waitmode := false, seq := .ksBegin }) ∧
  (∀ s : State, s.busy = false → s.kinitDone = false → exec .kscan s = .refused .useBeforeInit) ∧
  ScanMicroSteps .kscan ∧
  (∀ s : State, s.busy = true → s.cmd = .kscan → s.seq = .ksEnd → s.waitmode = false →
    exec .kscan s = .next { s with key := endCode s, busy := false, seq := .idle }) ∧
  (rowNibble .r4 = 0x7 ∧ rowNibble .r3 = 0xB ∧ rowNibble .r2 = 0xD ∧ rowNibble .r1 = 0xE)

/-- R145: Issue, refusal before KINIT, and the micro-steps of KWAIT other than KS_SAMPLE: at KS_END a negative code starts
another pass, any other ends the operation. -/
def Obligations.KwaitMicroSteps : Prop :=
  (∀ s : State, s.busy = false → s.kinitDone = true →
    exec .kwait s = .next { s with cmd := .kwait, busy := true, waitmode := true, seq := .ksBegin }) ∧
  (∀ s : State, s.busy = false → s.kinitDone = false → exec .kwait s = .refused .useBeforeInit) ∧
  ScanMicroSteps .kwait ∧
  (∀ s : State, s.busy = true → s.cmd = .kwait → s.seq = .ksEnd → s.waitmode = true → (endCode s).toInt < 0 →
    exec .kwait s = .next { s with key := endCode s, seq := .ksBegin }) ∧
  (∀ s : State, s.busy = true → s.cmd = .kwait → s.seq = .ksEnd → s.waitmode = true → 0 ≤ (endCode s).toInt →
    exec .kwait s = .next { s with
      key := endCode s, waitmode := false, busy := false, seq := .idle })

/-- R135: KS_SAMPLE(r, p) reads PIN once and uses only bit `L + p - 1` of it; if that bit is 0 the position is recorded
over whatever an earlier sample recorded (R136). Every sample is taken with its row, and no other, driven low. -/
def Obligations.SampleTestsOneBit : Prop :=
  (∀ (i : Instr) (s : State) (r : Row) (c : Col), i = .kscan ∨ i = .kwait → s.busy = true → s.cmd = i →
    s.seq = .ksSample r c →
    ∃ v, memRead .pin s = .next (v, { s with draws := s.draws + 1 }) ∧
      exec i s = .next (
        if v.getLsbD (portLsb + (c.num + 4) - 1) = false then
          { s with draws := s.draws + 1, row := BitVec.ofNat 8 r.num, col := BitVec.ofNat 8 c.num, hit := true,
                   seq := afterSample r c }
        else { s with draws := s.draws + 1, seq := afterSample r c })) ∧
  (∀ r : Row, afterSample r .c4 = .ksSample r .c3 ∧ afterSample r .c3 = .ksSample r .c2 ∧
    afterSample r .c2 = .ksSample r .c1 ∧ afterSample r .c1 = .ksRstRd r) ∧
  (∀ (s : State) (r : Row) (c : Col), BlockInv s → s.seq = .ksSample r c →
    ∀ r' : Row, driven s r'.bit = true ∧ (s.pout.getLsbD r'.bit = false ↔ r' = r))

/-- R203: what a sample reads during a pass, for every set of closed contacts. -/
def Obligations.SampleSeesContacts : Prop :=
  ∀ (s : State) (r : Row) (c : Col), BlockInv s → s.seq = .ksSample r c →
    (contact s.closed r c = true → (∀ r', r' ≠ r → contact s.closed r' c = false) →
      (pinWord s).getLsbD c.bit = false) ∧
    (contact s.closed r c = false → (pinWord s).getLsbD c.bit = true) ∧
    (∀ r', contact s.closed r c = true → r' ≠ r → contact s.closed r' c = true →
      (pinWord s).getLsbD c.bit = (Config.freePin s.draws).getLsbD c.bit) ∧
    (OnePerColumn s.closed → ((pinWord s).getLsbD c.bit = false ↔ contact s.closed r c = true))

/-- R270: a position a sample finds low has its contact closed at that moment, whatever other contacts are closed; the
converse can fail only when another contact of the column is closed too. -/
def Obligations.RecordedContactClosed : Prop :=
  ∀ (s : State) (r : Row) (c : Col), BlockInv s → s.seq = .ksSample r c →
    ((pinWord s).getLsbD (portLsb + (c.num + 4) - 1) = false → contact s.closed r c = true) ∧
    (contact s.closed r c = true → (∀ r', r' ≠ r → contact s.closed r' c = false) →
      (pinWord s).getLsbD (portLsb + (c.num + 4) - 1) = false)

/-- R134, R136, R137, R203: a pass of KSCAN with the contacts held, no two of them in one column, takes 34 micro-steps,
reads PIN sixteen times, ends the operation with KEY the code of the closed position tested last (-1 if none is
closed), and leaves the port as it found it. -/
def Obligations.ScanPassReportsLastClosed : Prop :=
  ∀ s : State, s.busy = true → s.cmd = .kscan → s.seq = .ksBegin → s.waitmode = false → KeypadIdle s →
    OnePerColumn s.closed →
    ∃ t, seqRun 34 .kscan s = .next t ∧ t.key = passResult s.closed ∧ t.hit = (lastClosed s.closed).isSome ∧
      t.busy = false ∧ t.seq = .idle ∧ t.waitmode = false ∧ SamePort s t ∧
      t.draws = s.draws + 16 ∧ SameUartConfig s t ∧ SameFifo s t ∧ SameBuffer s t ∧ SameDone s t ∧
      SameSurroundings s t ∧
      (∀ p, lastClosed s.closed = some p → t.row = BitVec.ofNat 8 p.1.num ∧ t.col = BitVec.ofNat 8 p.2.num) ∧
      (lastClosed s.closed = none → t.row = s.row ∧ t.col = s.col)

/-- R145, R146: a pass of KWAIT under the same conditions ends the operation when a contact is closed, with that
contact's code, and goes back to KS_BEGIN when none is. -/
def Obligations.WaitPassEndsOnKey : Prop :=
  ∀ s : State, s.busy = true → s.cmd = .kwait → s.seq = .ksBegin → s.waitmode = true → KeypadIdle s →
    OnePerColumn s.closed →
    ∃ t, seqRun 34 .kwait s = .next t ∧ t.key = passResult s.closed ∧ SamePort s t ∧
      (lastClosed s.closed ≠ none → t.busy = false ∧ t.seq = .idle ∧ t.waitmode = false) ∧
      (lastClosed s.closed = none → t.busy = true ∧ t.seq = .ksBegin ∧ t.waitmode = true)

/-- R237 (1): a KWAIT with every contact open goes on for ever: every step of every agent completes and keeps it waiting,
but for KEYS, which may close a contact, and the reset event; and so does any number of micro-steps. -/
def Obligations.WaitHangsWithoutKey : Prop :=
  (∀ s : State, WaitingForKey s → s.busy = true ∧ ∃ t, step s = .next t) ∧
  (∀ s t : State, WaitingForKey s → step s = .next t → (∀ k, nextEvent s ≠ .keys k) → nextEvent s ≠ .powerOn →
    WaitingForKey t) ∧
  (∀ (n : Nat) (s : State), WaitingForKey s → ∃ t, seqRun n .kwait s = .next t ∧ WaitingForKey t)

/-- R138, R145, R146: what KS_END leaves in KEY, whatever the contacts did during the pass. KSCAN ends with -1 or 0 to
15, and with -1 exactly when nothing was recorded. KWAIT ends exactly when something was recorded, with 0 to 15, and else
goes back to KS_BEGIN with -1. -/
def Obligations.ScanResultRange : Prop :=
  (∀ s : State, BlockInv s → s.cmd = .kscan → s.seq = .ksEnd →
    ∃ t, exec .kscan s = .next t ∧ t.busy = false ∧ -1 ≤ t.key.toInt ∧ t.key.toInt ≤ 15 ∧
      (t.key.toInt = -1 ↔ s.hit = false)) ∧
  (∀ s : State, BlockInv s → s.cmd = .kwait → s.seq = .ksEnd → s.hit = true →
    ∃ t, exec .kwait s = .next t ∧ t.busy = false ∧ t.seq = .idle ∧ t.waitmode = false ∧ 0 ≤ t.key.toInt ∧
      t.key.toInt ≤ 15) ∧
  (∀ s : State, BlockInv s → s.cmd = .kwait → s.seq = .ksEnd → s.hit = false →
    ∃ t, exec .kwait s = .next t ∧ t.busy = true ∧ t.seq = .ksBegin ∧ t.waitmode = true ∧ t.key.toInt = -1)

/-- The frame of KSCAN and KWAIT (R134, R145): PDIR, POEN, the UART and the buffer never change, and each register
they write changes only at the micro-step that writes it. -/
def Obligations.ScanFrame : Prop :=
  ∀ (i : Instr) (s t : State), i = .kscan ∨ i = .kwait → exec i s = .next t →
    t.pdir = s.pdir ∧ t.poen = s.poen ∧ SameUartConfig s t ∧ SameFifo s t ∧ SameBuffer s t ∧ SameDone s t ∧
    SameSurroundings s t ∧ t.cmd = i ∧
    (¬ (s.busy = true ∧ ∃ r, s.seq = .ksDrvWr r ∨ s.seq = .ksRstWr r) → t.pout = s.pout) ∧
    (¬ (s.busy = true ∧ ∃ r, s.seq = .ksDrvRd r ∨ s.seq = .ksRstRd r) → t.tmp = s.tmp) ∧
    (¬ (s.busy = true ∧ ∃ r c, s.seq = .ksSample r c) → t.row = s.row ∧ t.col = s.col ∧ t.draws = s.draws) ∧
    (¬ (s.busy = true ∧ (s.seq = .ksBegin ∨ ∃ r c, s.seq = .ksSample r c)) → t.hit = s.hit) ∧
    (¬ (s.busy = true ∧ s.seq = .ksEnd) → SameKey s t) ∧
    (s.busy = true → s.seq ≠ .ksEnd → t.waitmode = s.waitmode)

/-! ### KDEC (spec/40_keypad.md section 3) -/

/-- R140: Issue and the one micro-step of KDEC, whatever KINIT_DONE is, and the rule's example. -/
def Obligations.KdecMicroSteps : Prop :=
  (∀ (row col : BitVec 8) (s : State), s.busy = false →
    exec (.kdec row col) s =
      .next { s with cmd := .kdec row col, busy := true, waitmode := false, seq := .kdExec }) ∧
  (∀ (row col : BitVec 8) (s : State), s.busy = true → s.cmd = .kdec row col → s.seq = .kdExec →
    exec (.kdec row col) s = .next { s with
      key := BitVec.ofInt 32 (decodeKey row.toInt col.toInt), busy := false, seq := .idle }) ∧
  decodeKey 3 3 = 9

/-- R139: the five branches in their order. -/
def Obligations.DecodeBranches : Prop :=
  ∀ row col : Int,
    (1 ≤ row ∧ row < 4 ∧ 1 ≤ col ∧ col < 4 → decodeKey row col = col + (row - 1) * 3) ∧
    (col = 4 → decodeKey row col = row + 9) ∧
    (row = 4 → col = 1 → decodeKey row col = 0) ∧
    (row = 4 → col < 4 → col ≠ 1 → decodeKey row col = 17 - col) ∧
    (¬ (1 ≤ row ∧ row < 4 ∧ 1 ≤ col ∧ col < 4) → col ≠ 4 → ¬ (row = 4 ∧ col < 4) → decodeKey row col = -1)

/-- R142: the codes of the sixteen positions, each of 0 to 15 exactly once. -/
def Obligations.MatrixCodes : Prop :=
  (allRows.map fun r => allCols.map fun c => decodeKey r.num c.num) =
    [[1, 2, 3, 10], [4, 5, 6, 11], [7, 8, 9, 12], [0, 15, 14, 13]] ∧
  (∀ n : Fin 16, ∃ r ∈ allRows, ∃ c ∈ allCols, decodeKey r.num c.num = n.val ∧
    ∀ r' ∈ allRows, ∀ c' ∈ allCols, decodeKey r'.num c'.num = n.val → r' = r ∧ c' = c)

/-- R141: for operands in -128 to 127 every result lies in -119 to 145 and is stored without wrapping; and the rule's
corner cases. -/
def Obligations.DecodeArithmetic : Prop :=
  (∀ row col : BitVec 8, -119 ≤ decodeKey row.toInt col.toInt ∧ decodeKey row.toInt col.toInt ≤ 145 ∧
    (keyOf row col).toInt = decodeKey row.toInt col.toInt) ∧
  (∀ row : Int, decodeKey row 4 = row + 9) ∧ (∀ col : Int, col ≤ 0 → decodeKey 4 col = 17 - col) ∧
  (∀ row col : Int, row < 1 ∨ 4 < row ∨ col < 1 ∨ 4 < col → col ≠ 4 → ¬ (row = 4 ∧ col ≤ 0) →
    decodeKey row col = -1) ∧
  decodeKey 5 4 = 14 ∧ decodeKey 0 4 = 9 ∧ decodeKey (-128) 4 = -119 ∧ decodeKey 127 4 = 136 ∧
  decodeKey 4 0 = 17 ∧ decodeKey 4 (-1) = 18 ∧ decodeKey 4 (-128) = 145 ∧ decodeKey 5 1 = -1 ∧
  decodeKey 0 0 = -1 ∧ decodeKey (-1) (-1) = -1 ∧ decodeKey 4 5 = -1 ∧ decodeKey 1 0 = -1

/-- The frame of KDEC (R140): nothing but KEY changes beside the sequencer. -/
def Obligations.KdecFrame : Prop :=
  ∀ (row col : BitVec 8) (s t : State), exec (.kdec row col) s = .next t →
    SamePort s t ∧ SameLatch s t ∧ t.tmp = s.tmp ∧ SameUartConfig s t ∧ SameFifo s t ∧ SameBuffer s t ∧
    SameDone s t ∧ SameSurroundings s t ∧ t.draws = s.draws ∧ t.cmd = .kdec row col ∧
    (s.busy = false → SameKey s t) ∧ (s.busy = true → t.waitmode = s.waitmode)

/-! ### UCFG (spec/41_uart_tx.md section 1) -/

/-- R161: Issue and every micro-step of UCFG. -/
def Obligations.UcfgMicroSteps : Prop :=
  ∀ (stop data : BitVec 2) (parity : BitVec 3) (cd : BitVec 16) (bdiv : BitVec 8) (s : State),
    (s.busy = false → exec (.ucfg stop data parity cd bdiv) s =
      .next { s with cmd := .ucfg stop data parity cd bdiv, busy := true, waitmode := false, seq := .ucReset }) ∧
    (s.busy = true → s.cmd = .ucfg stop data parity cd bdiv →
      (s.seq = .ucReset → exec (.ucfg stop data parity cd bdiv) s = .next { s with
        rxrst := true, txrst := true, rxen := false, txen := false, fifo := [], txfull := false, seq := .ucWait }) ∧
      (s.seq = .ucWait → s.rxrst = false → s.txrst = false →
        exec (.ucfg stop data parity cd bdiv) s = .next { s with seq := .ucEnable }) ∧
      (s.seq = .ucWait → s.rxrst = true ∨ s.txrst = true → exec (.ucfg stop data parity cd bdiv) s = .next s) ∧
      (s.seq = .ucEnable → exec (.ucfg stop data parity cd bdiv) s = .next { s with
        rxen := true, txen := true, seq := .ucMode }) ∧
      (s.seq = .ucMode → exec (.ucfg stop data parity cd bdiv) s = .next { s with
        chrl := data, par := parity, nbstop := stop, seq := .ucBg }) ∧
      (s.seq = .ucBg → exec (.ucfg stop data parity cd bdiv) s = .next { s with cd := cd, seq := .ucBd }) ∧
      (s.seq = .ucBd → exec (.ucfg stop data parity cd bdiv) s = .next { s with bdiv := bdiv, seq := .ucIen }) ∧
      (s.seq = .ucIen → exec (.ucfg stop data parity cd bdiv) s = .next { s with
        txemptyEn := true, txfullEn := true, ucfgDone := true, busy := false, seq := .idle }))

/-- R163: the whole of UCFG as steps of the machine, the device clearing both reset bits after UC_RESET: what the
registers read at its end, from any idle state, whatever the FIFO held. -/
def Obligations.UcfgWholeOperation : Prop :=
  ∀ (stop data : BitVec 2) (parity : BitVec 3) (cd : BitVec 16) (bdiv : BitVec 8) (s : State) (a : List Event)
    (rest : List Word), s.busy = false → s.cmds = encode (.ucfg stop data parity cd bdiv) ++ rest →
    s.agenda = [.hostIssue, .seq, .resetDone true true, .seq, .seq, .seq, .seq, .seq, .seq] ++ a →
    ∃ t, core.run 9 s = .next t ∧ ucrWord t = 0x00000014 ∧
      umrWord t = (stop.setWidth 32 <<< 6) ||| (parity.setWidth 32 <<< 3) ||| (data.setWidth 32 <<< 1) ∧
      ubgWord t = cd.setWidth 32 ∧ ubdWord t = bdiv.setWidth 32 ∧ uierWord t = 0x00000018 ∧ t.ucfgDone = true ∧
      uisrWord t = 0x00000008 ∧ t.fifo = [] ∧ t.txlog = s.txlog ∧ irq t = true ∧ t.busy = false ∧ t.seq = .idle ∧
      SamePort s t ∧ SameLatch s t ∧ SameKey s t ∧ t.kinitDone = s.kinitDone ∧ t.cmds = rest ∧ t.agenda = a

/-- R163: from UC_RESET on, whatever the other agents do, a UCFG keeps every setting it has made, lets no byte into the
FIFO and appends none to txlog; where it has ended, all its registers read what the rule says. It holds until the reset
event or the next command. -/
def Obligations.UcfgLeavesConfigured : Prop :=
  ∀ (stop data : BitVec 2) (parity : BitVec 3) (cd : BitVec 16) (bdiv : BitVec 8),
    (∀ s : State, s.busy = true → s.cmd = .ucfg stop data parity cd bdiv → s.seq = .ucReset →
      ∃ t, exec (.ucfg stop data parity cd bdiv) s = .next t ∧
        UcfgProgress stop data parity cd bdiv s.txlog t) ∧
    (∀ (log : List Byte) (s t : State), UcfgProgress stop data parity cd bdiv log s → step s = .next t →
      nextEvent s ≠ .powerOn → (s.busy = false → nextEvent s ≠ .hostIssue) →
      UcfgProgress stop data parity cd bdiv log t) ∧
    (∀ (log : List Byte) (s : State), UcfgProgress stop data parity cd bdiv log s → s.busy = false →
      ucrWord s = 0x00000014 ∧
      umrWord s = (stop.setWidth 32 <<< 6) ||| (parity.setWidth 32 <<< 3) ||| (data.setWidth 32 <<< 1) ∧
      ubgWord s = cd.setWidth 32 ∧ ubdWord s = bdiv.setWidth 32 ∧ uierWord s = 0x00000018 ∧ s.ucfgDone = true ∧
      (uisrWord s).getLsbD 4 = false ∧ s.fifo = [] ∧ (uisrWord s).getLsbD 3 = true ∧ s.txlog = log)

/-- R164: the baud pair reaches the two baud registers unchanged, whatever the other operands are. -/
def Obligations.BaudPairReachesRegisters : Prop :=
  ∀ (stop data : BitVec 2) (parity : BitVec 3) (cd : BitVec 16) (bdiv : BitVec 8) (s : State), s.busy = true →
    s.cmd = .ucfg stop data parity cd bdiv →
    (s.seq = .ucBg → ∃ t, exec (.ucfg stop data parity cd bdiv) s = .next t ∧ ubgWord t = cd.setWidth 32 ∧
      ubdWord t = ubdWord s) ∧
    (s.seq = .ucBd → ∃ t, exec (.ucfg stop data parity cd bdiv) s = .next t ∧ ubdWord t = bdiv.setWidth 32 ∧
      ubgWord t = ubgWord s)

/-- R165: UC_WAIT has no timeout: while a reset bit is pending it repeats for ever, and no step but the device's
ResetDone (or the reset event, R237) lets it leave. The clause for an empty agenda rests on the model's own default that
SEQ then moves (log entry 1). -/
def Obligations.UcfgWaitsForReset : Prop :=
  ∀ (stop data : BitVec 2) (parity : BitVec 3) (cd : BitVec 16) (bdiv : BitVec 8) (s : State), s.busy = true →
    s.cmd = .ucfg stop data parity cd bdiv → s.seq = .ucWait → s.rxrst = true ∨ s.txrst = true →
    (s.agenda = [] → ∀ n, core.run n s = .next s) ∧
    ((∀ rx tx, nextEvent s ≠ .resetDone rx tx) → nextEvent s ≠ .powerOn →
      ∃ t, step s = .next t ∧ t.busy = true ∧ t.cmd = s.cmd ∧ t.seq = .ucWait ∧ t.rxrst = s.rxrst ∧
        t.txrst = s.txrst)

/-- The frame of UCFG (R161, R206): each register it writes changes only at the micro-step that writes it, and the
bytes UC_RESET discards are not appended to txlog. -/
def Obligations.UcfgFrame : Prop :=
  ∀ (stop data : BitVec 2) (parity : BitVec 3) (cd : BitVec 16) (bdiv : BitVec 8) (s t : State),
    exec (.ucfg stop data parity cd bdiv) s = .next t →
    SamePort s t ∧ SameLatch s t ∧ SameKey s t ∧ t.tmp = s.tmp ∧ SameBuffer s t ∧ SameSurroundings s t ∧
    t.draws = s.draws ∧ t.kinitDone = s.kinitDone ∧ t.txlog = s.txlog ∧ t.cmd = .ucfg stop data parity cd bdiv ∧
    (¬ (s.busy = true ∧ s.seq = .ucReset) →
      t.fifo = s.fifo ∧ t.txfull = s.txfull ∧ t.rxrst = s.rxrst ∧ t.txrst = s.txrst) ∧
    (¬ (s.busy = true ∧ (s.seq = .ucReset ∨ s.seq = .ucEnable)) → t.rxen = s.rxen ∧ t.txen = s.txen) ∧
    (¬ (s.busy = true ∧ s.seq = .ucMode) → t.chrl = s.chrl ∧ t.par = s.par ∧ t.nbstop = s.nbstop) ∧
    (¬ (s.busy = true ∧ s.seq = .ucBg) → t.cd = s.cd) ∧
    (¬ (s.busy = true ∧ s.seq = .ucBd) → t.bdiv = s.bdiv) ∧
    (¬ (s.busy = true ∧ s.seq = .ucIen) →
      t.txemptyEn = s.txemptyEn ∧ t.txfullEn = s.txfullEn ∧ t.ucfgDone = s.ucfgDone) ∧
    (s.busy = true → t.waitmode = s.waitmode)

/-! ### UTX (spec/41_uart_tx.md section 2) -/

/-- R170: Issue, refusal before UCFG, and every micro-step of UTX. -/
def Obligations.UtxMicroSteps : Prop :=
  ∀ (msg : List Byte) (s : State),
    (s.busy = false → s.ucfgDone = true → exec (.utx msg) s =
      .next { s with cmd := .utx msg, busy := true, waitmode := false, seq := .utLoad }) ∧
    (s.busy = false → s.ucfgDone = false → exec (.utx msg) s = .refused .useBeforeInit) ∧
    (s.busy = true → s.cmd = .utx msg →
      (s.seq = .utLoad → ∃ buf, exec (.utx msg) s = .next { s with
        txbuf := buf, txlen := min msg.length (txbufCap - 1) + 1, txidx := 0, seq := .utCheck }) ∧
      (s.seq = .utCheck → s.txfull = true → exec (.utx msg) s = .next { s with seq := .utClear }) ∧
      (s.seq = .utCheck → s.txfull = false → exec (.utx msg) s = .next { s with seq := .utWrite }) ∧
      (s.seq = .utClear → exec (.utx msg) s = .next { s with txfull := false, seq := .utPoll }) ∧
      (s.seq = .utPoll → s.fifo = [] → exec (.utx msg) s = .next { s with seq := .utWrite }) ∧
      (s.seq = .utPoll → s.fifo ≠ [] → exec (.utx msg) s = .next s) ∧
      (∀ b, s.seq = .utWrite → s.txbuf[s.txidx]? = some b → s.txrst = false → s.fifo.length < s.fifoDepth →
        exec (.utx msg) s = .next { s with
          fifo := s.fifo ++ [b], txfull := s.txfull || s.fifo.length + 1 == s.fifoDepth, txidx := s.txidx + 1,
          busy := decide (s.txidx + 1 < s.txlen),
          seq := if s.txidx + 1 < s.txlen then .utCheck else .idle }))

/-- R171: UT_LOAD keeps the first `min(n, TXBUF_CAP - 1)` bytes of the text, puts the terminator 0x00 after them, and
stores no byte beyond it. -/
def Obligations.UtxLoadCutsAndTerminates : Prop :=
  ∀ (msg : List Byte) (s : State), s.busy = true → s.cmd = .utx msg → s.seq = .utLoad →
    ∃ t, exec (.utx msg) s = .next t ∧ t.txlen = min msg.length 63 + 1 ∧ t.txlen ≤ 64 ∧ t.txidx = 0 ∧
      (∀ j, j < min msg.length 63 → t.txbuf[j]? = msg[j]?) ∧
      t.txbuf[min msg.length 63]? = some 0x00 ∧
      (∀ j, min msg.length 63 < j → t.txbuf[j]? = s.txbuf[j]?)

/-- R170, R171, R177: the whole of UTX on the fast path, from Issue on, when the FIFO has room for the whole text and
TXFULL is clear: two micro-steps a byte, the bytes enter the FIFO in order, nothing else of the device changes. -/
def Obligations.UtxFastPath : Prop :=
  ∀ (msg : List Byte) (s : State), s.busy = false → s.ucfgDone = true → s.txrst = false → s.txfull = false →
    s.fifo.length + (sentBytes msg).length ≤ s.fifoDepth →
    ∃ t, seqRun (2 + 2 * (sentBytes msg).length) (.utx msg) s = .next t ∧ t.fifo = s.fifo ++ sentBytes msg ∧
      t.txfull = (s.fifo.length + (sentBytes msg).length == s.fifoDepth) ∧ t.txlog = s.txlog ∧
      t.txlen = (sentBytes msg).length ∧ t.txidx = t.txlen ∧ t.busy = false ∧ t.seq = .idle ∧
      SamePort s t ∧ SameLatch s t ∧ SameKey s t ∧ SameUartConfig s t ∧ SameDone s t ∧ SameSurroundings s t

/-- R175: UT_POLL has no timeout: while the FIFO holds a byte it repeats for ever, and no step but the device's Dequeue
(or the reset event, R237) lets it leave. The clause for an empty agenda rests on the model's own default that SEQ then
moves (log entry 1). -/
def Obligations.UtxWaitsForEmpty : Prop :=
  ∀ (msg : List Byte) (s : State), s.busy = true → s.cmd = .utx msg → s.seq = .utPoll → s.fifo ≠ [] →
    (s.agenda = [] → ∀ n, core.run n s = .next s) ∧
    (nextEvent s ≠ .dequeue → nextEvent s ≠ .powerOn →
      ∃ t, step s = .next t ∧ t.busy = true ∧ t.cmd = s.cmd ∧ t.seq = .utPoll ∧ t.fifo = s.fifo)

/-- R174: whenever SEQ comes to UT_WRITE, or stays there, TXFULL reads 0 and the FIFO is not full. -/
def Obligations.NoWriteWhileFull : Prop :=
  ∀ s t : State, BlockInv s → step s = .next t → t.seq = .utWrite →
    (uisrWord t).getLsbD 4 = false ∧ t.fifo.length < t.fifoDepth

/-- R178: from the Issue of a UTX on, every step keeps the account of its bytes: none is lost, repeated or reordered on
the way to txlog, whatever the other agents do, until the reset event or the next command. -/
def Obligations.UtxKeepsEveryByte : Prop :=
  (∀ (msg : List Byte) (s : State), s.busy = false → s.ucfgDone = true →
    ∃ t, exec (.utx msg) s = .next t ∧ UtxProgress (delivered s) msg t) ∧
  (∀ (base msg : List Byte) (s t : State), BlockInv s → UtxProgress base msg s → step s = .next t →
    nextEvent s ≠ .powerOn → (s.busy = false → nextEvent s ≠ .hostIssue) → UtxProgress base msg t)

/-- The frame of UTX (R170): the port, the latch, KEY and the configuration never change, and each register it writes
changes only at the micro-step that writes it. -/
def Obligations.UtxFrame : Prop :=
  ∀ (msg : List Byte) (s t : State), exec (.utx msg) s = .next t →
    SamePort s t ∧ SameLatch s t ∧ SameKey s t ∧ t.tmp = s.tmp ∧ SameUartConfig s t ∧ SameDone s t ∧
    SameSurroundings s t ∧ t.draws = s.draws ∧ t.txlog = s.txlog ∧ t.cmd = .utx msg ∧
    (¬ (s.busy = true ∧ s.seq = .utWrite) → t.fifo = s.fifo) ∧
    (¬ (s.busy = true ∧ (s.seq = .utClear ∨ s.seq = .utWrite)) → t.txfull = s.txfull) ∧
    (¬ (s.busy = true ∧ s.seq = .utLoad) → t.txbuf = s.txbuf ∧ t.txlen = s.txlen) ∧
    (¬ (s.busy = true ∧ (s.seq = .utLoad ∨ s.seq = .utWrite)) → t.txidx = s.txidx) ∧
    (s.busy = true → t.waitmode = s.waitmode)

/-- R211: under weak fairness of UARTDEV, and of SEQ (log entry 22), every UCFG and every UTX ends, whatever else the
agents do, short of the reset event. -/
def Obligations.UartOperationsEndUnderFairness : Prop :=
  ∀ (sched : Nat → Event) (st : Nat → State), ScheduledRun sched st → DeviceFair sched st → SequencerFair sched st →
    (∀ n, sched n ≠ .powerOn) → BlockInv (st 0) → uartBusy (st 0) = true → ∃ n, (st n).busy = false

/-! ### The registers and the device (spec/10_state.md, spec/20_memory.md, spec/45_agents.md) -/

/-- R205, R209: a write to UFIFO, in each of its cases. -/
def Obligations.FifoWriteEffect : Prop :=
  ∀ (v : Word) (s : State),
    (s.txrst = false → s.fifo.length < s.fifoDepth → memWrite .ufifo v s = .next { s with
      fifo := s.fifo ++ [v.extractLsb' 0 8],
      txfull := if s.fifo.length + 1 = s.fifoDepth then true else s.txfull }) ∧
    (s.txrst = false → s.fifoDepth ≤ s.fifo.length →
      memWrite .ufifo v s = .fault (.txOverrun (v.extractLsb' 0 8))) ∧
    (s.txrst = true → memWrite .ufifo v s = .refused .writeDuringReset)

/-- R206: a write to UCR. -/
def Obligations.UcrWriteEffect : Prop :=
  ∀ (v : Word) (s : State), ∃ t, memWrite .ucr v s = .next t ∧ t.rxen = v.getLsbD 2 ∧ t.txen = v.getLsbD 4 ∧
    (v.getLsbD 1 = true → t.fifo = [] ∧ t.txfull = false ∧ t.txrst = true) ∧
    (v.getLsbD 1 = false → t.fifo = s.fifo ∧ t.txfull = s.txfull ∧ t.txrst = s.txrst) ∧
    (v.getLsbD 0 = true → t.rxrst = true) ∧ (v.getLsbD 0 = false → t.rxrst = s.rxrst) ∧ t.txlog = s.txlog

/-- R207, R208: the steps of UARTDEV. -/
def Obligations.DeviceSteps : Prop :=
  (∀ (s : State) (rx tx : Bool), nextEvent s = .resetDone rx tx → step s = .next { s with
    rxrst := s.rxrst && !rx, txrst := s.txrst && !tx, agenda := s.agenda.tail }) ∧
  (∀ (s : State) (b : Byte) (rest : List Byte), nextEvent s = .dequeue → s.txen = true → s.txrst = false →
    s.fifo = b :: rest →
    step s = .next { s with fifo := rest, txlog := s.txlog ++ [b], agenda := s.agenda.tail })

/-- R210: nothing but a write to UFIFO, a write to UCR and Dequeue changes the FIFO; nothing but those two writes and a
write to UISR changes TXFULL; nothing but a write to UCR and ResetDone changes the pending reset bits. -/
def Obligations.DeviceStateOwnership : Prop :=
  ∀ s t : State, step s = .next t → nextEvent s ≠ .powerOn →
    (t.fifo = s.fifo ∨ nextEvent s = .dequeue ∨
      (nextEvent s = .seq ∧ s.busy = true ∧ (s.seq = .utWrite ∨ s.seq = .ucReset))) ∧
    (t.txfull = s.txfull ∨
      (nextEvent s = .seq ∧ s.busy = true ∧ (s.seq = .utWrite ∨ s.seq = .ucReset ∨ s.seq = .utClear))) ∧
    ((t.rxrst = s.rxrst ∧ t.txrst = s.txrst) ∨ (∃ rx tx, nextEvent s = .resetDone rx tx) ∨
      (nextEvent s = .seq ∧ s.busy = true ∧ s.seq = .ucReset))

/-- R24 to R27, R35 to R40, R71: what each register reads after a write of `v` to it, and that no read changes a
register (R76). -/
def Obligations.RegistersReadBack : Prop :=
  (∀ (v : Word) (s : State),
    (∀ r, r = .pdir ∨ r = .poen ∨ r = .pout → ∃ t, memWrite r v s = .next t ∧ memRead r t = .next (v, t)) ∧
    (∃ t, memWrite .umr v s = .next t ∧ memRead .umr t = .next (v &&& 0xFE, t)) ∧
    (∃ t, memWrite .uier v s = .next t ∧ memRead .uier t = .next (v &&& 0x18, t)) ∧
    (∃ t, memWrite .ubg v s = .next t ∧ memRead .ubg t = .next (v &&& 0xFFFF, t)) ∧
    (∃ t, memWrite .ubd v s = .next t ∧ memRead .ubd t = .next (v &&& 0xFF, t)) ∧
    (∃ t, memWrite .ucr v s = .next t ∧ memRead .ucr t = .next ((v &&& 0x17) ||| (ucrWord s &&& 0x03), t)) ∧
    (∃ t, memWrite .uisr v s = .next t ∧ memRead .uisr t = .next (uisrWord s &&& ~~~(v &&& 0x10), t)) ∧
    memWrite .pin v s = .next s) ∧
  (∀ (r : Reg) (s t : State) (v : Word), memRead r s = .next (v, t) → t = { s with draws := t.draws })

/-- R71, R76: a write to one register changes what no other register reads, but for UISR, which sees the FIFO fill or
be emptied, and PIN, which sees the pins. -/
def Obligations.RegisterWriteFrame : Prop :=
  ∀ (r r' : Reg) (v x : Word) (s t : State), memWrite r v s = .next t → r' ≠ r → r' ≠ .pin →
    ¬ (r' = .uisr ∧ (r = .ucr ∨ r = .ufifo)) → memRead r' s = .next (x, s) → memRead r' t = .next (x, t)

/-- R27, R202, R213: what each bit of a read of PIN shows. That a row pin nothing drives is a draw is the model's reading
(log entry 7). -/
def Obligations.PinReadLevels : Prop :=
  ∀ s : State,
    (∀ i, driven s i = true → (pinWord s).getLsbD i = s.pout.getLsbD i) ∧
    (∀ c : Col, driven s c.bit = false →
      ((∀ r, contact s.closed r c = true → driven s r.bit = true → s.pout.getLsbD r.bit = true) →
        (pinWord s).getLsbD c.bit = true) ∧
      (∀ r, contact s.closed r c = true → driven s r.bit = true → s.pout.getLsbD r.bit = false →
        (∀ r', contact s.closed r' c = true → driven s r'.bit = true → s.pout.getLsbD r'.bit = false) →
        (pinWord s).getLsbD c.bit = false) ∧
      (∀ r r', contact s.closed r c = true → driven s r.bit = true → s.pout.getLsbD r.bit = false →
        contact s.closed r' c = true → driven s r'.bit = true → s.pout.getLsbD r'.bit = true →
        (pinWord s).getLsbD c.bit = (Config.freePin s.draws).getLsbD c.bit)) ∧
    (∀ r : Row, driven s r.bit = false → (pinWord s).getLsbD r.bit = (Config.freePin s.draws).getLsbD r.bit) ∧
    (∀ i, i < 7 ∨ 15 ≤ i → (pinWord s).getLsbD i = (Config.freePin s.draws).getLsbD i)

/-- R234: the interrupt request line, in terms of what UISR and UIER read. -/
def Obligations.InterruptLine : Prop :=
  ∀ s : State, irq s = (((uisrWord s).getLsbD 4 && (uierWord s).getLsbD 4) ||
    ((uisrWord s).getLsbD 3 && (uierWord s).getLsbD 3))

/-- R21, R34, R71: every register stands at a multiple of 4, no two at one address, whatever the open bases are. -/
def Obligations.RegisterAddressesApart : Prop :=
  (∀ r : Reg, r.addr % 4 = 0) ∧ (∀ r r' : Reg, r.addr = r'.addr → r = r')

/-! ### The other agents and the whole machine -/

/-- R216: HOST's Read while BUSY = 0 returns KEY, whatever it holds, and changes nothing of the block. That it does so
before anything has written KEY is the model's choice (log entry 9). -/
def Obligations.HostReadsKey : Prop :=
  ∀ s : State, s.busy = false → nextEvent s = .hostRead →
    step s = .next { s with hostKey := some s.key, agenda := s.agenda.tail }

/-- R200, R212: KEYS replaces the set of closed contacts, OTHER the bits outside the window of one register while
BUSY = 0, and neither changes anything else. -/
def Obligations.EnvironmentSteps : Prop :=
  (∀ (s : State) (k : Contacts), nextEvent s = .keys k →
    step s = .next { s with closed := k, agenda := s.agenda.tail }) ∧
  (∀ (s : State) (r : SharedReg) (v : Word), s.busy = false → nextEvent s = .other r v →
    ∃ x : Word, win x = win (match r with | .pdir => s.pdir | .poen => s.poen | .pout => s.pout) ∧
      x &&& ~~~wmask = v &&& ~~~wmask ∧
      step s = .next (match r with
        | .pdir => { s with pdir := x, agenda := s.agenda.tail }
        | .poen => { s with poen := x, agenda := s.agenda.tail }
        | .pout => { s with pout := x, agenda := s.agenda.tail }))

/-- R46, R84: no step but the reset event clears KINIT_DONE or UCFG_DONE or changes the command of an operation that
goes on; and no step changes the depth of the FIFO (R8) or takes a byte out of txlog (R48). -/
def Obligations.LatchesHold : Prop :=
  ∀ s t : State, step s = .next t →
    t.fifoDepth = s.fifoDepth ∧
    (nextEvent s ≠ .powerOn →
      (s.kinitDone = true → t.kinitDone = true) ∧ (s.ucfgDone = true → t.ucfgDone = true) ∧
      (s.busy = true → t.cmd = s.cmd) ∧ s.txlog <+: t.txlog)

/-- The invariant holds in the state after reset. -/
def Obligations.ResetMeetsInvariant : Prop := BlockInv State.reset

/-- Every step of every agent keeps the invariant, from every state that meets it. -/
def Obligations.StepKeepsInvariant : Prop :=
  ∀ s t : State, BlockInv s → step s = .next t → BlockInv t

/-- R174, R209, R240: in a state that meets the invariant no step faults, and a step is refused only for an illegal
command or a use before initialisation. -/
def Obligations.NoFaultUnderInvariant : Prop :=
  ∀ s : State, BlockInv s → (∀ f, step s ≠ .fault f) ∧
    (∀ r, step s = .refused r → r = .useBeforeInit ∨ ∃ e, r = .illegalCommand e)
end

