-- ==== Sys2Proof/Laws/Decode.lean ====
section
/-! SUPPORT. How a first word selects a row of the opcode map (spec/30_encoding.md R105), for any word and for the words
the encoder writes. -/

namespace Sys2Proof

/-- A first word that selects a row carries that row's opcode in bits 31:24 (R100, R105). -/
theorem opcode_of_selects {r : OpcodeRow} (hr : r ∈ opcodeRows) {w : Word} (h : r.selects w = true) :
    w.extractLsb' 24 8 = r.pattern.extractLsb' 24 8 := by
  have hall : ∀ r ∈ opcodeRows, r.mask.extractLsb' 24 8 = 0xFF#8 := by decide
  have hm := hall r hr
  have hw : w &&& r.mask = r.pattern := by simpa [OpcodeRow.selects] using h
  rw [← hw, BitVec.extractLsb'_and, hm]
  exact (BitVec.and_allOnes (x := w.extractLsb' 24 8)).symm

/-- The rows have different opcodes (R105). -/
theorem opcode_rows_distinct {r r' : OpcodeRow} (hr : r ∈ opcodeRows) (hr' : r' ∈ opcodeRows)
    (h : r.pattern.extractLsb' 24 8 = r'.pattern.extractLsb' 24 8) : r = r' := by
  have hall : ∀ r ∈ opcodeRows, ∀ r' ∈ opcodeRows,
      r.pattern.extractLsb' 24 8 = r'.pattern.extractLsb' 24 8 → r = r' := by decide
  exact hall r hr r' hr' h

/-- The row a first word selects is the row `selectRow` finds (R105). -/
theorem selectRow_of_selects {r : OpcodeRow} (hr : r ∈ opcodeRows) {w : Word} (h : r.selects w = true) :
    selectRow w = some r.row := by
  unfold selectRow
  cases hf : opcodeRows.find? (·.selects w) with
  | none => exact absurd h (by simpa using List.find?_eq_none.1 hf r hr)
  | some r' =>
    have hm := List.mem_of_find?_eq_some hf
    have hs := List.find?_some hf
    rw [opcode_rows_distinct hm hr ((opcode_of_selects hm hs).symm.trans (opcode_of_selects hr h))]
    rfl

/-- A first word that `selectRow` gives a row selects it (R105). -/
theorem selects_of_selectRow {w : Word} {o : OpRow} (h : selectRow w = some o) :
    ∃ r ∈ opcodeRows, r.row = o ∧ r.selects w = true := by
  unfold selectRow at h
  obtain ⟨r, hf, ho⟩ := Option.map_eq_some_iff.1 h
  exact ⟨r, List.mem_of_find?_eq_some hf, ho, by simpa using List.find?_some hf⟩

/-- The first word of a KDEC selects the row of KDEC (R101, R105). -/
theorem selectRow_kdec (row col : BitVec 8) : selectRow (kdecWord row col) = some .kdec := by
  refine selectRow_of_selects (r := ⟨.kdec, 0x03000000, 0xFFFF0000⟩) (by decide) ?_
  have h : (0x03#8 ++ 0#8 ++ row ++ col : Word) &&& (0xFF#8 ++ 0xFF#8 ++ 0#8 ++ 0#8) = 0x03000000 := by
    rw [BitVec.and_append, BitVec.and_append, BitVec.and_append]
    simp
  simpa [OpcodeRow.selects, kdecWord] using h

/-- The first word of a UCFG selects the row of UCFG (R101, R105). -/
theorem selectRow_ucfg (stop data : BitVec 2) (parity : BitVec 3) :
    selectRow (ucfgWord0 stop data parity) = some .ucfg := by
  refine selectRow_of_selects (r := ⟨.ucfg, 0x10000000, 0xFFFFFF01⟩) (by decide) ?_
  have h : (0x10#8 ++ 0#16 ++ stop ++ parity ++ data ++ 0#1 : Word) &&&
      (0xFF#8 ++ 0xFFFF#16 ++ 0#2 ++ 0#3 ++ 0#2 ++ 1#1) = 0x10000000 := by
    rw [BitVec.and_append, BitVec.and_append, BitVec.and_append, BitVec.and_append, BitVec.and_append]
    simp
  simpa [OpcodeRow.selects, ucfgWord0] using h

/-- The first word of a UTX selects the row of UTX (R101, R105). -/
theorem selectRow_utx (n : BitVec 16) : selectRow (utxWord0 n) = some .utx := by
  refine selectRow_of_selects (r := ⟨.utx, 0x20000000, 0xFFFF0000⟩) (by decide) ?_
  have h : (0x20#8 ++ 0#8 ++ n : Word) &&& (0xFF#8 ++ 0xFF#8 ++ 0#16) = 0x20000000 := by
    rw [BitVec.and_append, BitVec.and_append]
    simp
  simpa [OpcodeRow.selects, utxWord0] using h

/-- The length field of the first word of a UTX (R104). -/
theorem utx_length_field (n : BitVec 16) : (utxWord0 n).extractLsb' 0 16 = n := by
  apply BitVec.eq_of_getLsbD_eq
  intro i hi
  have happ := BitVec.getLsbD_append (x := 0x20#8 ++ 0#8) (y := n) (i := i)
  rw [BitVec.getLsbD_extractLsb', Nat.zero_add, decide_eq_true hi, Bool.true_and]
  exact happ.trans (by simp [hi])

end Sys2Proof
end

