-- ==== Sys2Proof/Laws/State.lean ====
section
/-! SUPPORT. What each named update does to each field of the state: one lemma per field per update, true by rfl. -/

namespace Sys2Proof.Machine

variable (s : State)

@[simp] theorem setSeq_pdir (l : SeqLabel) : (setSeq l s).pdir = s.pdir := rfl
@[simp] theorem setSeq_poen (l : SeqLabel) : (setSeq l s).poen = s.poen := rfl
@[simp] theorem setSeq_pout (l : SeqLabel) : (setSeq l s).pout = s.pout := rfl
@[simp] theorem setSeq_row (l : SeqLabel) : (setSeq l s).row = s.row := rfl
@[simp] theorem setSeq_col (l : SeqLabel) : (setSeq l s).col = s.col := rfl
@[simp] theorem setSeq_hit (l : SeqLabel) : (setSeq l s).hit = s.hit := rfl
@[simp] theorem setSeq_key (l : SeqLabel) : (setSeq l s).key = s.key := rfl
@[simp] theorem setSeq_tmp (l : SeqLabel) : (setSeq l s).tmp = s.tmp := rfl
@[simp] theorem setSeq_rxrst (l : SeqLabel) : (setSeq l s).rxrst = s.rxrst := rfl
@[simp] theorem setSeq_txrst (l : SeqLabel) : (setSeq l s).txrst = s.txrst := rfl
@[simp] theorem setSeq_rxen (l : SeqLabel) : (setSeq l s).rxen = s.rxen := rfl
@[simp] theorem setSeq_txen (l : SeqLabel) : (setSeq l s).txen = s.txen := rfl
@[simp] theorem setSeq_chrl (l : SeqLabel) : (setSeq l s).chrl = s.chrl := rfl
@[simp] theorem setSeq_par (l : SeqLabel) : (setSeq l s).par = s.par := rfl
@[simp] theorem setSeq_nbstop (l : SeqLabel) : (setSeq l s).nbstop = s.nbstop := rfl
@[simp] theorem setSeq_txemptyEn (l : SeqLabel) : (setSeq l s).txemptyEn = s.txemptyEn := rfl
@[simp] theorem setSeq_txfullEn (l : SeqLabel) : (setSeq l s).txfullEn = s.txfullEn := rfl
@[simp] theorem setSeq_txfull (l : SeqLabel) : (setSeq l s).txfull = s.txfull := rfl
@[simp] theorem setSeq_cd (l : SeqLabel) : (setSeq l s).cd = s.cd := rfl
@[simp] theorem setSeq_bdiv (l : SeqLabel) : (setSeq l s).bdiv = s.bdiv := rfl
@[simp] theorem setSeq_fifo (l : SeqLabel) : (setSeq l s).fifo = s.fifo := rfl
@[simp] theorem setSeq_txbuf (l : SeqLabel) : (setSeq l s).txbuf = s.txbuf := rfl
@[simp] theorem setSeq_txlen (l : SeqLabel) : (setSeq l s).txlen = s.txlen := rfl
@[simp] theorem setSeq_txidx (l : SeqLabel) : (setSeq l s).txidx = s.txidx := rfl
@[simp] theorem setSeq_seq (l : SeqLabel) : (setSeq l s).seq = l := rfl
@[simp] theorem setSeq_cmd (l : SeqLabel) : (setSeq l s).cmd = s.cmd := rfl
@[simp] theorem setSeq_waitmode (l : SeqLabel) : (setSeq l s).waitmode = s.waitmode := rfl
@[simp] theorem setSeq_busy (l : SeqLabel) : (setSeq l s).busy = s.busy := rfl
@[simp] theorem setSeq_kinitDone (l : SeqLabel) : (setSeq l s).kinitDone = s.kinitDone := rfl
@[simp] theorem setSeq_ucfgDone (l : SeqLabel) : (setSeq l s).ucfgDone = s.ucfgDone := rfl
@[simp] theorem setSeq_closed (l : SeqLabel) : (setSeq l s).closed = s.closed := rfl
@[simp] theorem setSeq_txlog (l : SeqLabel) : (setSeq l s).txlog = s.txlog := rfl
@[simp] theorem setSeq_hostKey (l : SeqLabel) : (setSeq l s).hostKey = s.hostKey := rfl
@[simp] theorem setSeq_fifoExtra (l : SeqLabel) : (setSeq l s).fifoExtra = s.fifoExtra := rfl
@[simp] theorem setSeq_draws (l : SeqLabel) : (setSeq l s).draws = s.draws := rfl
@[simp] theorem setSeq_agenda (l : SeqLabel) : (setSeq l s).agenda = s.agenda := rfl
@[simp] theorem setSeq_cmds (l : SeqLabel) : (setSeq l s).cmds = s.cmds := rfl
@[simp] theorem setSeq_fifoDepth (l : SeqLabel) : (setSeq l s).fifoDepth = s.fifoDepth := rfl

@[simp] theorem finish_pdir : (finish s).pdir = s.pdir := rfl
@[simp] theorem finish_poen : (finish s).poen = s.poen := rfl
@[simp] theorem finish_pout : (finish s).pout = s.pout := rfl
@[simp] theorem finish_row : (finish s).row = s.row := rfl
@[simp] theorem finish_col : (finish s).col = s.col := rfl
@[simp] theorem finish_hit : (finish s).hit = s.hit := rfl
@[simp] theorem finish_key : (finish s).key = s.key := rfl
@[simp] theorem finish_tmp : (finish s).tmp = s.tmp := rfl
@[simp] theorem finish_rxrst : (finish s).rxrst = s.rxrst := rfl
@[simp] theorem finish_txrst : (finish s).txrst = s.txrst := rfl
@[simp] theorem finish_rxen : (finish s).rxen = s.rxen := rfl
@[simp] theorem finish_txen : (finish s).txen = s.txen := rfl
@[simp] theorem finish_chrl : (finish s).chrl = s.chrl := rfl
@[simp] theorem finish_par : (finish s).par = s.par := rfl
@[simp] theorem finish_nbstop : (finish s).nbstop = s.nbstop := rfl
@[simp] theorem finish_txemptyEn : (finish s).txemptyEn = s.txemptyEn := rfl
@[simp] theorem finish_txfullEn : (finish s).txfullEn = s.txfullEn := rfl
@[simp] theorem finish_txfull : (finish s).txfull = s.txfull := rfl
@[simp] theorem finish_cd : (finish s).cd = s.cd := rfl
@[simp] theorem finish_bdiv : (finish s).bdiv = s.bdiv := rfl
@[simp] theorem finish_fifo : (finish s).fifo = s.fifo := rfl
@[simp] theorem finish_txbuf : (finish s).txbuf = s.txbuf := rfl
@[simp] theorem finish_txlen : (finish s).txlen = s.txlen := rfl
@[simp] theorem finish_txidx : (finish s).txidx = s.txidx := rfl
@[simp] theorem finish_seq : (finish s).seq = SeqLabel.idle := rfl
@[simp] theorem finish_cmd : (finish s).cmd = s.cmd := rfl
@[simp] theorem finish_waitmode : (finish s).waitmode = s.waitmode := rfl
@[simp] theorem finish_busy : (finish s).busy = false := rfl
@[simp] theorem finish_kinitDone : (finish s).kinitDone = s.kinitDone := rfl
@[simp] theorem finish_ucfgDone : (finish s).ucfgDone = s.ucfgDone := rfl
@[simp] theorem finish_closed : (finish s).closed = s.closed := rfl
@[simp] theorem finish_txlog : (finish s).txlog = s.txlog := rfl
@[simp] theorem finish_hostKey : (finish s).hostKey = s.hostKey := rfl
@[simp] theorem finish_fifoExtra : (finish s).fifoExtra = s.fifoExtra := rfl
@[simp] theorem finish_draws : (finish s).draws = s.draws := rfl
@[simp] theorem finish_agenda : (finish s).agenda = s.agenda := rfl
@[simp] theorem finish_cmds : (finish s).cmds = s.cmds := rfl
@[simp] theorem finish_fifoDepth : (finish s).fifoDepth = s.fifoDepth := rfl

@[simp] theorem accept_pdir (i : Instr) (l : SeqLabel) (wait : Bool) : (accept i l wait s).pdir = s.pdir := rfl
@[simp] theorem accept_poen (i : Instr) (l : SeqLabel) (wait : Bool) : (accept i l wait s).poen = s.poen := rfl
@[simp] theorem accept_pout (i : Instr) (l : SeqLabel) (wait : Bool) : (accept i l wait s).pout = s.pout := rfl
@[simp] theorem accept_row (i : Instr) (l : SeqLabel) (wait : Bool) : (accept i l wait s).row = s.row := rfl
@[simp] theorem accept_col (i : Instr) (l : SeqLabel) (wait : Bool) : (accept i l wait s).col = s.col := rfl
@[simp] theorem accept_hit (i : Instr) (l : SeqLabel) (wait : Bool) : (accept i l wait s).hit = s.hit := rfl
@[simp] theorem accept_key (i : Instr) (l : SeqLabel) (wait : Bool) : (accept i l wait s).key = s.key := rfl
@[simp] theorem accept_tmp (i : Instr) (l : SeqLabel) (wait : Bool) : (accept i l wait s).tmp = s.tmp := rfl
@[simp] theorem accept_rxrst (i : Instr) (l : SeqLabel) (wait : Bool) : (accept i l wait s).rxrst = s.rxrst := rfl
@[simp] theorem accept_txrst (i : Instr) (l : SeqLabel) (wait : Bool) : (accept i l wait s).txrst = s.txrst := rfl
@[simp] theorem accept_rxen (i : Instr) (l : SeqLabel) (wait : Bool) : (accept i l wait s).rxen = s.rxen := rfl
@[simp] theorem accept_txen (i : Instr) (l : SeqLabel) (wait : Bool) : (accept i l wait s).txen = s.txen := rfl
@[simp] theorem accept_chrl (i : Instr) (l : SeqLabel) (wait : Bool) : (accept i l wait s).chrl = s.chrl := rfl
@[simp] theorem accept_par (i : Instr) (l : SeqLabel) (wait : Bool) : (accept i l wait s).par = s.par := rfl
@[simp] theorem accept_nbstop (i : Instr) (l : SeqLabel) (wait : Bool) : (accept i l wait s).nbstop = s.nbstop := rfl
@[simp] theorem accept_txemptyEn (i : Instr) (l : SeqLabel) (wait : Bool) : (accept i l wait s).txemptyEn = s.txemptyEn := rfl
@[simp] theorem accept_txfullEn (i : Instr) (l : SeqLabel) (wait : Bool) : (accept i l wait s).txfullEn = s.txfullEn := rfl
@[simp] theorem accept_txfull (i : Instr) (l : SeqLabel) (wait : Bool) : (accept i l wait s).txfull = s.txfull := rfl
@[simp] theorem accept_cd (i : Instr) (l : SeqLabel) (wait : Bool) : (accept i l wait s).cd = s.cd := rfl
@[simp] theorem accept_bdiv (i : Instr) (l : SeqLabel) (wait : Bool) : (accept i l wait s).bdiv = s.bdiv := rfl
@[simp] theorem accept_fifo (i : Instr) (l : SeqLabel) (wait : Bool) : (accept i l wait s).fifo = s.fifo := rfl
@[simp] theorem accept_txbuf (i : Instr) (l : SeqLabel) (wait : Bool) : (accept i l wait s).txbuf = s.txbuf := rfl
@[simp] theorem accept_txlen (i : Instr) (l : SeqLabel) (wait : Bool) : (accept i l wait s).txlen = s.txlen := rfl
@[simp] theorem accept_txidx (i : Instr) (l : SeqLabel) (wait : Bool) : (accept i l wait s).txidx = s.txidx := rfl
@[simp] theorem accept_seq (i : Instr) (l : SeqLabel) (wait : Bool) : (accept i l wait s).seq = l := rfl
@[simp] theorem accept_cmd (i : Instr) (l : SeqLabel) (wait : Bool) : (accept i l wait s).cmd = i := rfl
@[simp] theorem accept_waitmode (i : Instr) (l : SeqLabel) (wait : Bool) : (accept i l wait s).waitmode = wait := rfl
@[simp] theorem accept_busy (i : Instr) (l : SeqLabel) (wait : Bool) : (accept i l wait s).busy = true := rfl
@[simp] theorem accept_kinitDone (i : Instr) (l : SeqLabel) (wait : Bool) : (accept i l wait s).kinitDone = s.kinitDone := rfl
@[simp] theorem accept_ucfgDone (i : Instr) (l : SeqLabel) (wait : Bool) : (accept i l wait s).ucfgDone = s.ucfgDone := rfl
@[simp] theorem accept_closed (i : Instr) (l : SeqLabel) (wait : Bool) : (accept i l wait s).closed = s.closed := rfl
@[simp] theorem accept_txlog (i : Instr) (l : SeqLabel) (wait : Bool) : (accept i l wait s).txlog = s.txlog := rfl
@[simp] theorem accept_hostKey (i : Instr) (l : SeqLabel) (wait : Bool) : (accept i l wait s).hostKey = s.hostKey := rfl
@[simp] theorem accept_fifoExtra (i : Instr) (l : SeqLabel) (wait : Bool) : (accept i l wait s).fifoExtra = s.fifoExtra := rfl
@[simp] theorem accept_draws (i : Instr) (l : SeqLabel) (wait : Bool) : (accept i l wait s).draws = s.draws := rfl
@[simp] theorem accept_agenda (i : Instr) (l : SeqLabel) (wait : Bool) : (accept i l wait s).agenda = s.agenda := rfl
@[simp] theorem accept_cmds (i : Instr) (l : SeqLabel) (wait : Bool) : (accept i l wait s).cmds = s.cmds := rfl
@[simp] theorem accept_fifoDepth (i : Instr) (l : SeqLabel) (wait : Bool) : (accept i l wait s).fifoDepth = s.fifoDepth := rfl

@[simp] theorem setTmp_pdir (v : Word) : (setTmp v s).pdir = s.pdir := rfl
@[simp] theorem setTmp_poen (v : Word) : (setTmp v s).poen = s.poen := rfl
@[simp] theorem setTmp_pout (v : Word) : (setTmp v s).pout = s.pout := rfl
@[simp] theorem setTmp_row (v : Word) : (setTmp v s).row = s.row := rfl
@[simp] theorem setTmp_col (v : Word) : (setTmp v s).col = s.col := rfl
@[simp] theorem setTmp_hit (v : Word) : (setTmp v s).hit = s.hit := rfl
@[simp] theorem setTmp_key (v : Word) : (setTmp v s).key = s.key := rfl
@[simp] theorem setTmp_tmp (v : Word) : (setTmp v s).tmp = v := rfl
@[simp] theorem setTmp_rxrst (v : Word) : (setTmp v s).rxrst = s.rxrst := rfl
@[simp] theorem setTmp_txrst (v : Word) : (setTmp v s).txrst = s.txrst := rfl
@[simp] theorem setTmp_rxen (v : Word) : (setTmp v s).rxen = s.rxen := rfl
@[simp] theorem setTmp_txen (v : Word) : (setTmp v s).txen = s.txen := rfl
@[simp] theorem setTmp_chrl (v : Word) : (setTmp v s).chrl = s.chrl := rfl
@[simp] theorem setTmp_par (v : Word) : (setTmp v s).par = s.par := rfl
@[simp] theorem setTmp_nbstop (v : Word) : (setTmp v s).nbstop = s.nbstop := rfl
@[simp] theorem setTmp_txemptyEn (v : Word) : (setTmp v s).txemptyEn = s.txemptyEn := rfl
@[simp] theorem setTmp_txfullEn (v : Word) : (setTmp v s).txfullEn = s.txfullEn := rfl
@[simp] theorem setTmp_txfull (v : Word) : (setTmp v s).txfull = s.txfull := rfl
@[simp] theorem setTmp_cd (v : Word) : (setTmp v s).cd = s.cd := rfl
@[simp] theorem setTmp_bdiv (v : Word) : (setTmp v s).bdiv = s.bdiv := rfl
@[simp] theorem setTmp_fifo (v : Word) : (setTmp v s).fifo = s.fifo := rfl
@[simp] theorem setTmp_txbuf (v : Word) : (setTmp v s).txbuf = s.txbuf := rfl
@[simp] theorem setTmp_txlen (v : Word) : (setTmp v s).txlen = s.txlen := rfl
@[simp] theorem setTmp_txidx (v : Word) : (setTmp v s).txidx = s.txidx := rfl
@[simp] theorem setTmp_seq (v : Word) : (setTmp v s).seq = s.seq := rfl
@[simp] theorem setTmp_cmd (v : Word) : (setTmp v s).cmd = s.cmd := rfl
@[simp] theorem setTmp_waitmode (v : Word) : (setTmp v s).waitmode = s.waitmode := rfl
@[simp] theorem setTmp_busy (v : Word) : (setTmp v s).busy = s.busy := rfl
@[simp] theorem setTmp_kinitDone (v : Word) : (setTmp v s).kinitDone = s.kinitDone := rfl
@[simp] theorem setTmp_ucfgDone (v : Word) : (setTmp v s).ucfgDone = s.ucfgDone := rfl
@[simp] theorem setTmp_closed (v : Word) : (setTmp v s).closed = s.closed := rfl
@[simp] theorem setTmp_txlog (v : Word) : (setTmp v s).txlog = s.txlog := rfl
@[simp] theorem setTmp_hostKey (v : Word) : (setTmp v s).hostKey = s.hostKey := rfl
@[simp] theorem setTmp_fifoExtra (v : Word) : (setTmp v s).fifoExtra = s.fifoExtra := rfl
@[simp] theorem setTmp_draws (v : Word) : (setTmp v s).draws = s.draws := rfl
@[simp] theorem setTmp_agenda (v : Word) : (setTmp v s).agenda = s.agenda := rfl
@[simp] theorem setTmp_cmds (v : Word) : (setTmp v s).cmds = s.cmds := rfl
@[simp] theorem setTmp_fifoDepth (v : Word) : (setTmp v s).fifoDepth = s.fifoDepth := rfl

@[simp] theorem setPdir_pdir (v : Word) : (setPdir v s).pdir = v := rfl
@[simp] theorem setPdir_poen (v : Word) : (setPdir v s).poen = s.poen := rfl
@[simp] theorem setPdir_pout (v : Word) : (setPdir v s).pout = s.pout := rfl
@[simp] theorem setPdir_row (v : Word) : (setPdir v s).row = s.row := rfl
@[simp] theorem setPdir_col (v : Word) : (setPdir v s).col = s.col := rfl
@[simp] theorem setPdir_hit (v : Word) : (setPdir v s).hit = s.hit := rfl
@[simp] theorem setPdir_key (v : Word) : (setPdir v s).key = s.key := rfl
@[simp] theorem setPdir_tmp (v : Word) : (setPdir v s).tmp = s.tmp := rfl
@[simp] theorem setPdir_rxrst (v : Word) : (setPdir v s).rxrst = s.rxrst := rfl
@[simp] theorem setPdir_txrst (v : Word) : (setPdir v s).txrst = s.txrst := rfl
@[simp] theorem setPdir_rxen (v : Word) : (setPdir v s).rxen = s.rxen := rfl
@[simp] theorem setPdir_txen (v : Word) : (setPdir v s).txen = s.txen := rfl
@[simp] theorem setPdir_chrl (v : Word) : (setPdir v s).chrl = s.chrl := rfl
@[simp] theorem setPdir_par (v : Word) : (setPdir v s).par = s.par := rfl
@[simp] theorem setPdir_nbstop (v : Word) : (setPdir v s).nbstop = s.nbstop := rfl
@[simp] theorem setPdir_txemptyEn (v : Word) : (setPdir v s).txemptyEn = s.txemptyEn := rfl
@[simp] theorem setPdir_txfullEn (v : Word) : (setPdir v s).txfullEn = s.txfullEn := rfl
@[simp] theorem setPdir_txfull (v : Word) : (setPdir v s).txfull = s.txfull := rfl
@[simp] theorem setPdir_cd (v : Word) : (setPdir v s).cd = s.cd := rfl
@[simp] theorem setPdir_bdiv (v : Word) : (setPdir v s).bdiv = s.bdiv := rfl
@[simp] theorem setPdir_fifo (v : Word) : (setPdir v s).fifo = s.fifo := rfl
@[simp] theorem setPdir_txbuf (v : Word) : (setPdir v s).txbuf = s.txbuf := rfl
@[simp] theorem setPdir_txlen (v : Word) : (setPdir v s).txlen = s.txlen := rfl
@[simp] theorem setPdir_txidx (v : Word) : (setPdir v s).txidx = s.txidx := rfl
@[simp] theorem setPdir_seq (v : Word) : (setPdir v s).seq = s.seq := rfl
@[simp] theorem setPdir_cmd (v : Word) : (setPdir v s).cmd = s.cmd := rfl
@[simp] theorem setPdir_waitmode (v : Word) : (setPdir v s).waitmode = s.waitmode := rfl
@[simp] theorem setPdir_busy (v : Word) : (setPdir v s).busy = s.busy := rfl
@[simp] theorem setPdir_kinitDone (v : Word) : (setPdir v s).kinitDone = s.kinitDone := rfl
@[simp] theorem setPdir_ucfgDone (v : Word) : (setPdir v s).ucfgDone = s.ucfgDone := rfl
@[simp] theorem setPdir_closed (v : Word) : (setPdir v s).closed = s.closed := rfl
@[simp] theorem setPdir_txlog (v : Word) : (setPdir v s).txlog = s.txlog := rfl
@[simp] theorem setPdir_hostKey (v : Word) : (setPdir v s).hostKey = s.hostKey := rfl
@[simp] theorem setPdir_fifoExtra (v : Word) : (setPdir v s).fifoExtra = s.fifoExtra := rfl
@[simp] theorem setPdir_draws (v : Word) : (setPdir v s).draws = s.draws := rfl
@[simp] theorem setPdir_agenda (v : Word) : (setPdir v s).agenda = s.agenda := rfl
@[simp] theorem setPdir_cmds (v : Word) : (setPdir v s).cmds = s.cmds := rfl
@[simp] theorem setPdir_fifoDepth (v : Word) : (setPdir v s).fifoDepth = s.fifoDepth := rfl

@[simp] theorem setPoen_pdir (v : Word) : (setPoen v s).pdir = s.pdir := rfl
@[simp] theorem setPoen_poen (v : Word) : (setPoen v s).poen = v := rfl
@[simp] theorem setPoen_pout (v : Word) : (setPoen v s).pout = s.pout := rfl
@[simp] theorem setPoen_row (v : Word) : (setPoen v s).row = s.row := rfl
@[simp] theorem setPoen_col (v : Word) : (setPoen v s).col = s.col := rfl
@[simp] theorem setPoen_hit (v : Word) : (setPoen v s).hit = s.hit := rfl
@[simp] theorem setPoen_key (v : Word) : (setPoen v s).key = s.key := rfl
@[simp] theorem setPoen_tmp (v : Word) : (setPoen v s).tmp = s.tmp := rfl
@[simp] theorem setPoen_rxrst (v : Word) : (setPoen v s).rxrst = s.rxrst := rfl
@[simp] theorem setPoen_txrst (v : Word) : (setPoen v s).txrst = s.txrst := rfl
@[simp] theorem setPoen_rxen (v : Word) : (setPoen v s).rxen = s.rxen := rfl
@[simp] theorem setPoen_txen (v : Word) : (setPoen v s).txen = s.txen := rfl
@[simp] theorem setPoen_chrl (v : Word) : (setPoen v s).chrl = s.chrl := rfl
@[simp] theorem setPoen_par (v : Word) : (setPoen v s).par = s.par := rfl
@[simp] theorem setPoen_nbstop (v : Word) : (setPoen v s).nbstop = s.nbstop := rfl
@[simp] theorem setPoen_txemptyEn (v : Word) : (setPoen v s).txemptyEn = s.txemptyEn := rfl
@[simp] theorem setPoen_txfullEn (v : Word) : (setPoen v s).txfullEn = s.txfullEn := rfl
@[simp] theorem setPoen_txfull (v : Word) : (setPoen v s).txfull = s.txfull := rfl
@[simp] theorem setPoen_cd (v : Word) : (setPoen v s).cd = s.cd := rfl
@[simp] theorem setPoen_bdiv (v : Word) : (setPoen v s).bdiv = s.bdiv := rfl
@[simp] theorem setPoen_fifo (v : Word) : (setPoen v s).fifo = s.fifo := rfl
@[simp] theorem setPoen_txbuf (v : Word) : (setPoen v s).txbuf = s.txbuf := rfl
@[simp] theorem setPoen_txlen (v : Word) : (setPoen v s).txlen = s.txlen := rfl
@[simp] theorem setPoen_txidx (v : Word) : (setPoen v s).txidx = s.txidx := rfl
@[simp] theorem setPoen_seq (v : Word) : (setPoen v s).seq = s.seq := rfl
@[simp] theorem setPoen_cmd (v : Word) : (setPoen v s).cmd = s.cmd := rfl
@[simp] theorem setPoen_waitmode (v : Word) : (setPoen v s).waitmode = s.waitmode := rfl
@[simp] theorem setPoen_busy (v : Word) : (setPoen v s).busy = s.busy := rfl
@[simp] theorem setPoen_kinitDone (v : Word) : (setPoen v s).kinitDone = s.kinitDone := rfl
@[simp] theorem setPoen_ucfgDone (v : Word) : (setPoen v s).ucfgDone = s.ucfgDone := rfl
@[simp] theorem setPoen_closed (v : Word) : (setPoen v s).closed = s.closed := rfl
@[simp] theorem setPoen_txlog (v : Word) : (setPoen v s).txlog = s.txlog := rfl
@[simp] theorem setPoen_hostKey (v : Word) : (setPoen v s).hostKey = s.hostKey := rfl
@[simp] theorem setPoen_fifoExtra (v : Word) : (setPoen v s).fifoExtra = s.fifoExtra := rfl
@[simp] theorem setPoen_draws (v : Word) : (setPoen v s).draws = s.draws := rfl
@[simp] theorem setPoen_agenda (v : Word) : (setPoen v s).agenda = s.agenda := rfl
@[simp] theorem setPoen_cmds (v : Word) : (setPoen v s).cmds = s.cmds := rfl
@[simp] theorem setPoen_fifoDepth (v : Word) : (setPoen v s).fifoDepth = s.fifoDepth := rfl

@[simp] theorem setPout_pdir (v : Word) : (setPout v s).pdir = s.pdir := rfl
@[simp] theorem setPout_poen (v : Word) : (setPout v s).poen = s.poen := rfl
@[simp] theorem setPout_pout (v : Word) : (setPout v s).pout = v := rfl
@[simp] theorem setPout_row (v : Word) : (setPout v s).row = s.row := rfl
@[simp] theorem setPout_col (v : Word) : (setPout v s).col = s.col := rfl
@[simp] theorem setPout_hit (v : Word) : (setPout v s).hit = s.hit := rfl
@[simp] theorem setPout_key (v : Word) : (setPout v s).key = s.key := rfl
@[simp] theorem setPout_tmp (v : Word) : (setPout v s).tmp = s.tmp := rfl
@[simp] theorem setPout_rxrst (v : Word) : (setPout v s).rxrst = s.rxrst := rfl
@[simp] theorem setPout_txrst (v : Word) : (setPout v s).txrst = s.txrst := rfl
@[simp] theorem setPout_rxen (v : Word) : (setPout v s).rxen = s.rxen := rfl
@[simp] theorem setPout_txen (v : Word) : (setPout v s).txen = s.txen := rfl
@[simp] theorem setPout_chrl (v : Word) : (setPout v s).chrl = s.chrl := rfl
@[simp] theorem setPout_par (v : Word) : (setPout v s).par = s.par := rfl
@[simp] theorem setPout_nbstop (v : Word) : (setPout v s).nbstop = s.nbstop := rfl
@[simp] theorem setPout_txemptyEn (v : Word) : (setPout v s).txemptyEn = s.txemptyEn := rfl
@[simp] theorem setPout_txfullEn (v : Word) : (setPout v s).txfullEn = s.txfullEn := rfl
@[simp] theorem setPout_txfull (v : Word) : (setPout v s).txfull = s.txfull := rfl
@[simp] theorem setPout_cd (v : Word) : (setPout v s).cd = s.cd := rfl
@[simp] theorem setPout_bdiv (v : Word) : (setPout v s).bdiv = s.bdiv := rfl
@[simp] theorem setPout_fifo (v : Word) : (setPout v s).fifo = s.fifo := rfl
@[simp] theorem setPout_txbuf (v : Word) : (setPout v s).txbuf = s.txbuf := rfl
@[simp] theorem setPout_txlen (v : Word) : (setPout v s).txlen = s.txlen := rfl
@[simp] theorem setPout_txidx (v : Word) : (setPout v s).txidx = s.txidx := rfl
@[simp] theorem setPout_seq (v : Word) : (setPout v s).seq = s.seq := rfl
@[simp] theorem setPout_cmd (v : Word) : (setPout v s).cmd = s.cmd := rfl
@[simp] theorem setPout_waitmode (v : Word) : (setPout v s).waitmode = s.waitmode := rfl
@[simp] theorem setPout_busy (v : Word) : (setPout v s).busy = s.busy := rfl
@[simp] theorem setPout_kinitDone (v : Word) : (setPout v s).kinitDone = s.kinitDone := rfl
@[simp] theorem setPout_ucfgDone (v : Word) : (setPout v s).ucfgDone = s.ucfgDone := rfl
@[simp] theorem setPout_closed (v : Word) : (setPout v s).closed = s.closed := rfl
@[simp] theorem setPout_txlog (v : Word) : (setPout v s).txlog = s.txlog := rfl
@[simp] theorem setPout_hostKey (v : Word) : (setPout v s).hostKey = s.hostKey := rfl
@[simp] theorem setPout_fifoExtra (v : Word) : (setPout v s).fifoExtra = s.fifoExtra := rfl
@[simp] theorem setPout_draws (v : Word) : (setPout v s).draws = s.draws := rfl
@[simp] theorem setPout_agenda (v : Word) : (setPout v s).agenda = s.agenda := rfl
@[simp] theorem setPout_cmds (v : Word) : (setPout v s).cmds = s.cmds := rfl
@[simp] theorem setPout_fifoDepth (v : Word) : (setPout v s).fifoDepth = s.fifoDepth := rfl

@[simp] theorem countRead_pdir : (countRead s).pdir = s.pdir := rfl
@[simp] theorem countRead_poen : (countRead s).poen = s.poen := rfl
@[simp] theorem countRead_pout : (countRead s).pout = s.pout := rfl
@[simp] theorem countRead_row : (countRead s).row = s.row := rfl
@[simp] theorem countRead_col : (countRead s).col = s.col := rfl
@[simp] theorem countRead_hit : (countRead s).hit = s.hit := rfl
@[simp] theorem countRead_key : (countRead s).key = s.key := rfl
@[simp] theorem countRead_tmp : (countRead s).tmp = s.tmp := rfl
@[simp] theorem countRead_rxrst : (countRead s).rxrst = s.rxrst := rfl
@[simp] theorem countRead_txrst : (countRead s).txrst = s.txrst := rfl
@[simp] theorem countRead_rxen : (countRead s).rxen = s.rxen := rfl
@[simp] theorem countRead_txen : (countRead s).txen = s.txen := rfl
@[simp] theorem countRead_chrl : (countRead s).chrl = s.chrl := rfl
@[simp] theorem countRead_par : (countRead s).par = s.par := rfl
@[simp] theorem countRead_nbstop : (countRead s).nbstop = s.nbstop := rfl
@[simp] theorem countRead_txemptyEn : (countRead s).txemptyEn = s.txemptyEn := rfl
@[simp] theorem countRead_txfullEn : (countRead s).txfullEn = s.txfullEn := rfl
@[simp] theorem countRead_txfull : (countRead s).txfull = s.txfull := rfl
@[simp] theorem countRead_cd : (countRead s).cd = s.cd := rfl
@[simp] theorem countRead_bdiv : (countRead s).bdiv = s.bdiv := rfl
@[simp] theorem countRead_fifo : (countRead s).fifo = s.fifo := rfl
@[simp] theorem countRead_txbuf : (countRead s).txbuf = s.txbuf := rfl
@[simp] theorem countRead_txlen : (countRead s).txlen = s.txlen := rfl
@[simp] theorem countRead_txidx : (countRead s).txidx = s.txidx := rfl
@[simp] theorem countRead_seq : (countRead s).seq = s.seq := rfl
@[simp] theorem countRead_cmd : (countRead s).cmd = s.cmd := rfl
@[simp] theorem countRead_waitmode : (countRead s).waitmode = s.waitmode := rfl
@[simp] theorem countRead_busy : (countRead s).busy = s.busy := rfl
@[simp] theorem countRead_kinitDone : (countRead s).kinitDone = s.kinitDone := rfl
@[simp] theorem countRead_ucfgDone : (countRead s).ucfgDone = s.ucfgDone := rfl
@[simp] theorem countRead_closed : (countRead s).closed = s.closed := rfl
@[simp] theorem countRead_txlog : (countRead s).txlog = s.txlog := rfl
@[simp] theorem countRead_hostKey : (countRead s).hostKey = s.hostKey := rfl
@[simp] theorem countRead_fifoExtra : (countRead s).fifoExtra = s.fifoExtra := rfl
@[simp] theorem countRead_draws : (countRead s).draws = s.draws + 1 := rfl
@[simp] theorem countRead_agenda : (countRead s).agenda = s.agenda := rfl
@[simp] theorem countRead_cmds : (countRead s).cmds = s.cmds := rfl
@[simp] theorem countRead_fifoDepth : (countRead s).fifoDepth = s.fifoDepth := rfl

@[simp] theorem clearHit_pdir : (clearHit s).pdir = s.pdir := rfl
@[simp] theorem clearHit_poen : (clearHit s).poen = s.poen := rfl
@[simp] theorem clearHit_pout : (clearHit s).pout = s.pout := rfl
@[simp] theorem clearHit_row : (clearHit s).row = s.row := rfl
@[simp] theorem clearHit_col : (clearHit s).col = s.col := rfl
@[simp] theorem clearHit_hit : (clearHit s).hit = false := rfl
@[simp] theorem clearHit_key : (clearHit s).key = s.key := rfl
@[simp] theorem clearHit_tmp : (clearHit s).tmp = s.tmp := rfl
@[simp] theorem clearHit_rxrst : (clearHit s).rxrst = s.rxrst := rfl
@[simp] theorem clearHit_txrst : (clearHit s).txrst = s.txrst := rfl
@[simp] theorem clearHit_rxen : (clearHit s).rxen = s.rxen := rfl
@[simp] theorem clearHit_txen : (clearHit s).txen = s.txen := rfl
@[simp] theorem clearHit_chrl : (clearHit s).chrl = s.chrl := rfl
@[simp] theorem clearHit_par : (clearHit s).par = s.par := rfl
@[simp] theorem clearHit_nbstop : (clearHit s).nbstop = s.nbstop := rfl
@[simp] theorem clearHit_txemptyEn : (clearHit s).txemptyEn = s.txemptyEn := rfl
@[simp] theorem clearHit_txfullEn : (clearHit s).txfullEn = s.txfullEn := rfl
@[simp] theorem clearHit_txfull : (clearHit s).txfull = s.txfull := rfl
@[simp] theorem clearHit_cd : (clearHit s).cd = s.cd := rfl
@[simp] theorem clearHit_bdiv : (clearHit s).bdiv = s.bdiv := rfl
@[simp] theorem clearHit_fifo : (clearHit s).fifo = s.fifo := rfl
@[simp] theorem clearHit_txbuf : (clearHit s).txbuf = s.txbuf := rfl
@[simp] theorem clearHit_txlen : (clearHit s).txlen = s.txlen := rfl
@[simp] theorem clearHit_txidx : (clearHit s).txidx = s.txidx := rfl
@[simp] theorem clearHit_seq : (clearHit s).seq = s.seq := rfl
@[simp] theorem clearHit_cmd : (clearHit s).cmd = s.cmd := rfl
@[simp] theorem clearHit_waitmode : (clearHit s).waitmode = s.waitmode := rfl
@[simp] theorem clearHit_busy : (clearHit s).busy = s.busy := rfl
@[simp] theorem clearHit_kinitDone : (clearHit s).kinitDone = s.kinitDone := rfl
@[simp] theorem clearHit_ucfgDone : (clearHit s).ucfgDone = s.ucfgDone := rfl
@[simp] theorem clearHit_closed : (clearHit s).closed = s.closed := rfl
@[simp] theorem clearHit_txlog : (clearHit s).txlog = s.txlog := rfl
@[simp] theorem clearHit_hostKey : (clearHit s).hostKey = s.hostKey := rfl
@[simp] theorem clearHit_fifoExtra : (clearHit s).fifoExtra = s.fifoExtra := rfl
@[simp] theorem clearHit_draws : (clearHit s).draws = s.draws := rfl
@[simp] theorem clearHit_agenda : (clearHit s).agenda = s.agenda := rfl
@[simp] theorem clearHit_cmds : (clearHit s).cmds = s.cmds := rfl
@[simp] theorem clearHit_fifoDepth : (clearHit s).fifoDepth = s.fifoDepth := rfl

@[simp] theorem recordHit_pdir (r : Row) (c : Col) : (recordHit r c s).pdir = s.pdir := rfl
@[simp] theorem recordHit_poen (r : Row) (c : Col) : (recordHit r c s).poen = s.poen := rfl
@[simp] theorem recordHit_pout (r : Row) (c : Col) : (recordHit r c s).pout = s.pout := rfl
@[simp] theorem recordHit_row (r : Row) (c : Col) : (recordHit r c s).row = BitVec.ofNat 8 r.num := rfl
@[simp] theorem recordHit_col (r : Row) (c : Col) : (recordHit r c s).col = BitVec.ofNat 8 c.num := rfl
@[simp] theorem recordHit_hit (r : Row) (c : Col) : (recordHit r c s).hit = true := rfl
@[simp] theorem recordHit_key (r : Row) (c : Col) : (recordHit r c s).key = s.key := rfl
@[simp] theorem recordHit_tmp (r : Row) (c : Col) : (recordHit r c s).tmp = s.tmp := rfl
@[simp] theorem recordHit_rxrst (r : Row) (c : Col) : (recordHit r c s).rxrst = s.rxrst := rfl
@[simp] theorem recordHit_txrst (r : Row) (c : Col) : (recordHit r c s).txrst = s.txrst := rfl
@[simp] theorem recordHit_rxen (r : Row) (c : Col) : (recordHit r c s).rxen = s.rxen := rfl
@[simp] theorem recordHit_txen (r : Row) (c : Col) : (recordHit r c s).txen = s.txen := rfl
@[simp] theorem recordHit_chrl (r : Row) (c : Col) : (recordHit r c s).chrl = s.chrl := rfl
@[simp] theorem recordHit_par (r : Row) (c : Col) : (recordHit r c s).par = s.par := rfl
@[simp] theorem recordHit_nbstop (r : Row) (c : Col) : (recordHit r c s).nbstop = s.nbstop := rfl
@[simp] theorem recordHit_txemptyEn (r : Row) (c : Col) : (recordHit r c s).txemptyEn = s.txemptyEn := rfl
@[simp] theorem recordHit_txfullEn (r : Row) (c : Col) : (recordHit r c s).txfullEn = s.txfullEn := rfl
@[simp] theorem recordHit_txfull (r : Row) (c : Col) : (recordHit r c s).txfull = s.txfull := rfl
@[simp] theorem recordHit_cd (r : Row) (c : Col) : (recordHit r c s).cd = s.cd := rfl
@[simp] theorem recordHit_bdiv (r : Row) (c : Col) : (recordHit r c s).bdiv = s.bdiv := rfl
@[simp] theorem recordHit_fifo (r : Row) (c : Col) : (recordHit r c s).fifo = s.fifo := rfl
@[simp] theorem recordHit_txbuf (r : Row) (c : Col) : (recordHit r c s).txbuf = s.txbuf := rfl
@[simp] theorem recordHit_txlen (r : Row) (c : Col) : (recordHit r c s).txlen = s.txlen := rfl
@[simp] theorem recordHit_txidx (r : Row) (c : Col) : (recordHit r c s).txidx = s.txidx := rfl
@[simp] theorem recordHit_seq (r : Row) (c : Col) : (recordHit r c s).seq = s.seq := rfl
@[simp] theorem recordHit_cmd (r : Row) (c : Col) : (recordHit r c s).cmd = s.cmd := rfl
@[simp] theorem recordHit_waitmode (r : Row) (c : Col) : (recordHit r c s).waitmode = s.waitmode := rfl
@[simp] theorem recordHit_busy (r : Row) (c : Col) : (recordHit r c s).busy = s.busy := rfl
@[simp] theorem recordHit_kinitDone (r : Row) (c : Col) : (recordHit r c s).kinitDone = s.kinitDone := rfl
@[simp] theorem recordHit_ucfgDone (r : Row) (c : Col) : (recordHit r c s).ucfgDone = s.ucfgDone := rfl
@[simp] theorem recordHit_closed (r : Row) (c : Col) : (recordHit r c s).closed = s.closed := rfl
@[simp] theorem recordHit_txlog (r : Row) (c : Col) : (recordHit r c s).txlog = s.txlog := rfl
@[simp] theorem recordHit_hostKey (r : Row) (c : Col) : (recordHit r c s).hostKey = s.hostKey := rfl
@[simp] theorem recordHit_fifoExtra (r : Row) (c : Col) : (recordHit r c s).fifoExtra = s.fifoExtra := rfl
@[simp] theorem recordHit_draws (r : Row) (c : Col) : (recordHit r c s).draws = s.draws := rfl
@[simp] theorem recordHit_agenda (r : Row) (c : Col) : (recordHit r c s).agenda = s.agenda := rfl
@[simp] theorem recordHit_cmds (r : Row) (c : Col) : (recordHit r c s).cmds = s.cmds := rfl
@[simp] theorem recordHit_fifoDepth (r : Row) (c : Col) : (recordHit r c s).fifoDepth = s.fifoDepth := rfl

@[simp] theorem setKey_pdir (v : Word) : (setKey v s).pdir = s.pdir := rfl
@[simp] theorem setKey_poen (v : Word) : (setKey v s).poen = s.poen := rfl
@[simp] theorem setKey_pout (v : Word) : (setKey v s).pout = s.pout := rfl
@[simp] theorem setKey_row (v : Word) : (setKey v s).row = s.row := rfl
@[simp] theorem setKey_col (v : Word) : (setKey v s).col = s.col := rfl
@[simp] theorem setKey_hit (v : Word) : (setKey v s).hit = s.hit := rfl
@[simp] theorem setKey_key (v : Word) : (setKey v s).key = v := rfl
@[simp] theorem setKey_tmp (v : Word) : (setKey v s).tmp = s.tmp := rfl
@[simp] theorem setKey_rxrst (v : Word) : (setKey v s).rxrst = s.rxrst := rfl
@[simp] theorem setKey_txrst (v : Word) : (setKey v s).txrst = s.txrst := rfl
@[simp] theorem setKey_rxen (v : Word) : (setKey v s).rxen = s.rxen := rfl
@[simp] theorem setKey_txen (v : Word) : (setKey v s).txen = s.txen := rfl
@[simp] theorem setKey_chrl (v : Word) : (setKey v s).chrl = s.chrl := rfl
@[simp] theorem setKey_par (v : Word) : (setKey v s).par = s.par := rfl
@[simp] theorem setKey_nbstop (v : Word) : (setKey v s).nbstop = s.nbstop := rfl
@[simp] theorem setKey_txemptyEn (v : Word) : (setKey v s).txemptyEn = s.txemptyEn := rfl
@[simp] theorem setKey_txfullEn (v : Word) : (setKey v s).txfullEn = s.txfullEn := rfl
@[simp] theorem setKey_txfull (v : Word) : (setKey v s).txfull = s.txfull := rfl
@[simp] theorem setKey_cd (v : Word) : (setKey v s).cd = s.cd := rfl
@[simp] theorem setKey_bdiv (v : Word) : (setKey v s).bdiv = s.bdiv := rfl
@[simp] theorem setKey_fifo (v : Word) : (setKey v s).fifo = s.fifo := rfl
@[simp] theorem setKey_txbuf (v : Word) : (setKey v s).txbuf = s.txbuf := rfl
@[simp] theorem setKey_txlen (v : Word) : (setKey v s).txlen = s.txlen := rfl
@[simp] theorem setKey_txidx (v : Word) : (setKey v s).txidx = s.txidx := rfl
@[simp] theorem setKey_seq (v : Word) : (setKey v s).seq = s.seq := rfl
@[simp] theorem setKey_cmd (v : Word) : (setKey v s).cmd = s.cmd := rfl
@[simp] theorem setKey_waitmode (v : Word) : (setKey v s).waitmode = s.waitmode := rfl
@[simp] theorem setKey_busy (v : Word) : (setKey v s).busy = s.busy := rfl
@[simp] theorem setKey_kinitDone (v : Word) : (setKey v s).kinitDone = s.kinitDone := rfl
@[simp] theorem setKey_ucfgDone (v : Word) : (setKey v s).ucfgDone = s.ucfgDone := rfl
@[simp] theorem setKey_closed (v : Word) : (setKey v s).closed = s.closed := rfl
@[simp] theorem setKey_txlog (v : Word) : (setKey v s).txlog = s.txlog := rfl
@[simp] theorem setKey_hostKey (v : Word) : (setKey v s).hostKey = s.hostKey := rfl
@[simp] theorem setKey_fifoExtra (v : Word) : (setKey v s).fifoExtra = s.fifoExtra := rfl
@[simp] theorem setKey_draws (v : Word) : (setKey v s).draws = s.draws := rfl
@[simp] theorem setKey_agenda (v : Word) : (setKey v s).agenda = s.agenda := rfl
@[simp] theorem setKey_cmds (v : Word) : (setKey v s).cmds = s.cmds := rfl
@[simp] theorem setKey_fifoDepth (v : Word) : (setKey v s).fifoDepth = s.fifoDepth := rfl

@[simp] theorem clearWait_pdir : (clearWait s).pdir = s.pdir := rfl
@[simp] theorem clearWait_poen : (clearWait s).poen = s.poen := rfl
@[simp] theorem clearWait_pout : (clearWait s).pout = s.pout := rfl
@[simp] theorem clearWait_row : (clearWait s).row = s.row := rfl
@[simp] theorem clearWait_col : (clearWait s).col = s.col := rfl
@[simp] theorem clearWait_hit : (clearWait s).hit = s.hit := rfl
@[simp] theorem clearWait_key : (clearWait s).key = s.key := rfl
@[simp] theorem clearWait_tmp : (clearWait s).tmp = s.tmp := rfl
@[simp] theorem clearWait_rxrst : (clearWait s).rxrst = s.rxrst := rfl
@[simp] theorem clearWait_txrst : (clearWait s).txrst = s.txrst := rfl
@[simp] theorem clearWait_rxen : (clearWait s).rxen = s.rxen := rfl
@[simp] theorem clearWait_txen : (clearWait s).txen = s.txen := rfl
@[simp] theorem clearWait_chrl : (clearWait s).chrl = s.chrl := rfl
@[simp] theorem clearWait_par : (clearWait s).par = s.par := rfl
@[simp] theorem clearWait_nbstop : (clearWait s).nbstop = s.nbstop := rfl
@[simp] theorem clearWait_txemptyEn : (clearWait s).txemptyEn = s.txemptyEn := rfl
@[simp] theorem clearWait_txfullEn : (clearWait s).txfullEn = s.txfullEn := rfl
@[simp] theorem clearWait_txfull : (clearWait s).txfull = s.txfull := rfl
@[simp] theorem clearWait_cd : (clearWait s).cd = s.cd := rfl
@[simp] theorem clearWait_bdiv : (clearWait s).bdiv = s.bdiv := rfl
@[simp] theorem clearWait_fifo : (clearWait s).fifo = s.fifo := rfl
@[simp] theorem clearWait_txbuf : (clearWait s).txbuf = s.txbuf := rfl
@[simp] theorem clearWait_txlen : (clearWait s).txlen = s.txlen := rfl
@[simp] theorem clearWait_txidx : (clearWait s).txidx = s.txidx := rfl
@[simp] theorem clearWait_seq : (clearWait s).seq = s.seq := rfl
@[simp] theorem clearWait_cmd : (clearWait s).cmd = s.cmd := rfl
@[simp] theorem clearWait_waitmode : (clearWait s).waitmode = false := rfl
@[simp] theorem clearWait_busy : (clearWait s).busy = s.busy := rfl
@[simp] theorem clearWait_kinitDone : (clearWait s).kinitDone = s.kinitDone := rfl
@[simp] theorem clearWait_ucfgDone : (clearWait s).ucfgDone = s.ucfgDone := rfl
@[simp] theorem clearWait_closed : (clearWait s).closed = s.closed := rfl
@[simp] theorem clearWait_txlog : (clearWait s).txlog = s.txlog := rfl
@[simp] theorem clearWait_hostKey : (clearWait s).hostKey = s.hostKey := rfl
@[simp] theorem clearWait_fifoExtra : (clearWait s).fifoExtra = s.fifoExtra := rfl
@[simp] theorem clearWait_draws : (clearWait s).draws = s.draws := rfl
@[simp] theorem clearWait_agenda : (clearWait s).agenda = s.agenda := rfl
@[simp] theorem clearWait_cmds : (clearWait s).cmds = s.cmds := rfl
@[simp] theorem clearWait_fifoDepth : (clearWait s).fifoDepth = s.fifoDepth := rfl

@[simp] theorem markKinit_pdir : (markKinit s).pdir = s.pdir := rfl
@[simp] theorem markKinit_poen : (markKinit s).poen = s.poen := rfl
@[simp] theorem markKinit_pout : (markKinit s).pout = s.pout := rfl
@[simp] theorem markKinit_row : (markKinit s).row = s.row := rfl
@[simp] theorem markKinit_col : (markKinit s).col = s.col := rfl
@[simp] theorem markKinit_hit : (markKinit s).hit = s.hit := rfl
@[simp] theorem markKinit_key : (markKinit s).key = s.key := rfl
@[simp] theorem markKinit_tmp : (markKinit s).tmp = s.tmp := rfl
@[simp] theorem markKinit_rxrst : (markKinit s).rxrst = s.rxrst := rfl
@[simp] theorem markKinit_txrst : (markKinit s).txrst = s.txrst := rfl
@[simp] theorem markKinit_rxen : (markKinit s).rxen = s.rxen := rfl
@[simp] theorem markKinit_txen : (markKinit s).txen = s.txen := rfl
@[simp] theorem markKinit_chrl : (markKinit s).chrl = s.chrl := rfl
@[simp] theorem markKinit_par : (markKinit s).par = s.par := rfl
@[simp] theorem markKinit_nbstop : (markKinit s).nbstop = s.nbstop := rfl
@[simp] theorem markKinit_txemptyEn : (markKinit s).txemptyEn = s.txemptyEn := rfl
@[simp] theorem markKinit_txfullEn : (markKinit s).txfullEn = s.txfullEn := rfl
@[simp] theorem markKinit_txfull : (markKinit s).txfull = s.txfull := rfl
@[simp] theorem markKinit_cd : (markKinit s).cd = s.cd := rfl
@[simp] theorem markKinit_bdiv : (markKinit s).bdiv = s.bdiv := rfl
@[simp] theorem markKinit_fifo : (markKinit s).fifo = s.fifo := rfl
@[simp] theorem markKinit_txbuf : (markKinit s).txbuf = s.txbuf := rfl
@[simp] theorem markKinit_txlen : (markKinit s).txlen = s.txlen := rfl
@[simp] theorem markKinit_txidx : (markKinit s).txidx = s.txidx := rfl
@[simp] theorem markKinit_seq : (markKinit s).seq = s.seq := rfl
@[simp] theorem markKinit_cmd : (markKinit s).cmd = s.cmd := rfl
@[simp] theorem markKinit_waitmode : (markKinit s).waitmode = s.waitmode := rfl
@[simp] theorem markKinit_busy : (markKinit s).busy = s.busy := rfl
@[simp] theorem markKinit_kinitDone : (markKinit s).kinitDone = true := rfl
@[simp] theorem markKinit_ucfgDone : (markKinit s).ucfgDone = s.ucfgDone := rfl
@[simp] theorem markKinit_closed : (markKinit s).closed = s.closed := rfl
@[simp] theorem markKinit_txlog : (markKinit s).txlog = s.txlog := rfl
@[simp] theorem markKinit_hostKey : (markKinit s).hostKey = s.hostKey := rfl
@[simp] theorem markKinit_fifoExtra : (markKinit s).fifoExtra = s.fifoExtra := rfl
@[simp] theorem markKinit_draws : (markKinit s).draws = s.draws := rfl
@[simp] theorem markKinit_agenda : (markKinit s).agenda = s.agenda := rfl
@[simp] theorem markKinit_cmds : (markKinit s).cmds = s.cmds := rfl
@[simp] theorem markKinit_fifoDepth : (markKinit s).fifoDepth = s.fifoDepth := rfl

@[simp] theorem markUcfg_pdir : (markUcfg s).pdir = s.pdir := rfl
@[simp] theorem markUcfg_poen : (markUcfg s).poen = s.poen := rfl
@[simp] theorem markUcfg_pout : (markUcfg s).pout = s.pout := rfl
@[simp] theorem markUcfg_row : (markUcfg s).row = s.row := rfl
@[simp] theorem markUcfg_col : (markUcfg s).col = s.col := rfl
@[simp] theorem markUcfg_hit : (markUcfg s).hit = s.hit := rfl
@[simp] theorem markUcfg_key : (markUcfg s).key = s.key := rfl
@[simp] theorem markUcfg_tmp : (markUcfg s).tmp = s.tmp := rfl
@[simp] theorem markUcfg_rxrst : (markUcfg s).rxrst = s.rxrst := rfl
@[simp] theorem markUcfg_txrst : (markUcfg s).txrst = s.txrst := rfl
@[simp] theorem markUcfg_rxen : (markUcfg s).rxen = s.rxen := rfl
@[simp] theorem markUcfg_txen : (markUcfg s).txen = s.txen := rfl
@[simp] theorem markUcfg_chrl : (markUcfg s).chrl = s.chrl := rfl
@[simp] theorem markUcfg_par : (markUcfg s).par = s.par := rfl
@[simp] theorem markUcfg_nbstop : (markUcfg s).nbstop = s.nbstop := rfl
@[simp] theorem markUcfg_txemptyEn : (markUcfg s).txemptyEn = s.txemptyEn := rfl
@[simp] theorem markUcfg_txfullEn : (markUcfg s).txfullEn = s.txfullEn := rfl
@[simp] theorem markUcfg_txfull : (markUcfg s).txfull = s.txfull := rfl
@[simp] theorem markUcfg_cd : (markUcfg s).cd = s.cd := rfl
@[simp] theorem markUcfg_bdiv : (markUcfg s).bdiv = s.bdiv := rfl
@[simp] theorem markUcfg_fifo : (markUcfg s).fifo = s.fifo := rfl
@[simp] theorem markUcfg_txbuf : (markUcfg s).txbuf = s.txbuf := rfl
@[simp] theorem markUcfg_txlen : (markUcfg s).txlen = s.txlen := rfl
@[simp] theorem markUcfg_txidx : (markUcfg s).txidx = s.txidx := rfl
@[simp] theorem markUcfg_seq : (markUcfg s).seq = s.seq := rfl
@[simp] theorem markUcfg_cmd : (markUcfg s).cmd = s.cmd := rfl
@[simp] theorem markUcfg_waitmode : (markUcfg s).waitmode = s.waitmode := rfl
@[simp] theorem markUcfg_busy : (markUcfg s).busy = s.busy := rfl
@[simp] theorem markUcfg_kinitDone : (markUcfg s).kinitDone = s.kinitDone := rfl
@[simp] theorem markUcfg_ucfgDone : (markUcfg s).ucfgDone = true := rfl
@[simp] theorem markUcfg_closed : (markUcfg s).closed = s.closed := rfl
@[simp] theorem markUcfg_txlog : (markUcfg s).txlog = s.txlog := rfl
@[simp] theorem markUcfg_hostKey : (markUcfg s).hostKey = s.hostKey := rfl
@[simp] theorem markUcfg_fifoExtra : (markUcfg s).fifoExtra = s.fifoExtra := rfl
@[simp] theorem markUcfg_draws : (markUcfg s).draws = s.draws := rfl
@[simp] theorem markUcfg_agenda : (markUcfg s).agenda = s.agenda := rfl
@[simp] theorem markUcfg_cmds : (markUcfg s).cmds = s.cmds := rfl
@[simp] theorem markUcfg_fifoDepth : (markUcfg s).fifoDepth = s.fifoDepth := rfl

@[simp] theorem writeUcr_pdir (v : Word) : (writeUcr v s).pdir = s.pdir := rfl
@[simp] theorem writeUcr_poen (v : Word) : (writeUcr v s).poen = s.poen := rfl
@[simp] theorem writeUcr_pout (v : Word) : (writeUcr v s).pout = s.pout := rfl
@[simp] theorem writeUcr_row (v : Word) : (writeUcr v s).row = s.row := rfl
@[simp] theorem writeUcr_col (v : Word) : (writeUcr v s).col = s.col := rfl
@[simp] theorem writeUcr_hit (v : Word) : (writeUcr v s).hit = s.hit := rfl
@[simp] theorem writeUcr_key (v : Word) : (writeUcr v s).key = s.key := rfl
@[simp] theorem writeUcr_tmp (v : Word) : (writeUcr v s).tmp = s.tmp := rfl
@[simp] theorem writeUcr_rxrst (v : Word) : (writeUcr v s).rxrst = (s.rxrst || v.getLsbD 0) := rfl
@[simp] theorem writeUcr_txrst (v : Word) : (writeUcr v s).txrst = (s.txrst || v.getLsbD 1) := rfl
@[simp] theorem writeUcr_rxen (v : Word) : (writeUcr v s).rxen = v.getLsbD 2 := rfl
@[simp] theorem writeUcr_txen (v : Word) : (writeUcr v s).txen = v.getLsbD 4 := rfl
@[simp] theorem writeUcr_chrl (v : Word) : (writeUcr v s).chrl = s.chrl := rfl
@[simp] theorem writeUcr_par (v : Word) : (writeUcr v s).par = s.par := rfl
@[simp] theorem writeUcr_nbstop (v : Word) : (writeUcr v s).nbstop = s.nbstop := rfl
@[simp] theorem writeUcr_txemptyEn (v : Word) : (writeUcr v s).txemptyEn = s.txemptyEn := rfl
@[simp] theorem writeUcr_txfullEn (v : Word) : (writeUcr v s).txfullEn = s.txfullEn := rfl
@[simp] theorem writeUcr_txfull (v : Word) : (writeUcr v s).txfull = (s.txfull && !v.getLsbD 1) := rfl
@[simp] theorem writeUcr_cd (v : Word) : (writeUcr v s).cd = s.cd := rfl
@[simp] theorem writeUcr_bdiv (v : Word) : (writeUcr v s).bdiv = s.bdiv := rfl
@[simp] theorem writeUcr_fifo (v : Word) : (writeUcr v s).fifo = (if v.getLsbD 1 then [] else s.fifo) := rfl
@[simp] theorem writeUcr_txbuf (v : Word) : (writeUcr v s).txbuf = s.txbuf := rfl
@[simp] theorem writeUcr_txlen (v : Word) : (writeUcr v s).txlen = s.txlen := rfl
@[simp] theorem writeUcr_txidx (v : Word) : (writeUcr v s).txidx = s.txidx := rfl
@[simp] theorem writeUcr_seq (v : Word) : (writeUcr v s).seq = s.seq := rfl
@[simp] theorem writeUcr_cmd (v : Word) : (writeUcr v s).cmd = s.cmd := rfl
@[simp] theorem writeUcr_waitmode (v : Word) : (writeUcr v s).waitmode = s.waitmode := rfl
@[simp] theorem writeUcr_busy (v : Word) : (writeUcr v s).busy = s.busy := rfl
@[simp] theorem writeUcr_kinitDone (v : Word) : (writeUcr v s).kinitDone = s.kinitDone := rfl
@[simp] theorem writeUcr_ucfgDone (v : Word) : (writeUcr v s).ucfgDone = s.ucfgDone := rfl
@[simp] theorem writeUcr_closed (v : Word) : (writeUcr v s).closed = s.closed := rfl
@[simp] theorem writeUcr_txlog (v : Word) : (writeUcr v s).txlog = s.txlog := rfl
@[simp] theorem writeUcr_hostKey (v : Word) : (writeUcr v s).hostKey = s.hostKey := rfl
@[simp] theorem writeUcr_fifoExtra (v : Word) : (writeUcr v s).fifoExtra = s.fifoExtra := rfl
@[simp] theorem writeUcr_draws (v : Word) : (writeUcr v s).draws = s.draws := rfl
@[simp] theorem writeUcr_agenda (v : Word) : (writeUcr v s).agenda = s.agenda := rfl
@[simp] theorem writeUcr_cmds (v : Word) : (writeUcr v s).cmds = s.cmds := rfl
@[simp] theorem writeUcr_fifoDepth (v : Word) : (writeUcr v s).fifoDepth = s.fifoDepth := rfl

@[simp] theorem writeUmr_pdir (v : Word) : (writeUmr v s).pdir = s.pdir := rfl
@[simp] theorem writeUmr_poen (v : Word) : (writeUmr v s).poen = s.poen := rfl
@[simp] theorem writeUmr_pout (v : Word) : (writeUmr v s).pout = s.pout := rfl
@[simp] theorem writeUmr_row (v : Word) : (writeUmr v s).row = s.row := rfl
@[simp] theorem writeUmr_col (v : Word) : (writeUmr v s).col = s.col := rfl
@[simp] theorem writeUmr_hit (v : Word) : (writeUmr v s).hit = s.hit := rfl
@[simp] theorem writeUmr_key (v : Word) : (writeUmr v s).key = s.key := rfl
@[simp] theorem writeUmr_tmp (v : Word) : (writeUmr v s).tmp = s.tmp := rfl
@[simp] theorem writeUmr_rxrst (v : Word) : (writeUmr v s).rxrst = s.rxrst := rfl
@[simp] theorem writeUmr_txrst (v : Word) : (writeUmr v s).txrst = s.txrst := rfl
@[simp] theorem writeUmr_rxen (v : Word) : (writeUmr v s).rxen = s.rxen := rfl
@[simp] theorem writeUmr_txen (v : Word) : (writeUmr v s).txen = s.txen := rfl
@[simp] theorem writeUmr_chrl (v : Word) : (writeUmr v s).chrl = v.extractLsb' 1 2 := rfl
@[simp] theorem writeUmr_par (v : Word) : (writeUmr v s).par = v.extractLsb' 3 3 := rfl
@[simp] theorem writeUmr_nbstop (v : Word) : (writeUmr v s).nbstop = v.extractLsb' 6 2 := rfl
@[simp] theorem writeUmr_txemptyEn (v : Word) : (writeUmr v s).txemptyEn = s.txemptyEn := rfl
@[simp] theorem writeUmr_txfullEn (v : Word) : (writeUmr v s).txfullEn = s.txfullEn := rfl
@[simp] theorem writeUmr_txfull (v : Word) : (writeUmr v s).txfull = s.txfull := rfl
@[simp] theorem writeUmr_cd (v : Word) : (writeUmr v s).cd = s.cd := rfl
@[simp] theorem writeUmr_bdiv (v : Word) : (writeUmr v s).bdiv = s.bdiv := rfl
@[simp] theorem writeUmr_fifo (v : Word) : (writeUmr v s).fifo = s.fifo := rfl
@[simp] theorem writeUmr_txbuf (v : Word) : (writeUmr v s).txbuf = s.txbuf := rfl
@[simp] theorem writeUmr_txlen (v : Word) : (writeUmr v s).txlen = s.txlen := rfl
@[simp] theorem writeUmr_txidx (v : Word) : (writeUmr v s).txidx = s.txidx := rfl
@[simp] theorem writeUmr_seq (v : Word) : (writeUmr v s).seq = s.seq := rfl
@[simp] theorem writeUmr_cmd (v : Word) : (writeUmr v s).cmd = s.cmd := rfl
@[simp] theorem writeUmr_waitmode (v : Word) : (writeUmr v s).waitmode = s.waitmode := rfl
@[simp] theorem writeUmr_busy (v : Word) : (writeUmr v s).busy = s.busy := rfl
@[simp] theorem writeUmr_kinitDone (v : Word) : (writeUmr v s).kinitDone = s.kinitDone := rfl
@[simp] theorem writeUmr_ucfgDone (v : Word) : (writeUmr v s).ucfgDone = s.ucfgDone := rfl
@[simp] theorem writeUmr_closed (v : Word) : (writeUmr v s).closed = s.closed := rfl
@[simp] theorem writeUmr_txlog (v : Word) : (writeUmr v s).txlog = s.txlog := rfl
@[simp] theorem writeUmr_hostKey (v : Word) : (writeUmr v s).hostKey = s.hostKey := rfl
@[simp] theorem writeUmr_fifoExtra (v : Word) : (writeUmr v s).fifoExtra = s.fifoExtra := rfl
@[simp] theorem writeUmr_draws (v : Word) : (writeUmr v s).draws = s.draws := rfl
@[simp] theorem writeUmr_agenda (v : Word) : (writeUmr v s).agenda = s.agenda := rfl
@[simp] theorem writeUmr_cmds (v : Word) : (writeUmr v s).cmds = s.cmds := rfl
@[simp] theorem writeUmr_fifoDepth (v : Word) : (writeUmr v s).fifoDepth = s.fifoDepth := rfl

@[simp] theorem writeUier_pdir (v : Word) : (writeUier v s).pdir = s.pdir := rfl
@[simp] theorem writeUier_poen (v : Word) : (writeUier v s).poen = s.poen := rfl
@[simp] theorem writeUier_pout (v : Word) : (writeUier v s).pout = s.pout := rfl
@[simp] theorem writeUier_row (v : Word) : (writeUier v s).row = s.row := rfl
@[simp] theorem writeUier_col (v : Word) : (writeUier v s).col = s.col := rfl
@[simp] theorem writeUier_hit (v : Word) : (writeUier v s).hit = s.hit := rfl
@[simp] theorem writeUier_key (v : Word) : (writeUier v s).key = s.key := rfl
@[simp] theorem writeUier_tmp (v : Word) : (writeUier v s).tmp = s.tmp := rfl
@[simp] theorem writeUier_rxrst (v : Word) : (writeUier v s).rxrst = s.rxrst := rfl
@[simp] theorem writeUier_txrst (v : Word) : (writeUier v s).txrst = s.txrst := rfl
@[simp] theorem writeUier_rxen (v : Word) : (writeUier v s).rxen = s.rxen := rfl
@[simp] theorem writeUier_txen (v : Word) : (writeUier v s).txen = s.txen := rfl
@[simp] theorem writeUier_chrl (v : Word) : (writeUier v s).chrl = s.chrl := rfl
@[simp] theorem writeUier_par (v : Word) : (writeUier v s).par = s.par := rfl
@[simp] theorem writeUier_nbstop (v : Word) : (writeUier v s).nbstop = s.nbstop := rfl
@[simp] theorem writeUier_txemptyEn (v : Word) : (writeUier v s).txemptyEn = v.getLsbD 3 := rfl
@[simp] theorem writeUier_txfullEn (v : Word) : (writeUier v s).txfullEn = v.getLsbD 4 := rfl
@[simp] theorem writeUier_txfull (v : Word) : (writeUier v s).txfull = s.txfull := rfl
@[simp] theorem writeUier_cd (v : Word) : (writeUier v s).cd = s.cd := rfl
@[simp] theorem writeUier_bdiv (v : Word) : (writeUier v s).bdiv = s.bdiv := rfl
@[simp] theorem writeUier_fifo (v : Word) : (writeUier v s).fifo = s.fifo := rfl
@[simp] theorem writeUier_txbuf (v : Word) : (writeUier v s).txbuf = s.txbuf := rfl
@[simp] theorem writeUier_txlen (v : Word) : (writeUier v s).txlen = s.txlen := rfl
@[simp] theorem writeUier_txidx (v : Word) : (writeUier v s).txidx = s.txidx := rfl
@[simp] theorem writeUier_seq (v : Word) : (writeUier v s).seq = s.seq := rfl
@[simp] theorem writeUier_cmd (v : Word) : (writeUier v s).cmd = s.cmd := rfl
@[simp] theorem writeUier_waitmode (v : Word) : (writeUier v s).waitmode = s.waitmode := rfl
@[simp] theorem writeUier_busy (v : Word) : (writeUier v s).busy = s.busy := rfl
@[simp] theorem writeUier_kinitDone (v : Word) : (writeUier v s).kinitDone = s.kinitDone := rfl
@[simp] theorem writeUier_ucfgDone (v : Word) : (writeUier v s).ucfgDone = s.ucfgDone := rfl
@[simp] theorem writeUier_closed (v : Word) : (writeUier v s).closed = s.closed := rfl
@[simp] theorem writeUier_txlog (v : Word) : (writeUier v s).txlog = s.txlog := rfl
@[simp] theorem writeUier_hostKey (v : Word) : (writeUier v s).hostKey = s.hostKey := rfl
@[simp] theorem writeUier_fifoExtra (v : Word) : (writeUier v s).fifoExtra = s.fifoExtra := rfl
@[simp] theorem writeUier_draws (v : Word) : (writeUier v s).draws = s.draws := rfl
@[simp] theorem writeUier_agenda (v : Word) : (writeUier v s).agenda = s.agenda := rfl
@[simp] theorem writeUier_cmds (v : Word) : (writeUier v s).cmds = s.cmds := rfl
@[simp] theorem writeUier_fifoDepth (v : Word) : (writeUier v s).fifoDepth = s.fifoDepth := rfl

@[simp] theorem writeUisr_pdir (v : Word) : (writeUisr v s).pdir = s.pdir := rfl
@[simp] theorem writeUisr_poen (v : Word) : (writeUisr v s).poen = s.poen := rfl
@[simp] theorem writeUisr_pout (v : Word) : (writeUisr v s).pout = s.pout := rfl
@[simp] theorem writeUisr_row (v : Word) : (writeUisr v s).row = s.row := rfl
@[simp] theorem writeUisr_col (v : Word) : (writeUisr v s).col = s.col := rfl
@[simp] theorem writeUisr_hit (v : Word) : (writeUisr v s).hit = s.hit := rfl
@[simp] theorem writeUisr_key (v : Word) : (writeUisr v s).key = s.key := rfl
@[simp] theorem writeUisr_tmp (v : Word) : (writeUisr v s).tmp = s.tmp := rfl
@[simp] theorem writeUisr_rxrst (v : Word) : (writeUisr v s).rxrst = s.rxrst := rfl
@[simp] theorem writeUisr_txrst (v : Word) : (writeUisr v s).txrst = s.txrst := rfl
@[simp] theorem writeUisr_rxen (v : Word) : (writeUisr v s).rxen = s.rxen := rfl
@[simp] theorem writeUisr_txen (v : Word) : (writeUisr v s).txen = s.txen := rfl
@[simp] theorem writeUisr_chrl (v : Word) : (writeUisr v s).chrl = s.chrl := rfl
@[simp] theorem writeUisr_par (v : Word) : (writeUisr v s).par = s.par := rfl
@[simp] theorem writeUisr_nbstop (v : Word) : (writeUisr v s).nbstop = s.nbstop := rfl
@[simp] theorem writeUisr_txemptyEn (v : Word) : (writeUisr v s).txemptyEn = s.txemptyEn := rfl
@[simp] theorem writeUisr_txfullEn (v : Word) : (writeUisr v s).txfullEn = s.txfullEn := rfl
@[simp] theorem writeUisr_txfull (v : Word) : (writeUisr v s).txfull = (s.txfull && !v.getLsbD 4) := rfl
@[simp] theorem writeUisr_cd (v : Word) : (writeUisr v s).cd = s.cd := rfl
@[simp] theorem writeUisr_bdiv (v : Word) : (writeUisr v s).bdiv = s.bdiv := rfl
@[simp] theorem writeUisr_fifo (v : Word) : (writeUisr v s).fifo = s.fifo := rfl
@[simp] theorem writeUisr_txbuf (v : Word) : (writeUisr v s).txbuf = s.txbuf := rfl
@[simp] theorem writeUisr_txlen (v : Word) : (writeUisr v s).txlen = s.txlen := rfl
@[simp] theorem writeUisr_txidx (v : Word) : (writeUisr v s).txidx = s.txidx := rfl
@[simp] theorem writeUisr_seq (v : Word) : (writeUisr v s).seq = s.seq := rfl
@[simp] theorem writeUisr_cmd (v : Word) : (writeUisr v s).cmd = s.cmd := rfl
@[simp] theorem writeUisr_waitmode (v : Word) : (writeUisr v s).waitmode = s.waitmode := rfl
@[simp] theorem writeUisr_busy (v : Word) : (writeUisr v s).busy = s.busy := rfl
@[simp] theorem writeUisr_kinitDone (v : Word) : (writeUisr v s).kinitDone = s.kinitDone := rfl
@[simp] theorem writeUisr_ucfgDone (v : Word) : (writeUisr v s).ucfgDone = s.ucfgDone := rfl
@[simp] theorem writeUisr_closed (v : Word) : (writeUisr v s).closed = s.closed := rfl
@[simp] theorem writeUisr_txlog (v : Word) : (writeUisr v s).txlog = s.txlog := rfl
@[simp] theorem writeUisr_hostKey (v : Word) : (writeUisr v s).hostKey = s.hostKey := rfl
@[simp] theorem writeUisr_fifoExtra (v : Word) : (writeUisr v s).fifoExtra = s.fifoExtra := rfl
@[simp] theorem writeUisr_draws (v : Word) : (writeUisr v s).draws = s.draws := rfl
@[simp] theorem writeUisr_agenda (v : Word) : (writeUisr v s).agenda = s.agenda := rfl
@[simp] theorem writeUisr_cmds (v : Word) : (writeUisr v s).cmds = s.cmds := rfl
@[simp] theorem writeUisr_fifoDepth (v : Word) : (writeUisr v s).fifoDepth = s.fifoDepth := rfl

@[simp] theorem writeUbg_pdir (v : Word) : (writeUbg v s).pdir = s.pdir := rfl
@[simp] theorem writeUbg_poen (v : Word) : (writeUbg v s).poen = s.poen := rfl
@[simp] theorem writeUbg_pout (v : Word) : (writeUbg v s).pout = s.pout := rfl
@[simp] theorem writeUbg_row (v : Word) : (writeUbg v s).row = s.row := rfl
@[simp] theorem writeUbg_col (v : Word) : (writeUbg v s).col = s.col := rfl
@[simp] theorem writeUbg_hit (v : Word) : (writeUbg v s).hit = s.hit := rfl
@[simp] theorem writeUbg_key (v : Word) : (writeUbg v s).key = s.key := rfl
@[simp] theorem writeUbg_tmp (v : Word) : (writeUbg v s).tmp = s.tmp := rfl
@[simp] theorem writeUbg_rxrst (v : Word) : (writeUbg v s).rxrst = s.rxrst := rfl
@[simp] theorem writeUbg_txrst (v : Word) : (writeUbg v s).txrst = s.txrst := rfl
@[simp] theorem writeUbg_rxen (v : Word) : (writeUbg v s).rxen = s.rxen := rfl
@[simp] theorem writeUbg_txen (v : Word) : (writeUbg v s).txen = s.txen := rfl
@[simp] theorem writeUbg_chrl (v : Word) : (writeUbg v s).chrl = s.chrl := rfl
@[simp] theorem writeUbg_par (v : Word) : (writeUbg v s).par = s.par := rfl
@[simp] theorem writeUbg_nbstop (v : Word) : (writeUbg v s).nbstop = s.nbstop := rfl
@[simp] theorem writeUbg_txemptyEn (v : Word) : (writeUbg v s).txemptyEn = s.txemptyEn := rfl
@[simp] theorem writeUbg_txfullEn (v : Word) : (writeUbg v s).txfullEn = s.txfullEn := rfl
@[simp] theorem writeUbg_txfull (v : Word) : (writeUbg v s).txfull = s.txfull := rfl
@[simp] theorem writeUbg_cd (v : Word) : (writeUbg v s).cd = v.extractLsb' 0 16 := rfl
@[simp] theorem writeUbg_bdiv (v : Word) : (writeUbg v s).bdiv = s.bdiv := rfl
@[simp] theorem writeUbg_fifo (v : Word) : (writeUbg v s).fifo = s.fifo := rfl
@[simp] theorem writeUbg_txbuf (v : Word) : (writeUbg v s).txbuf = s.txbuf := rfl
@[simp] theorem writeUbg_txlen (v : Word) : (writeUbg v s).txlen = s.txlen := rfl
@[simp] theorem writeUbg_txidx (v : Word) : (writeUbg v s).txidx = s.txidx := rfl
@[simp] theorem writeUbg_seq (v : Word) : (writeUbg v s).seq = s.seq := rfl
@[simp] theorem writeUbg_cmd (v : Word) : (writeUbg v s).cmd = s.cmd := rfl
@[simp] theorem writeUbg_waitmode (v : Word) : (writeUbg v s).waitmode = s.waitmode := rfl
@[simp] theorem writeUbg_busy (v : Word) : (writeUbg v s).busy = s.busy := rfl
@[simp] theorem writeUbg_kinitDone (v : Word) : (writeUbg v s).kinitDone = s.kinitDone := rfl
@[simp] theorem writeUbg_ucfgDone (v : Word) : (writeUbg v s).ucfgDone = s.ucfgDone := rfl
@[simp] theorem writeUbg_closed (v : Word) : (writeUbg v s).closed = s.closed := rfl
@[simp] theorem writeUbg_txlog (v : Word) : (writeUbg v s).txlog = s.txlog := rfl
@[simp] theorem writeUbg_hostKey (v : Word) : (writeUbg v s).hostKey = s.hostKey := rfl
@[simp] theorem writeUbg_fifoExtra (v : Word) : (writeUbg v s).fifoExtra = s.fifoExtra := rfl
@[simp] theorem writeUbg_draws (v : Word) : (writeUbg v s).draws = s.draws := rfl
@[simp] theorem writeUbg_agenda (v : Word) : (writeUbg v s).agenda = s.agenda := rfl
@[simp] theorem writeUbg_cmds (v : Word) : (writeUbg v s).cmds = s.cmds := rfl
@[simp] theorem writeUbg_fifoDepth (v : Word) : (writeUbg v s).fifoDepth = s.fifoDepth := rfl

@[simp] theorem writeUbd_pdir (v : Word) : (writeUbd v s).pdir = s.pdir := rfl
@[simp] theorem writeUbd_poen (v : Word) : (writeUbd v s).poen = s.poen := rfl
@[simp] theorem writeUbd_pout (v : Word) : (writeUbd v s).pout = s.pout := rfl
@[simp] theorem writeUbd_row (v : Word) : (writeUbd v s).row = s.row := rfl
@[simp] theorem writeUbd_col (v : Word) : (writeUbd v s).col = s.col := rfl
@[simp] theorem writeUbd_hit (v : Word) : (writeUbd v s).hit = s.hit := rfl
@[simp] theorem writeUbd_key (v : Word) : (writeUbd v s).key = s.key := rfl
@[simp] theorem writeUbd_tmp (v : Word) : (writeUbd v s).tmp = s.tmp := rfl
@[simp] theorem writeUbd_rxrst (v : Word) : (writeUbd v s).rxrst = s.rxrst := rfl
@[simp] theorem writeUbd_txrst (v : Word) : (writeUbd v s).txrst = s.txrst := rfl
@[simp] theorem writeUbd_rxen (v : Word) : (writeUbd v s).rxen = s.rxen := rfl
@[simp] theorem writeUbd_txen (v : Word) : (writeUbd v s).txen = s.txen := rfl
@[simp] theorem writeUbd_chrl (v : Word) : (writeUbd v s).chrl = s.chrl := rfl
@[simp] theorem writeUbd_par (v : Word) : (writeUbd v s).par = s.par := rfl
@[simp] theorem writeUbd_nbstop (v : Word) : (writeUbd v s).nbstop = s.nbstop := rfl
@[simp] theorem writeUbd_txemptyEn (v : Word) : (writeUbd v s).txemptyEn = s.txemptyEn := rfl
@[simp] theorem writeUbd_txfullEn (v : Word) : (writeUbd v s).txfullEn = s.txfullEn := rfl
@[simp] theorem writeUbd_txfull (v : Word) : (writeUbd v s).txfull = s.txfull := rfl
@[simp] theorem writeUbd_cd (v : Word) : (writeUbd v s).cd = s.cd := rfl
@[simp] theorem writeUbd_bdiv (v : Word) : (writeUbd v s).bdiv = v.extractLsb' 0 8 := rfl
@[simp] theorem writeUbd_fifo (v : Word) : (writeUbd v s).fifo = s.fifo := rfl
@[simp] theorem writeUbd_txbuf (v : Word) : (writeUbd v s).txbuf = s.txbuf := rfl
@[simp] theorem writeUbd_txlen (v : Word) : (writeUbd v s).txlen = s.txlen := rfl
@[simp] theorem writeUbd_txidx (v : Word) : (writeUbd v s).txidx = s.txidx := rfl
@[simp] theorem writeUbd_seq (v : Word) : (writeUbd v s).seq = s.seq := rfl
@[simp] theorem writeUbd_cmd (v : Word) : (writeUbd v s).cmd = s.cmd := rfl
@[simp] theorem writeUbd_waitmode (v : Word) : (writeUbd v s).waitmode = s.waitmode := rfl
@[simp] theorem writeUbd_busy (v : Word) : (writeUbd v s).busy = s.busy := rfl
@[simp] theorem writeUbd_kinitDone (v : Word) : (writeUbd v s).kinitDone = s.kinitDone := rfl
@[simp] theorem writeUbd_ucfgDone (v : Word) : (writeUbd v s).ucfgDone = s.ucfgDone := rfl
@[simp] theorem writeUbd_closed (v : Word) : (writeUbd v s).closed = s.closed := rfl
@[simp] theorem writeUbd_txlog (v : Word) : (writeUbd v s).txlog = s.txlog := rfl
@[simp] theorem writeUbd_hostKey (v : Word) : (writeUbd v s).hostKey = s.hostKey := rfl
@[simp] theorem writeUbd_fifoExtra (v : Word) : (writeUbd v s).fifoExtra = s.fifoExtra := rfl
@[simp] theorem writeUbd_draws (v : Word) : (writeUbd v s).draws = s.draws := rfl
@[simp] theorem writeUbd_agenda (v : Word) : (writeUbd v s).agenda = s.agenda := rfl
@[simp] theorem writeUbd_cmds (v : Word) : (writeUbd v s).cmds = s.cmds := rfl
@[simp] theorem writeUbd_fifoDepth (v : Word) : (writeUbd v s).fifoDepth = s.fifoDepth := rfl

@[simp] theorem pushFifo_pdir (b : Byte) : (pushFifo b s).pdir = s.pdir := rfl
@[simp] theorem pushFifo_poen (b : Byte) : (pushFifo b s).poen = s.poen := rfl
@[simp] theorem pushFifo_pout (b : Byte) : (pushFifo b s).pout = s.pout := rfl
@[simp] theorem pushFifo_row (b : Byte) : (pushFifo b s).row = s.row := rfl
@[simp] theorem pushFifo_col (b : Byte) : (pushFifo b s).col = s.col := rfl
@[simp] theorem pushFifo_hit (b : Byte) : (pushFifo b s).hit = s.hit := rfl
@[simp] theorem pushFifo_key (b : Byte) : (pushFifo b s).key = s.key := rfl
@[simp] theorem pushFifo_tmp (b : Byte) : (pushFifo b s).tmp = s.tmp := rfl
@[simp] theorem pushFifo_rxrst (b : Byte) : (pushFifo b s).rxrst = s.rxrst := rfl
@[simp] theorem pushFifo_txrst (b : Byte) : (pushFifo b s).txrst = s.txrst := rfl
@[simp] theorem pushFifo_rxen (b : Byte) : (pushFifo b s).rxen = s.rxen := rfl
@[simp] theorem pushFifo_txen (b : Byte) : (pushFifo b s).txen = s.txen := rfl
@[simp] theorem pushFifo_chrl (b : Byte) : (pushFifo b s).chrl = s.chrl := rfl
@[simp] theorem pushFifo_par (b : Byte) : (pushFifo b s).par = s.par := rfl
@[simp] theorem pushFifo_nbstop (b : Byte) : (pushFifo b s).nbstop = s.nbstop := rfl
@[simp] theorem pushFifo_txemptyEn (b : Byte) : (pushFifo b s).txemptyEn = s.txemptyEn := rfl
@[simp] theorem pushFifo_txfullEn (b : Byte) : (pushFifo b s).txfullEn = s.txfullEn := rfl
@[simp] theorem pushFifo_txfull (b : Byte) : (pushFifo b s).txfull = txfullAfterWrite s := rfl
@[simp] theorem pushFifo_cd (b : Byte) : (pushFifo b s).cd = s.cd := rfl
@[simp] theorem pushFifo_bdiv (b : Byte) : (pushFifo b s).bdiv = s.bdiv := rfl
@[simp] theorem pushFifo_fifo (b : Byte) : (pushFifo b s).fifo = s.fifo ++ [b] := rfl
@[simp] theorem pushFifo_txbuf (b : Byte) : (pushFifo b s).txbuf = s.txbuf := rfl
@[simp] theorem pushFifo_txlen (b : Byte) : (pushFifo b s).txlen = s.txlen := rfl
@[simp] theorem pushFifo_txidx (b : Byte) : (pushFifo b s).txidx = s.txidx := rfl
@[simp] theorem pushFifo_seq (b : Byte) : (pushFifo b s).seq = s.seq := rfl
@[simp] theorem pushFifo_cmd (b : Byte) : (pushFifo b s).cmd = s.cmd := rfl
@[simp] theorem pushFifo_waitmode (b : Byte) : (pushFifo b s).waitmode = s.waitmode := rfl
@[simp] theorem pushFifo_busy (b : Byte) : (pushFifo b s).busy = s.busy := rfl
@[simp] theorem pushFifo_kinitDone (b : Byte) : (pushFifo b s).kinitDone = s.kinitDone := rfl
@[simp] theorem pushFifo_ucfgDone (b : Byte) : (pushFifo b s).ucfgDone = s.ucfgDone := rfl
@[simp] theorem pushFifo_closed (b : Byte) : (pushFifo b s).closed = s.closed := rfl
@[simp] theorem pushFifo_txlog (b : Byte) : (pushFifo b s).txlog = s.txlog := rfl
@[simp] theorem pushFifo_hostKey (b : Byte) : (pushFifo b s).hostKey = s.hostKey := rfl
@[simp] theorem pushFifo_fifoExtra (b : Byte) : (pushFifo b s).fifoExtra = s.fifoExtra := rfl
@[simp] theorem pushFifo_draws (b : Byte) : (pushFifo b s).draws = s.draws := rfl
@[simp] theorem pushFifo_agenda (b : Byte) : (pushFifo b s).agenda = s.agenda := rfl
@[simp] theorem pushFifo_cmds (b : Byte) : (pushFifo b s).cmds = s.cmds := rfl
@[simp] theorem pushFifo_fifoDepth (b : Byte) : (pushFifo b s).fifoDepth = s.fifoDepth := rfl

@[simp] theorem popFifo_pdir (b : Byte) (rest : List Byte) : (popFifo b rest s).pdir = s.pdir := rfl
@[simp] theorem popFifo_poen (b : Byte) (rest : List Byte) : (popFifo b rest s).poen = s.poen := rfl
@[simp] theorem popFifo_pout (b : Byte) (rest : List Byte) : (popFifo b rest s).pout = s.pout := rfl
@[simp] theorem popFifo_row (b : Byte) (rest : List Byte) : (popFifo b rest s).row = s.row := rfl
@[simp] theorem popFifo_col (b : Byte) (rest : List Byte) : (popFifo b rest s).col = s.col := rfl
@[simp] theorem popFifo_hit (b : Byte) (rest : List Byte) : (popFifo b rest s).hit = s.hit := rfl
@[simp] theorem popFifo_key (b : Byte) (rest : List Byte) : (popFifo b rest s).key = s.key := rfl
@[simp] theorem popFifo_tmp (b : Byte) (rest : List Byte) : (popFifo b rest s).tmp = s.tmp := rfl
@[simp] theorem popFifo_rxrst (b : Byte) (rest : List Byte) : (popFifo b rest s).rxrst = s.rxrst := rfl
@[simp] theorem popFifo_txrst (b : Byte) (rest : List Byte) : (popFifo b rest s).txrst = s.txrst := rfl
@[simp] theorem popFifo_rxen (b : Byte) (rest : List Byte) : (popFifo b rest s).rxen = s.rxen := rfl
@[simp] theorem popFifo_txen (b : Byte) (rest : List Byte) : (popFifo b rest s).txen = s.txen := rfl
@[simp] theorem popFifo_chrl (b : Byte) (rest : List Byte) : (popFifo b rest s).chrl = s.chrl := rfl
@[simp] theorem popFifo_par (b : Byte) (rest : List Byte) : (popFifo b rest s).par = s.par := rfl
@[simp] theorem popFifo_nbstop (b : Byte) (rest : List Byte) : (popFifo b rest s).nbstop = s.nbstop := rfl
@[simp] theorem popFifo_txemptyEn (b : Byte) (rest : List Byte) : (popFifo b rest s).txemptyEn = s.txemptyEn := rfl
@[simp] theorem popFifo_txfullEn (b : Byte) (rest : List Byte) : (popFifo b rest s).txfullEn = s.txfullEn := rfl
@[simp] theorem popFifo_txfull (b : Byte) (rest : List Byte) : (popFifo b rest s).txfull = s.txfull := rfl
@[simp] theorem popFifo_cd (b : Byte) (rest : List Byte) : (popFifo b rest s).cd = s.cd := rfl
@[simp] theorem popFifo_bdiv (b : Byte) (rest : List Byte) : (popFifo b rest s).bdiv = s.bdiv := rfl
@[simp] theorem popFifo_fifo (b : Byte) (rest : List Byte) : (popFifo b rest s).fifo = rest := rfl
@[simp] theorem popFifo_txbuf (b : Byte) (rest : List Byte) : (popFifo b rest s).txbuf = s.txbuf := rfl
@[simp] theorem popFifo_txlen (b : Byte) (rest : List Byte) : (popFifo b rest s).txlen = s.txlen := rfl
@[simp] theorem popFifo_txidx (b : Byte) (rest : List Byte) : (popFifo b rest s).txidx = s.txidx := rfl
@[simp] theorem popFifo_seq (b : Byte) (rest : List Byte) : (popFifo b rest s).seq = s.seq := rfl
@[simp] theorem popFifo_cmd (b : Byte) (rest : List Byte) : (popFifo b rest s).cmd = s.cmd := rfl
@[simp] theorem popFifo_waitmode (b : Byte) (rest : List Byte) : (popFifo b rest s).waitmode = s.waitmode := rfl
@[simp] theorem popFifo_busy (b : Byte) (rest : List Byte) : (popFifo b rest s).busy = s.busy := rfl
@[simp] theorem popFifo_kinitDone (b : Byte) (rest : List Byte) : (popFifo b rest s).kinitDone = s.kinitDone := rfl
@[simp] theorem popFifo_ucfgDone (b : Byte) (rest : List Byte) : (popFifo b rest s).ucfgDone = s.ucfgDone := rfl
@[simp] theorem popFifo_closed (b : Byte) (rest : List Byte) : (popFifo b rest s).closed = s.closed := rfl
@[simp] theorem popFifo_txlog (b : Byte) (rest : List Byte) : (popFifo b rest s).txlog = s.txlog ++ [b] := rfl
@[simp] theorem popFifo_hostKey (b : Byte) (rest : List Byte) : (popFifo b rest s).hostKey = s.hostKey := rfl
@[simp] theorem popFifo_fifoExtra (b : Byte) (rest : List Byte) : (popFifo b rest s).fifoExtra = s.fifoExtra := rfl
@[simp] theorem popFifo_draws (b : Byte) (rest : List Byte) : (popFifo b rest s).draws = s.draws := rfl
@[simp] theorem popFifo_agenda (b : Byte) (rest : List Byte) : (popFifo b rest s).agenda = s.agenda := rfl
@[simp] theorem popFifo_cmds (b : Byte) (rest : List Byte) : (popFifo b rest s).cmds = s.cmds := rfl
@[simp] theorem popFifo_fifoDepth (b : Byte) (rest : List Byte) : (popFifo b rest s).fifoDepth = s.fifoDepth := rfl

@[simp] theorem loadText_pdir (msg : List Byte) : (loadText msg s).pdir = s.pdir := rfl
@[simp] theorem loadText_poen (msg : List Byte) : (loadText msg s).poen = s.poen := rfl
@[simp] theorem loadText_pout (msg : List Byte) : (loadText msg s).pout = s.pout := rfl
@[simp] theorem loadText_row (msg : List Byte) : (loadText msg s).row = s.row := rfl
@[simp] theorem loadText_col (msg : List Byte) : (loadText msg s).col = s.col := rfl
@[simp] theorem loadText_hit (msg : List Byte) : (loadText msg s).hit = s.hit := rfl
@[simp] theorem loadText_key (msg : List Byte) : (loadText msg s).key = s.key := rfl
@[simp] theorem loadText_tmp (msg : List Byte) : (loadText msg s).tmp = s.tmp := rfl
@[simp] theorem loadText_rxrst (msg : List Byte) : (loadText msg s).rxrst = s.rxrst := rfl
@[simp] theorem loadText_txrst (msg : List Byte) : (loadText msg s).txrst = s.txrst := rfl
@[simp] theorem loadText_rxen (msg : List Byte) : (loadText msg s).rxen = s.rxen := rfl
@[simp] theorem loadText_txen (msg : List Byte) : (loadText msg s).txen = s.txen := rfl
@[simp] theorem loadText_chrl (msg : List Byte) : (loadText msg s).chrl = s.chrl := rfl
@[simp] theorem loadText_par (msg : List Byte) : (loadText msg s).par = s.par := rfl
@[simp] theorem loadText_nbstop (msg : List Byte) : (loadText msg s).nbstop = s.nbstop := rfl
@[simp] theorem loadText_txemptyEn (msg : List Byte) : (loadText msg s).txemptyEn = s.txemptyEn := rfl
@[simp] theorem loadText_txfullEn (msg : List Byte) : (loadText msg s).txfullEn = s.txfullEn := rfl
@[simp] theorem loadText_txfull (msg : List Byte) : (loadText msg s).txfull = s.txfull := rfl
@[simp] theorem loadText_cd (msg : List Byte) : (loadText msg s).cd = s.cd := rfl
@[simp] theorem loadText_bdiv (msg : List Byte) : (loadText msg s).bdiv = s.bdiv := rfl
@[simp] theorem loadText_fifo (msg : List Byte) : (loadText msg s).fifo = s.fifo := rfl
@[simp] theorem loadText_txbuf (msg : List Byte) : (loadText msg s).txbuf = loadBuffer msg s.txbuf := rfl
@[simp] theorem loadText_txlen (msg : List Byte) : (loadText msg s).txlen = keptLength msg.length + 1 := rfl
@[simp] theorem loadText_txidx (msg : List Byte) : (loadText msg s).txidx = 0 := rfl
@[simp] theorem loadText_seq (msg : List Byte) : (loadText msg s).seq = s.seq := rfl
@[simp] theorem loadText_cmd (msg : List Byte) : (loadText msg s).cmd = s.cmd := rfl
@[simp] theorem loadText_waitmode (msg : List Byte) : (loadText msg s).waitmode = s.waitmode := rfl
@[simp] theorem loadText_busy (msg : List Byte) : (loadText msg s).busy = s.busy := rfl
@[simp] theorem loadText_kinitDone (msg : List Byte) : (loadText msg s).kinitDone = s.kinitDone := rfl
@[simp] theorem loadText_ucfgDone (msg : List Byte) : (loadText msg s).ucfgDone = s.ucfgDone := rfl
@[simp] theorem loadText_closed (msg : List Byte) : (loadText msg s).closed = s.closed := rfl
@[simp] theorem loadText_txlog (msg : List Byte) : (loadText msg s).txlog = s.txlog := rfl
@[simp] theorem loadText_hostKey (msg : List Byte) : (loadText msg s).hostKey = s.hostKey := rfl
@[simp] theorem loadText_fifoExtra (msg : List Byte) : (loadText msg s).fifoExtra = s.fifoExtra := rfl
@[simp] theorem loadText_draws (msg : List Byte) : (loadText msg s).draws = s.draws := rfl
@[simp] theorem loadText_agenda (msg : List Byte) : (loadText msg s).agenda = s.agenda := rfl
@[simp] theorem loadText_cmds (msg : List Byte) : (loadText msg s).cmds = s.cmds := rfl
@[simp] theorem loadText_fifoDepth (msg : List Byte) : (loadText msg s).fifoDepth = s.fifoDepth := rfl

@[simp] theorem setTxidx_pdir (n : Nat) : (setTxidx n s).pdir = s.pdir := rfl
@[simp] theorem setTxidx_poen (n : Nat) : (setTxidx n s).poen = s.poen := rfl
@[simp] theorem setTxidx_pout (n : Nat) : (setTxidx n s).pout = s.pout := rfl
@[simp] theorem setTxidx_row (n : Nat) : (setTxidx n s).row = s.row := rfl
@[simp] theorem setTxidx_col (n : Nat) : (setTxidx n s).col = s.col := rfl
@[simp] theorem setTxidx_hit (n : Nat) : (setTxidx n s).hit = s.hit := rfl
@[simp] theorem setTxidx_key (n : Nat) : (setTxidx n s).key = s.key := rfl
@[simp] theorem setTxidx_tmp (n : Nat) : (setTxidx n s).tmp = s.tmp := rfl
@[simp] theorem setTxidx_rxrst (n : Nat) : (setTxidx n s).rxrst = s.rxrst := rfl
@[simp] theorem setTxidx_txrst (n : Nat) : (setTxidx n s).txrst = s.txrst := rfl
@[simp] theorem setTxidx_rxen (n : Nat) : (setTxidx n s).rxen = s.rxen := rfl
@[simp] theorem setTxidx_txen (n : Nat) : (setTxidx n s).txen = s.txen := rfl
@[simp] theorem setTxidx_chrl (n : Nat) : (setTxidx n s).chrl = s.chrl := rfl
@[simp] theorem setTxidx_par (n : Nat) : (setTxidx n s).par = s.par := rfl
@[simp] theorem setTxidx_nbstop (n : Nat) : (setTxidx n s).nbstop = s.nbstop := rfl
@[simp] theorem setTxidx_txemptyEn (n : Nat) : (setTxidx n s).txemptyEn = s.txemptyEn := rfl
@[simp] theorem setTxidx_txfullEn (n : Nat) : (setTxidx n s).txfullEn = s.txfullEn := rfl
@[simp] theorem setTxidx_txfull (n : Nat) : (setTxidx n s).txfull = s.txfull := rfl
@[simp] theorem setTxidx_cd (n : Nat) : (setTxidx n s).cd = s.cd := rfl
@[simp] theorem setTxidx_bdiv (n : Nat) : (setTxidx n s).bdiv = s.bdiv := rfl
@[simp] theorem setTxidx_fifo (n : Nat) : (setTxidx n s).fifo = s.fifo := rfl
@[simp] theorem setTxidx_txbuf (n : Nat) : (setTxidx n s).txbuf = s.txbuf := rfl
@[simp] theorem setTxidx_txlen (n : Nat) : (setTxidx n s).txlen = s.txlen := rfl
@[simp] theorem setTxidx_txidx (n : Nat) : (setTxidx n s).txidx = n := rfl
@[simp] theorem setTxidx_seq (n : Nat) : (setTxidx n s).seq = s.seq := rfl
@[simp] theorem setTxidx_cmd (n : Nat) : (setTxidx n s).cmd = s.cmd := rfl
@[simp] theorem setTxidx_waitmode (n : Nat) : (setTxidx n s).waitmode = s.waitmode := rfl
@[simp] theorem setTxidx_busy (n : Nat) : (setTxidx n s).busy = s.busy := rfl
@[simp] theorem setTxidx_kinitDone (n : Nat) : (setTxidx n s).kinitDone = s.kinitDone := rfl
@[simp] theorem setTxidx_ucfgDone (n : Nat) : (setTxidx n s).ucfgDone = s.ucfgDone := rfl
@[simp] theorem setTxidx_closed (n : Nat) : (setTxidx n s).closed = s.closed := rfl
@[simp] theorem setTxidx_txlog (n : Nat) : (setTxidx n s).txlog = s.txlog := rfl
@[simp] theorem setTxidx_hostKey (n : Nat) : (setTxidx n s).hostKey = s.hostKey := rfl
@[simp] theorem setTxidx_fifoExtra (n : Nat) : (setTxidx n s).fifoExtra = s.fifoExtra := rfl
@[simp] theorem setTxidx_draws (n : Nat) : (setTxidx n s).draws = s.draws := rfl
@[simp] theorem setTxidx_agenda (n : Nat) : (setTxidx n s).agenda = s.agenda := rfl
@[simp] theorem setTxidx_cmds (n : Nat) : (setTxidx n s).cmds = s.cmds := rfl
@[simp] theorem setTxidx_fifoDepth (n : Nat) : (setTxidx n s).fifoDepth = s.fifoDepth := rfl

@[simp] theorem setClosed_pdir (k : Contacts) : (setClosed k s).pdir = s.pdir := rfl
@[simp] theorem setClosed_poen (k : Contacts) : (setClosed k s).poen = s.poen := rfl
@[simp] theorem setClosed_pout (k : Contacts) : (setClosed k s).pout = s.pout := rfl
@[simp] theorem setClosed_row (k : Contacts) : (setClosed k s).row = s.row := rfl
@[simp] theorem setClosed_col (k : Contacts) : (setClosed k s).col = s.col := rfl
@[simp] theorem setClosed_hit (k : Contacts) : (setClosed k s).hit = s.hit := rfl
@[simp] theorem setClosed_key (k : Contacts) : (setClosed k s).key = s.key := rfl
@[simp] theorem setClosed_tmp (k : Contacts) : (setClosed k s).tmp = s.tmp := rfl
@[simp] theorem setClosed_rxrst (k : Contacts) : (setClosed k s).rxrst = s.rxrst := rfl
@[simp] theorem setClosed_txrst (k : Contacts) : (setClosed k s).txrst = s.txrst := rfl
@[simp] theorem setClosed_rxen (k : Contacts) : (setClosed k s).rxen = s.rxen := rfl
@[simp] theorem setClosed_txen (k : Contacts) : (setClosed k s).txen = s.txen := rfl
@[simp] theorem setClosed_chrl (k : Contacts) : (setClosed k s).chrl = s.chrl := rfl
@[simp] theorem setClosed_par (k : Contacts) : (setClosed k s).par = s.par := rfl
@[simp] theorem setClosed_nbstop (k : Contacts) : (setClosed k s).nbstop = s.nbstop := rfl
@[simp] theorem setClosed_txemptyEn (k : Contacts) : (setClosed k s).txemptyEn = s.txemptyEn := rfl
@[simp] theorem setClosed_txfullEn (k : Contacts) : (setClosed k s).txfullEn = s.txfullEn := rfl
@[simp] theorem setClosed_txfull (k : Contacts) : (setClosed k s).txfull = s.txfull := rfl
@[simp] theorem setClosed_cd (k : Contacts) : (setClosed k s).cd = s.cd := rfl
@[simp] theorem setClosed_bdiv (k : Contacts) : (setClosed k s).bdiv = s.bdiv := rfl
@[simp] theorem setClosed_fifo (k : Contacts) : (setClosed k s).fifo = s.fifo := rfl
@[simp] theorem setClosed_txbuf (k : Contacts) : (setClosed k s).txbuf = s.txbuf := rfl
@[simp] theorem setClosed_txlen (k : Contacts) : (setClosed k s).txlen = s.txlen := rfl
@[simp] theorem setClosed_txidx (k : Contacts) : (setClosed k s).txidx = s.txidx := rfl
@[simp] theorem setClosed_seq (k : Contacts) : (setClosed k s).seq = s.seq := rfl
@[simp] theorem setClosed_cmd (k : Contacts) : (setClosed k s).cmd = s.cmd := rfl
@[simp] theorem setClosed_waitmode (k : Contacts) : (setClosed k s).waitmode = s.waitmode := rfl
@[simp] theorem setClosed_busy (k : Contacts) : (setClosed k s).busy = s.busy := rfl
@[simp] theorem setClosed_kinitDone (k : Contacts) : (setClosed k s).kinitDone = s.kinitDone := rfl
@[simp] theorem setClosed_ucfgDone (k : Contacts) : (setClosed k s).ucfgDone = s.ucfgDone := rfl
@[simp] theorem setClosed_closed (k : Contacts) : (setClosed k s).closed = k := rfl
@[simp] theorem setClosed_txlog (k : Contacts) : (setClosed k s).txlog = s.txlog := rfl
@[simp] theorem setClosed_hostKey (k : Contacts) : (setClosed k s).hostKey = s.hostKey := rfl
@[simp] theorem setClosed_fifoExtra (k : Contacts) : (setClosed k s).fifoExtra = s.fifoExtra := rfl
@[simp] theorem setClosed_draws (k : Contacts) : (setClosed k s).draws = s.draws := rfl
@[simp] theorem setClosed_agenda (k : Contacts) : (setClosed k s).agenda = s.agenda := rfl
@[simp] theorem setClosed_cmds (k : Contacts) : (setClosed k s).cmds = s.cmds := rfl
@[simp] theorem setClosed_fifoDepth (k : Contacts) : (setClosed k s).fifoDepth = s.fifoDepth := rfl

@[simp] theorem clearResets_pdir (rx tx : Bool) : (clearResets rx tx s).pdir = s.pdir := rfl
@[simp] theorem clearResets_poen (rx tx : Bool) : (clearResets rx tx s).poen = s.poen := rfl
@[simp] theorem clearResets_pout (rx tx : Bool) : (clearResets rx tx s).pout = s.pout := rfl
@[simp] theorem clearResets_row (rx tx : Bool) : (clearResets rx tx s).row = s.row := rfl
@[simp] theorem clearResets_col (rx tx : Bool) : (clearResets rx tx s).col = s.col := rfl
@[simp] theorem clearResets_hit (rx tx : Bool) : (clearResets rx tx s).hit = s.hit := rfl
@[simp] theorem clearResets_key (rx tx : Bool) : (clearResets rx tx s).key = s.key := rfl
@[simp] theorem clearResets_tmp (rx tx : Bool) : (clearResets rx tx s).tmp = s.tmp := rfl
@[simp] theorem clearResets_rxrst (rx tx : Bool) : (clearResets rx tx s).rxrst = (s.rxrst && !rx) := rfl
@[simp] theorem clearResets_txrst (rx tx : Bool) : (clearResets rx tx s).txrst = (s.txrst && !tx) := rfl
@[simp] theorem clearResets_rxen (rx tx : Bool) : (clearResets rx tx s).rxen = s.rxen := rfl
@[simp] theorem clearResets_txen (rx tx : Bool) : (clearResets rx tx s).txen = s.txen := rfl
@[simp] theorem clearResets_chrl (rx tx : Bool) : (clearResets rx tx s).chrl = s.chrl := rfl
@[simp] theorem clearResets_par (rx tx : Bool) : (clearResets rx tx s).par = s.par := rfl
@[simp] theorem clearResets_nbstop (rx tx : Bool) : (clearResets rx tx s).nbstop = s.nbstop := rfl
@[simp] theorem clearResets_txemptyEn (rx tx : Bool) : (clearResets rx tx s).txemptyEn = s.txemptyEn := rfl
@[simp] theorem clearResets_txfullEn (rx tx : Bool) : (clearResets rx tx s).txfullEn = s.txfullEn := rfl
@[simp] theorem clearResets_txfull (rx tx : Bool) : (clearResets rx tx s).txfull = s.txfull := rfl
@[simp] theorem clearResets_cd (rx tx : Bool) : (clearResets rx tx s).cd = s.cd := rfl
@[simp] theorem clearResets_bdiv (rx tx : Bool) : (clearResets rx tx s).bdiv = s.bdiv := rfl
@[simp] theorem clearResets_fifo (rx tx : Bool) : (clearResets rx tx s).fifo = s.fifo := rfl
@[simp] theorem clearResets_txbuf (rx tx : Bool) : (clearResets rx tx s).txbuf = s.txbuf := rfl
@[simp] theorem clearResets_txlen (rx tx : Bool) : (clearResets rx tx s).txlen = s.txlen := rfl
@[simp] theorem clearResets_txidx (rx tx : Bool) : (clearResets rx tx s).txidx = s.txidx := rfl
@[simp] theorem clearResets_seq (rx tx : Bool) : (clearResets rx tx s).seq = s.seq := rfl
@[simp] theorem clearResets_cmd (rx tx : Bool) : (clearResets rx tx s).cmd = s.cmd := rfl
@[simp] theorem clearResets_waitmode (rx tx : Bool) : (clearResets rx tx s).waitmode = s.waitmode := rfl
@[simp] theorem clearResets_busy (rx tx : Bool) : (clearResets rx tx s).busy = s.busy := rfl
@[simp] theorem clearResets_kinitDone (rx tx : Bool) : (clearResets rx tx s).kinitDone = s.kinitDone := rfl
@[simp] theorem clearResets_ucfgDone (rx tx : Bool) : (clearResets rx tx s).ucfgDone = s.ucfgDone := rfl
@[simp] theorem clearResets_closed (rx tx : Bool) : (clearResets rx tx s).closed = s.closed := rfl
@[simp] theorem clearResets_txlog (rx tx : Bool) : (clearResets rx tx s).txlog = s.txlog := rfl
@[simp] theorem clearResets_hostKey (rx tx : Bool) : (clearResets rx tx s).hostKey = s.hostKey := rfl
@[simp] theorem clearResets_fifoExtra (rx tx : Bool) : (clearResets rx tx s).fifoExtra = s.fifoExtra := rfl
@[simp] theorem clearResets_draws (rx tx : Bool) : (clearResets rx tx s).draws = s.draws := rfl
@[simp] theorem clearResets_agenda (rx tx : Bool) : (clearResets rx tx s).agenda = s.agenda := rfl
@[simp] theorem clearResets_cmds (rx tx : Bool) : (clearResets rx tx s).cmds = s.cmds := rfl
@[simp] theorem clearResets_fifoDepth (rx tx : Bool) : (clearResets rx tx s).fifoDepth = s.fifoDepth := rfl

@[simp] theorem setHostKey_pdir (v : Word) : (setHostKey v s).pdir = s.pdir := rfl
@[simp] theorem setHostKey_poen (v : Word) : (setHostKey v s).poen = s.poen := rfl
@[simp] theorem setHostKey_pout (v : Word) : (setHostKey v s).pout = s.pout := rfl
@[simp] theorem setHostKey_row (v : Word) : (setHostKey v s).row = s.row := rfl
@[simp] theorem setHostKey_col (v : Word) : (setHostKey v s).col = s.col := rfl
@[simp] theorem setHostKey_hit (v : Word) : (setHostKey v s).hit = s.hit := rfl
@[simp] theorem setHostKey_key (v : Word) : (setHostKey v s).key = s.key := rfl
@[simp] theorem setHostKey_tmp (v : Word) : (setHostKey v s).tmp = s.tmp := rfl
@[simp] theorem setHostKey_rxrst (v : Word) : (setHostKey v s).rxrst = s.rxrst := rfl
@[simp] theorem setHostKey_txrst (v : Word) : (setHostKey v s).txrst = s.txrst := rfl
@[simp] theorem setHostKey_rxen (v : Word) : (setHostKey v s).rxen = s.rxen := rfl
@[simp] theorem setHostKey_txen (v : Word) : (setHostKey v s).txen = s.txen := rfl
@[simp] theorem setHostKey_chrl (v : Word) : (setHostKey v s).chrl = s.chrl := rfl
@[simp] theorem setHostKey_par (v : Word) : (setHostKey v s).par = s.par := rfl
@[simp] theorem setHostKey_nbstop (v : Word) : (setHostKey v s).nbstop = s.nbstop := rfl
@[simp] theorem setHostKey_txemptyEn (v : Word) : (setHostKey v s).txemptyEn = s.txemptyEn := rfl
@[simp] theorem setHostKey_txfullEn (v : Word) : (setHostKey v s).txfullEn = s.txfullEn := rfl
@[simp] theorem setHostKey_txfull (v : Word) : (setHostKey v s).txfull = s.txfull := rfl
@[simp] theorem setHostKey_cd (v : Word) : (setHostKey v s).cd = s.cd := rfl
@[simp] theorem setHostKey_bdiv (v : Word) : (setHostKey v s).bdiv = s.bdiv := rfl
@[simp] theorem setHostKey_fifo (v : Word) : (setHostKey v s).fifo = s.fifo := rfl
@[simp] theorem setHostKey_txbuf (v : Word) : (setHostKey v s).txbuf = s.txbuf := rfl
@[simp] theorem setHostKey_txlen (v : Word) : (setHostKey v s).txlen = s.txlen := rfl
@[simp] theorem setHostKey_txidx (v : Word) : (setHostKey v s).txidx = s.txidx := rfl
@[simp] theorem setHostKey_seq (v : Word) : (setHostKey v s).seq = s.seq := rfl
@[simp] theorem setHostKey_cmd (v : Word) : (setHostKey v s).cmd = s.cmd := rfl
@[simp] theorem setHostKey_waitmode (v : Word) : (setHostKey v s).waitmode = s.waitmode := rfl
@[simp] theorem setHostKey_busy (v : Word) : (setHostKey v s).busy = s.busy := rfl
@[simp] theorem setHostKey_kinitDone (v : Word) : (setHostKey v s).kinitDone = s.kinitDone := rfl
@[simp] theorem setHostKey_ucfgDone (v : Word) : (setHostKey v s).ucfgDone = s.ucfgDone := rfl
@[simp] theorem setHostKey_closed (v : Word) : (setHostKey v s).closed = s.closed := rfl
@[simp] theorem setHostKey_txlog (v : Word) : (setHostKey v s).txlog = s.txlog := rfl
@[simp] theorem setHostKey_hostKey (v : Word) : (setHostKey v s).hostKey = some v := rfl
@[simp] theorem setHostKey_fifoExtra (v : Word) : (setHostKey v s).fifoExtra = s.fifoExtra := rfl
@[simp] theorem setHostKey_draws (v : Word) : (setHostKey v s).draws = s.draws := rfl
@[simp] theorem setHostKey_agenda (v : Word) : (setHostKey v s).agenda = s.agenda := rfl
@[simp] theorem setHostKey_cmds (v : Word) : (setHostKey v s).cmds = s.cmds := rfl
@[simp] theorem setHostKey_fifoDepth (v : Word) : (setHostKey v s).fifoDepth = s.fifoDepth := rfl

@[simp] theorem setCmds_pdir (ws : List Word) : (setCmds ws s).pdir = s.pdir := rfl
@[simp] theorem setCmds_poen (ws : List Word) : (setCmds ws s).poen = s.poen := rfl
@[simp] theorem setCmds_pout (ws : List Word) : (setCmds ws s).pout = s.pout := rfl
@[simp] theorem setCmds_row (ws : List Word) : (setCmds ws s).row = s.row := rfl
@[simp] theorem setCmds_col (ws : List Word) : (setCmds ws s).col = s.col := rfl
@[simp] theorem setCmds_hit (ws : List Word) : (setCmds ws s).hit = s.hit := rfl
@[simp] theorem setCmds_key (ws : List Word) : (setCmds ws s).key = s.key := rfl
@[simp] theorem setCmds_tmp (ws : List Word) : (setCmds ws s).tmp = s.tmp := rfl
@[simp] theorem setCmds_rxrst (ws : List Word) : (setCmds ws s).rxrst = s.rxrst := rfl
@[simp] theorem setCmds_txrst (ws : List Word) : (setCmds ws s).txrst = s.txrst := rfl
@[simp] theorem setCmds_rxen (ws : List Word) : (setCmds ws s).rxen = s.rxen := rfl
@[simp] theorem setCmds_txen (ws : List Word) : (setCmds ws s).txen = s.txen := rfl
@[simp] theorem setCmds_chrl (ws : List Word) : (setCmds ws s).chrl = s.chrl := rfl
@[simp] theorem setCmds_par (ws : List Word) : (setCmds ws s).par = s.par := rfl
@[simp] theorem setCmds_nbstop (ws : List Word) : (setCmds ws s).nbstop = s.nbstop := rfl
@[simp] theorem setCmds_txemptyEn (ws : List Word) : (setCmds ws s).txemptyEn = s.txemptyEn := rfl
@[simp] theorem setCmds_txfullEn (ws : List Word) : (setCmds ws s).txfullEn = s.txfullEn := rfl
@[simp] theorem setCmds_txfull (ws : List Word) : (setCmds ws s).txfull = s.txfull := rfl
@[simp] theorem setCmds_cd (ws : List Word) : (setCmds ws s).cd = s.cd := rfl
@[simp] theorem setCmds_bdiv (ws : List Word) : (setCmds ws s).bdiv = s.bdiv := rfl
@[simp] theorem setCmds_fifo (ws : List Word) : (setCmds ws s).fifo = s.fifo := rfl
@[simp] theorem setCmds_txbuf (ws : List Word) : (setCmds ws s).txbuf = s.txbuf := rfl
@[simp] theorem setCmds_txlen (ws : List Word) : (setCmds ws s).txlen = s.txlen := rfl
@[simp] theorem setCmds_txidx (ws : List Word) : (setCmds ws s).txidx = s.txidx := rfl
@[simp] theorem setCmds_seq (ws : List Word) : (setCmds ws s).seq = s.seq := rfl
@[simp] theorem setCmds_cmd (ws : List Word) : (setCmds ws s).cmd = s.cmd := rfl
@[simp] theorem setCmds_waitmode (ws : List Word) : (setCmds ws s).waitmode = s.waitmode := rfl
@[simp] theorem setCmds_busy (ws : List Word) : (setCmds ws s).busy = s.busy := rfl
@[simp] theorem setCmds_kinitDone (ws : List Word) : (setCmds ws s).kinitDone = s.kinitDone := rfl
@[simp] theorem setCmds_ucfgDone (ws : List Word) : (setCmds ws s).ucfgDone = s.ucfgDone := rfl
@[simp] theorem setCmds_closed (ws : List Word) : (setCmds ws s).closed = s.closed := rfl
@[simp] theorem setCmds_txlog (ws : List Word) : (setCmds ws s).txlog = s.txlog := rfl
@[simp] theorem setCmds_hostKey (ws : List Word) : (setCmds ws s).hostKey = s.hostKey := rfl
@[simp] theorem setCmds_fifoExtra (ws : List Word) : (setCmds ws s).fifoExtra = s.fifoExtra := rfl
@[simp] theorem setCmds_draws (ws : List Word) : (setCmds ws s).draws = s.draws := rfl
@[simp] theorem setCmds_agenda (ws : List Word) : (setCmds ws s).agenda = s.agenda := rfl
@[simp] theorem setCmds_cmds (ws : List Word) : (setCmds ws s).cmds = ws := rfl
@[simp] theorem setCmds_fifoDepth (ws : List Word) : (setCmds ws s).fifoDepth = s.fifoDepth := rfl

@[simp] theorem takeEvent_pdir : (takeEvent s).pdir = s.pdir := rfl
@[simp] theorem takeEvent_poen : (takeEvent s).poen = s.poen := rfl
@[simp] theorem takeEvent_pout : (takeEvent s).pout = s.pout := rfl
@[simp] theorem takeEvent_row : (takeEvent s).row = s.row := rfl
@[simp] theorem takeEvent_col : (takeEvent s).col = s.col := rfl
@[simp] theorem takeEvent_hit : (takeEvent s).hit = s.hit := rfl
@[simp] theorem takeEvent_key : (takeEvent s).key = s.key := rfl
@[simp] theorem takeEvent_tmp : (takeEvent s).tmp = s.tmp := rfl
@[simp] theorem takeEvent_rxrst : (takeEvent s).rxrst = s.rxrst := rfl
@[simp] theorem takeEvent_txrst : (takeEvent s).txrst = s.txrst := rfl
@[simp] theorem takeEvent_rxen : (takeEvent s).rxen = s.rxen := rfl
@[simp] theorem takeEvent_txen : (takeEvent s).txen = s.txen := rfl
@[simp] theorem takeEvent_chrl : (takeEvent s).chrl = s.chrl := rfl
@[simp] theorem takeEvent_par : (takeEvent s).par = s.par := rfl
@[simp] theorem takeEvent_nbstop : (takeEvent s).nbstop = s.nbstop := rfl
@[simp] theorem takeEvent_txemptyEn : (takeEvent s).txemptyEn = s.txemptyEn := rfl
@[simp] theorem takeEvent_txfullEn : (takeEvent s).txfullEn = s.txfullEn := rfl
@[simp] theorem takeEvent_txfull : (takeEvent s).txfull = s.txfull := rfl
@[simp] theorem takeEvent_cd : (takeEvent s).cd = s.cd := rfl
@[simp] theorem takeEvent_bdiv : (takeEvent s).bdiv = s.bdiv := rfl
@[simp] theorem takeEvent_fifo : (takeEvent s).fifo = s.fifo := rfl
@[simp] theorem takeEvent_txbuf : (takeEvent s).txbuf = s.txbuf := rfl
@[simp] theorem takeEvent_txlen : (takeEvent s).txlen = s.txlen := rfl
@[simp] theorem takeEvent_txidx : (takeEvent s).txidx = s.txidx := rfl
@[simp] theorem takeEvent_seq : (takeEvent s).seq = s.seq := rfl
@[simp] theorem takeEvent_cmd : (takeEvent s).cmd = s.cmd := rfl
@[simp] theorem takeEvent_waitmode : (takeEvent s).waitmode = s.waitmode := rfl
@[simp] theorem takeEvent_busy : (takeEvent s).busy = s.busy := rfl
@[simp] theorem takeEvent_kinitDone : (takeEvent s).kinitDone = s.kinitDone := rfl
@[simp] theorem takeEvent_ucfgDone : (takeEvent s).ucfgDone = s.ucfgDone := rfl
@[simp] theorem takeEvent_closed : (takeEvent s).closed = s.closed := rfl
@[simp] theorem takeEvent_txlog : (takeEvent s).txlog = s.txlog := rfl
@[simp] theorem takeEvent_hostKey : (takeEvent s).hostKey = s.hostKey := rfl
@[simp] theorem takeEvent_fifoExtra : (takeEvent s).fifoExtra = s.fifoExtra := rfl
@[simp] theorem takeEvent_draws : (takeEvent s).draws = s.draws := rfl
@[simp] theorem takeEvent_agenda : (takeEvent s).agenda = s.agenda.tail := rfl
@[simp] theorem takeEvent_cmds : (takeEvent s).cmds = s.cmds := rfl
@[simp] theorem takeEvent_fifoDepth : (takeEvent s).fifoDepth = s.fifoDepth := rfl

end Sys2Proof.Machine
end

