-- ==== Sys2Proof/Laws/Ops.lean ====
section
/-! SUPPORT. One spec lemma per shared operation: what a register read, a register write and a read-modify-write can do,
and the algebra of the window (`setwin`, `win`). -/

namespace Sys2Proof.Machine

/-! ### Outcomes -/

@[simp] theorem andThen_next {α β : Type} (a : α) (f : α → Host.Outcome β Fault Refusal) :
    andThen (.next a) f = f a := rfl
@[simp] theorem andThen_fault {α β : Type} (e : Fault) (f : α → Host.Outcome β Fault Refusal) :
    andThen (.fault e) f = .fault e := rfl
@[simp] theorem andThen_refused {α β : Type} (e : Refusal) (f : α → Host.Outcome β Fault Refusal) :
    andThen (.refused e) f = .refused e := rfl

/-- A sequence answers a next state exactly when both of its halves do. -/
theorem andThen_eq_next {α β : Type} {o : Host.Outcome α Fault Refusal} {f : α → Host.Outcome β Fault Refusal} {b : β} :
    andThen o f = .next b ↔ ∃ a, o = .next a ∧ f a = .next b := by
  cases o <;> simp

/-! ### Register reads -/

@[simp] theorem memRead_pout (s : State) : memRead .pout s = .next (s.pout, s) := rfl
@[simp] theorem memRead_pin (s : State) : memRead .pin s = .next (pinWord s, countRead s) := rfl
@[simp] theorem memRead_pdir (s : State) : memRead .pdir s = .next (s.pdir, s) := rfl
@[simp] theorem memRead_poen (s : State) : memRead .poen s = .next (s.poen, s) := rfl
@[simp] theorem memRead_ucr (s : State) : memRead .ucr s = .next (ucrWord s, s) := rfl
@[simp] theorem memRead_umr (s : State) : memRead .umr s = .next (umrWord s, s) := rfl
@[simp] theorem memRead_uier (s : State) : memRead .uier s = .next (uierWord s, s) := rfl
@[simp] theorem memRead_uisr (s : State) : memRead .uisr s = .next (uisrWord s, s) := rfl
@[simp] theorem memRead_ubg (s : State) : memRead .ubg s = .next (ubgWord s, s) := rfl
@[simp] theorem memRead_ufifo (s : State) : memRead .ufifo s = .refused .readUfifo := rfl
@[simp] theorem memRead_ubd (s : State) : memRead .ubd s = .next (ubdWord s, s) := rfl

/-! ### Register writes -/

@[simp] theorem memWrite_pout (v : Word) (s : State) : memWrite .pout v s = .next (setPout v s) := rfl
@[simp] theorem memWrite_pin (v : Word) (s : State) : memWrite .pin v s = .next s := rfl
@[simp] theorem memWrite_pdir (v : Word) (s : State) : memWrite .pdir v s = .next (setPdir v s) := rfl
@[simp] theorem memWrite_poen (v : Word) (s : State) : memWrite .poen v s = .next (setPoen v s) := rfl
@[simp] theorem memWrite_ucr (v : Word) (s : State) : memWrite .ucr v s = .next (writeUcr v s) := rfl
@[simp] theorem memWrite_umr (v : Word) (s : State) : memWrite .umr v s = .next (writeUmr v s) := rfl
@[simp] theorem memWrite_uier (v : Word) (s : State) : memWrite .uier v s = .next (writeUier v s) := rfl
@[simp] theorem memWrite_uisr (v : Word) (s : State) : memWrite .uisr v s = .next (writeUisr v s) := rfl
@[simp] theorem memWrite_ubg (v : Word) (s : State) : memWrite .ubg v s = .next (writeUbg v s) := rfl
@[simp] theorem memWrite_ufifo (v : Word) (s : State) : memWrite .ufifo v s = writeFifo v s := rfl
@[simp] theorem memWrite_ubd (v : Word) (s : State) : memWrite .ubd v s = .next (writeUbd v s) := rfl

/-- When a write to UFIFO answers a next state, and what that state is (R205, R209). -/
theorem writeFifo_eq_next {v : Word} {s t : State} : writeFifo v s = .next t ↔
    s.txrst = false ∧ s.fifo.length < s.fifoDepth ∧
      t = pushFifo (v.extractLsb' 0 8) s := by
  unfold writeFifo
  constructor
  · intro h
    split_ifs at h with h1 h2
    exact ⟨Bool.not_eq_true _ ▸ h1, h2, (Host.Outcome.next.inj h).symm⟩
  · rintro ⟨h1, h2, rfl⟩
    simp only [h1, h2, Bool.false_eq_true, if_true, if_false]

/-! ### Read-modify-write and whole writes -/

@[simp] theorem rmwRead_pdir (l : SeqLabel) (s : State) :
    rmwRead .pdir l s = .next (setSeq l (setTmp s.pdir s)) := rfl
@[simp] theorem rmwRead_poen (l : SeqLabel) (s : State) :
    rmwRead .poen l s = .next (setSeq l (setTmp s.poen s)) := rfl
@[simp] theorem rmwRead_pout (l : SeqLabel) (s : State) :
    rmwRead .pout l s = .next (setSeq l (setTmp s.pout s)) := rfl
@[simp] theorem rmwWrite_pdir (m d : BitVec 8) (l : SeqLabel) (s : State) :
    rmwWrite .pdir m d l s = .next (setSeq l (setPdir (setwin s.tmp m d) s)) := rfl
@[simp] theorem rmwWrite_poen (m d : BitVec 8) (l : SeqLabel) (s : State) :
    rmwWrite .poen m d l s = .next (setSeq l (setPoen (setwin s.tmp m d) s)) := rfl
@[simp] theorem rmwWrite_pout (m d : BitVec 8) (l : SeqLabel) (s : State) :
    rmwWrite .pout m d l s = .next (setSeq l (setPout (setwin s.tmp m d) s)) := rfl

/-- A whole write answers a next state exactly when the register write does. -/
theorem putReg_eq_next {r : Reg} {v : Word} {l : SeqLabel} {s t : State} :
    putReg r v l s = .next t ↔ ∃ u, memWrite r v s = .next u ∧ t = setSeq l u := by
  unfold putReg
  rw [andThen_eq_next]
  simp only [Host.Outcome.next.injEq, eq_comm]

/-! ### Issue and progress -/

/-- Issue of a guarded command answers a next state exactly when the guard holds (R240, R262). -/
theorem acceptIf_eq_next {b : Bool} {i : Instr} {l : SeqLabel} {w : Bool} {s t : State} :
    acceptIf b i l w s = .next t ↔ b = true ∧ t = accept i l w s := by
  cases b <;> simp [acceptIf, eq_comm]

/-- A micro-step answers a next state only for the command in CMD. -/
theorem inProgress_eq_next {i : Instr} {f : State → Out} {s t : State} :
    inProgress i f s = .next t ↔ s.cmd = i ∧ f s = .next t := by
  unfold inProgress
  split_ifs with h <;> simp [h]

@[simp] theorem inProgress_self {i : Instr} {f : State → Out} {s : State} (h : s.cmd = i) :
    inProgress i f s = f s := if_pos h

/-! ### The transmit buffer -/

/-- At least the terminator is sent, and never more than TXBUF holds (R171, R172). -/
theorem sentBytes_length (msg : List Byte) : (sentBytes msg).length = keptLength msg.length + 1 := by
  simp [sentBytes, keptLength]

/-- TXLEN never exceeds the capacity (R171). -/
theorem keptLength_lt (n : Nat) : keptLength n < txbufCap := by
  unfold keptLength txbufCap
  omega

/-- The bytes to send stand in the buffer from index 0 on (R170, R171). -/
theorem loadBuffer_sent (msg : List Byte) (old : Vector Byte txbufCap) (j : Nat) (h : j < (sentBytes msg).length) :
    (loadBuffer msg old)[j]? = (sentBytes msg)[j]? := by
  have hc : j < txbufCap := by
    have := keptLength_lt msg.length
    rw [sentBytes_length] at h
    omega
  rw [loadBuffer, Vector.getElem?_eq_getElem hc, Vector.getElem_ofFn]
  simp [h]

/-- Beyond them the buffer is as it was (R171). -/
theorem loadBuffer_rest (msg : List Byte) (old : Vector Byte txbufCap) (j : Nat) (h : (sentBytes msg).length ≤ j) :
    (loadBuffer msg old)[j]? = old[j]? := by
  by_cases hc : j < txbufCap
  · rw [loadBuffer, Vector.getElem?_eq_getElem hc, Vector.getElem_ofFn, Vector.getElem?_eq_getElem hc]
    simp [h]
  · rw [Vector.getElem?_eq_none (by omega), Vector.getElem?_eq_none (by omega)]

/-! ### The window -/

/-- A bit of `setwin` (R12): a selected window bit comes from `d`, every other from `v`. -/
theorem getLsbD_setwin (v : Word) (m d : BitVec 8) (i : Nat) :
    (setwin v m d).getLsbD i =
      if portLsb ≤ i ∧ m.getLsbD (i - portLsb) = true then (i < 32 && d.getLsbD (i - portLsb))
      else v.getLsbD i := by
  by_cases hi : i < 32
  · by_cases hl : portLsb ≤ i
    · have hn : ¬ i < portLsb := by omega
      cases hm : m.getLsbD (i - portLsb) <;> cases hd : d.getLsbD (i - portLsb) <;>
        simp [setwin, hi, hl, hn, hm, hd]
    · have hn : i < portLsb := by omega
      simp [setwin, hi, hl, hn]
  · have hv : v.getLsbD i = false := BitVec.getLsbD_of_ge v i (by omega)
    have hw : (setwin v m d).getLsbD i = false := BitVec.getLsbD_of_ge _ i (by omega)
    simp [hi, hv, hw]

/-- The window of `setwin`: the selected bits of `d` over the others of `v` (R12). -/
theorem win_setwin (v : Word) (m d : BitVec 8) :
    win (setwin v m d) = (win v &&& ~~~m) ||| (d &&& m) := by
  apply BitVec.eq_of_getLsbD_eq
  intro i hi
  have h32 : portLsb + i < 32 := by simp [portLsb]; omega
  cases hm : m.getLsbD i <;> simp [win, getLsbD_setwin, hm, hi, h32, -BitVec.getLsbD_eq_getElem]

/-- `setwin` leaves every bit outside the window as it was (R12, R28). -/
theorem setwin_foreign (v : Word) (m d : BitVec 8) : setwin v m d &&& ~~~wmask = v &&& ~~~wmask := by
  apply BitVec.eq_of_getLsbD_eq
  intro i hi
  simp only [BitVec.getLsbD_and, getLsbD_setwin]
  by_cases h : portLsb ≤ i ∧ m.getLsbD (i - portLsb) = true
  · have hlt : i - portLsb < 8 := by
      by_contra hge
      simp [BitVec.getLsbD_of_ge m _ (by omega : 8 ≤ i - portLsb)] at h
    have hw : (~~~wmask).getLsbD i = false := by
      have : i ∈ List.range 32 := List.mem_range.2 hi
      have h7 : 7 ≤ i := h.1
      have h15 : i < 15 := by simp [portLsb] at hlt; omega
      interval_cases i <;> decide
    simp [hw]
  · simp [h]

/-- Writing back what the window already holds changes nothing. -/
theorem setwin_same (v : Word) (m d : BitVec 8) (h : win v &&& m = d &&& m) : setwin v m d = v := by
  apply BitVec.eq_of_getLsbD_eq
  intro i hi
  rw [getLsbD_setwin]
  split_ifs with hc
  · have hlt : i - portLsb < 8 := by
      by_contra hge
      simp [BitVec.getLsbD_of_ge m _ (by omega : 8 ≤ i - portLsb)] at hc
    have hb := congrArg (fun x => x.getLsbD (i - portLsb)) h
    simp only [BitVec.getLsbD_and, hc.2, Bool.and_true, win, BitVec.getLsbD_extractLsb'] at hb
    rw [Nat.add_sub_cancel' hc.1] at hb
    simp [hi, ← hb, hlt, -BitVec.getLsbD_eq_getElem]
  · rfl

/-- The window does not see the foreign bits OTHER writes (R212). -/
theorem win_setForeign (old v : Word) : win (setForeign old v) = win old := by
  apply BitVec.eq_of_getLsbD_eq
  intro i hi
  have hw : wmask.getLsbD (portLsb + i) = true := by interval_cases i <;> decide
  simp [win, setForeign, hi, hw]

end Sys2Proof.Machine
end

