-- ==== Sys2Proof/Laws/Pins.lean ====
section
/-! SUPPORT. What a read of PIN returns, bit by bit (spec/10_state.md R27, spec/45_agents.md R202), and the order of a pass. -/

namespace Sys2Proof.Machine

/-- The bit KS_SAMPLE tests is that bit of the word a read of PIN returns (R134, R135). -/
theorem pinWord_getLsbD (s : State) (i : Nat) (h : i < 32) : (pinWord s).getLsbD i = pinBit s i := by
  simp [pinWord, h]

/-- The column whose pin the bit of a column shows is that column (R23). -/
@[simp] theorem colOfBit_bit (c : Col) : colOfBit c.bit = some c := by cases c <;> decide

/-- The bit of a row's pin shows no column (R23). -/
@[simp] theorem colOfBit_row_bit (r : Row) : colOfBit r.bit = none := by cases r <;> decide

/-- Every pin has its own register bit (R23). -/
theorem row_bit_injective : Function.Injective Row.bit := by
  intro a b h
  cases a <;> cases b <;> first | rfl | (revert h; decide)

/-- Every column pin has its own register bit (R23). -/
theorem col_bit_injective : Function.Injective Col.bit := by
  intro a b h
  cases a <;> cases b <;> first | rfl | (revert h; decide)

/-- A column no closed contact joins to a low row reads high (R202). -/
theorem colLevel_of_not_joinedLow {s : State} {c : Col} (h : joinedLow s c = false) : colLevel s c = true := by
  simp [colLevel, h]

/-- A column that reads low is joined to a row driven low (R202, R270). -/
theorem joinedLow_of_colLevel {s : State} {c : Col} (h : colLevel s c = false) : joinedLow s c = true := by
  by_contra hj
  simp [colLevel_of_not_joinedLow (Bool.not_eq_true _ ▸ hj)] at h

/-- A pin the port drives shows its POUT bit (R27). -/
theorem pinBit_driven {s : State} {i : Nat} (h : driven s i = true) : pinBit s i = s.pout.getLsbD i := by
  simp [pinBit, h]

/-- A column pin the port does not drive shows the level of the column (R27, R202). -/
theorem pinBit_col {s : State} {c : Col} (h : driven s c.bit = false) : pinBit s c.bit = colLevel s c := by
  simp [pinBit, h]

/-- The labels a pass goes through after a sample (R134). -/
@[simp] theorem afterSample_c4 (r : Row) : afterSample r .c4 = .ksSample r .c3 := rfl
@[simp] theorem afterSample_c3 (r : Row) : afterSample r .c3 = .ksSample r .c2 := rfl
@[simp] theorem afterSample_c2 (r : Row) : afterSample r .c2 = .ksSample r .c1 := rfl
@[simp] theorem afterSample_c1 (r : Row) : afterSample r .c1 = .ksRstRd r := rfl

/-- The labels a pass goes through after a row (R134). -/
@[simp] theorem afterRow_r4 : afterRow .r4 = .ksDrvRd .r3 := rfl
@[simp] theorem afterRow_r3 : afterRow .r3 = .ksDrvRd .r2 := rfl
@[simp] theorem afterRow_r2 : afterRow .r2 = .ksDrvRd .r1 := rfl
@[simp] theorem afterRow_r1 : afterRow .r1 = .ksEnd := rfl
@[simp] theorem firstRow_eq : firstRow = .r4 := rfl
@[simp] theorem firstCol_eq : firstCol = .c4 := rfl

end Sys2Proof.Machine
end

