-- ==== Sys2Proof/Laws/Exec.lean ====
section
/-! SUPPORT. What `exec` and `step` come down to: an Issue, a micro-step, or the event of another agent. -/

namespace Sys2Proof.Machine

variable {s t : State}

/-! ### An operation in progress takes its own micro-step -/

theorem execKinit_busy (hb : s.busy = true) (hc : s.cmd = .kinit) : execKinit s = kinitMicro s := by
  simp [execKinit, hb, inProgress_self hc]

theorem execKscan_busy (hb : s.busy = true) (hc : s.cmd = .kscan) : execKscan s = scanMicro s := by
  simp [execKscan, hb, inProgress_self hc]

theorem execKdec_busy {row col : BitVec 8} (hb : s.busy = true) (hc : s.cmd = .kdec row col) :
    execKdec row col s = kdecMicro row col s := by
  simp [execKdec, hb, inProgress_self hc]

theorem execKwait_busy (hb : s.busy = true) (hc : s.cmd = .kwait) : execKwait s = scanMicro s := by
  simp [execKwait, hb, inProgress_self hc]

theorem execUcfg_busy {stop data : BitVec 2} {parity : BitVec 3} {cd : BitVec 16} {bdiv : BitVec 8}
    (hb : s.busy = true) (hc : s.cmd = .ucfg stop data parity cd bdiv) :
    execUcfg stop data parity cd bdiv s = ucfgMicro stop data parity cd bdiv s := by
  simp [execUcfg, hb, inProgress_self hc]

theorem execUtx_busy {msg : List Byte} (hb : s.busy = true) (hc : s.cmd = .utx msg) :
    execUtx msg s = utxMicro msg s := by
  simp [execUtx, hb, inProgress_self hc]

/-! ### The flags a micro-step tests -/

/-- Bit 4 of UISR is TXFULL (R38). -/
@[simp] theorem uisrWord_bit4 (s : State) : (uisrWord s).getLsbD 4 = s.txfull := by
  unfold uisrWord
  cases s.txfull <;> cases txempty s <;> rfl

/-- Bit 3 of UISR is TXEMPTY (R38). -/
@[simp] theorem uisrWord_bit3 (s : State) : (uisrWord s).getLsbD 3 = txempty s := by
  unfold uisrWord
  cases s.txfull <;> cases txempty s <;> rfl

/-- The same bits as simp writes them. -/
@[simp] theorem uisrWord_getElem4 (s : State) : (uisrWord s)[4] = s.txfull := by
  rw [← BitVec.getLsbD_eq_getElem, uisrWord_bit4]

@[simp] theorem uisrWord_getElem3 (s : State) : (uisrWord s)[3] = txempty s := by
  rw [← BitVec.getLsbD_eq_getElem, uisrWord_bit3]

/-- Bits 1:0 of UCR are the pending reset bits (R35). -/
theorem ucrWord_reset_eq_zero (s : State) :
    (ucrWord s).extractLsb' 0 2 = 0 ↔ s.txrst = false ∧ s.rxrst = false := by
  unfold ucrWord
  cases s.txen <;> cases s.rxen <;> cases s.txrst <;> cases s.rxrst <;> decide

/-! ### When a micro-step answers a next state -/

/-- KINIT's micro-steps (R131): what each answers. -/
theorem kinitMicro_cases (h : kinitMicro s = .next t) :
    (s.seq = .kiDirRd ∧ t = setSeq .kiDirWr (setTmp s.pdir s)) ∨
    (s.seq = .kiDirWr ∧ t = setSeq .kiOenRd (setPdir (setwin s.tmp 0xFF 0x0F) s)) ∨
    (s.seq = .kiOenRd ∧ t = setSeq .kiOenWr (setTmp s.poen s)) ∨
    (s.seq = .kiOenWr ∧ t = setSeq .kiOutRd (setPoen (setwin s.tmp 0xFF 0x0F) s)) ∨
    (s.seq = .kiOutRd ∧ t = setSeq .kiOutWr (setTmp s.pout s)) ∨
    (s.seq = .kiOutWr ∧ t = finish (markKinit (setPout (setwin s.tmp 0x0F 0x0F) s))) := by
  unfold kinitMicro at h
  split at h <;> try simp only [kinitEnd, rmwRead_pdir, rmwRead_poen, rmwRead_pout, rmwWrite_pdir, rmwWrite_poen,
    memWrite_pout, andThen_next] at h
  all_goals cases h <;> simp [*]

/-- The micro-steps of a pass (R134): what each answers. -/
theorem scanMicro_cases (h : scanMicro s = .next t) :
    (s.seq = .ksBegin ∧ t = setSeq (.ksDrvRd firstRow) (clearHit s)) ∨
    (∃ r, s.seq = .ksDrvRd r ∧ t = setSeq (.ksDrvWr r) (setTmp s.pout s)) ∨
    (∃ r, s.seq = .ksDrvWr r ∧ t = setSeq (.ksSample r firstCol) (setPout (setwin s.tmp 0x0F (rowNibble r)) s)) ∨
    (∃ r c, s.seq = .ksSample r c ∧ pinBit s c.bit = true ∧ t = setSeq (afterSample r c) (countRead s)) ∨
    (∃ r c, s.seq = .ksSample r c ∧ pinBit s c.bit = false ∧
      t = setSeq (afterSample r c) (recordHit r c (countRead s))) ∨
    (∃ r, s.seq = .ksRstRd r ∧ t = setSeq (.ksRstWr r) (setTmp s.pout s)) ∨
    (∃ r, s.seq = .ksRstWr r ∧ t = setSeq (afterRow r) (setPout (setwin s.tmp 0x0F 0x0F) s)) ∨
    (s.seq = .ksEnd ∧ s.waitmode = true ∧ (scanResult s).msb = true ∧
      t = setSeq .ksBegin (setKey (scanResult s) s)) ∨
    (s.seq = .ksEnd ∧ ¬ (s.waitmode = true ∧ (scanResult s).msb = true) ∧
      t = finish (clearWait (setKey (scanResult s) s))) := by
  unfold scanMicro at h
  split at h
  case h_4 r c hs =>
    cases hp : pinBit s c.bit <;> simp only [sample, hp, if_true, Bool.false_eq_true, if_false] at h <;> cases h <;>
      simp [hs, hp]
  case h_7 hs =>
    unfold scanEnd at h
    split_ifs at h with hw
    all_goals
      rw [Bool.and_eq_true] at hw
      cases h
      simp [hs, hw]
  all_goals
    try simp only [rmwRead_pout, rmwWrite_pout] at h
    cases h <;> simp [*]

/-- KDEC's one micro-step (R140): what it answers. -/
theorem kdecMicro_cases {row col : BitVec 8} (h : kdecMicro row col s = .next t) :
    s.seq = .kdExec ∧ t = finish (setKey (keyOf row col) s) := by
  unfold kdecMicro at h
  split at h
  case h_1 hs => exact ⟨hs, (Host.Outcome.next.inj h).symm⟩
  case h_2 => cases h

/-- UCFG's micro-steps (R161): what each answers. -/
theorem ucfgMicro_cases {stop data : BitVec 2} {parity : BitVec 3} {cd : BitVec 16} {bdiv : BitVec 8}
    (h : ucfgMicro stop data parity cd bdiv s = .next t) :
    (s.seq = .ucReset ∧ t = setSeq .ucWait (writeUcr 0x00000003 s)) ∨
    (s.seq = .ucWait ∧ t = setSeq (if (ucrWord s).extractLsb' 0 2 = 0 then .ucEnable else .ucWait) s) ∨
    (s.seq = .ucEnable ∧ t = setSeq .ucMode (writeUcr 0x00000014 s)) ∨
    (s.seq = .ucMode ∧ t = setSeq .ucBg (writeUmr (modeWord stop data parity) s)) ∨
    (s.seq = .ucBg ∧ t = setSeq .ucBd (writeUbg (cd.setWidth 32) s)) ∨
    (s.seq = .ucBd ∧ t = setSeq .ucIen (writeUbd (bdiv.setWidth 32) s)) ∨
    (s.seq = .ucIen ∧ t = finish (markUcfg (writeUier 0x00000018 s))) := by
  unfold ucfgMicro at h
  split at h
  all_goals
    try simp only [putReg, ucfgWait, ucfgEnd, memWrite_ucr, memRead_ucr, memWrite_umr, memWrite_ubg, memWrite_ubd,
      memWrite_uier, andThen_next] at h
    cases h <;> simp [*]

/-- UTX's micro-steps (R170): what each answers. -/
theorem utxMicro_cases {msg : List Byte} (h : utxMicro msg s = .next t) :
    (s.seq = .utLoad ∧ t = setSeq .utCheck (loadText msg s)) ∨
    (s.seq = .utCheck ∧ t = setSeq (if s.txfull then .utClear else .utWrite) s) ∨
    (s.seq = .utClear ∧ t = setSeq .utPoll (writeUisr 0x00000010 s)) ∨
    (s.seq = .utPoll ∧ t = setSeq (if txempty s then .utWrite else .utPoll) s) ∨
    (s.seq = .utWrite ∧ ∃ b, s.txbuf[s.txidx]? = some b ∧ s.txrst = false ∧ s.fifo.length < s.fifoDepth ∧
      t = utxAdvance (pushFifo b s)) := by
  unfold utxMicro at h
  split at h
  case h_5 hs =>
    unfold utxWrite at h
    split at h
    case h_1 b hb =>
      rw [andThen_eq_next] at h
      obtain ⟨u, hu, ht⟩ := h
      obtain ⟨hr, hl, rfl⟩ := writeFifo_eq_next.1 hu
      refine .inr (.inr (.inr (.inr ⟨hs, b, hb, hr, hl, ?_⟩)))
      have hx : (BitVec.setWidth 32 b).extractLsb' 0 8 = b := by
        apply BitVec.eq_of_getLsbD_eq
        intro i hi
        simp [hi, show i < 32 by omega]
      rw [← Host.Outcome.next.inj ht, hx]
    case h_2 => cases h
  all_goals
    try simp only [utxLoad, utxCheck, utxPoll, putReg, memRead_uisr, memWrite_uisr, andThen_next, uisrWord_bit3,
      uisrWord_bit4] at h
    cases h <;> simp [*]

/-! ### The micro-step at each label -/

theorem kinitMicro_kiDirRd (h : s.seq = .kiDirRd) : kinitMicro s = rmwRead .pdir .kiDirWr s := by
  simp only [kinitMicro, h]
theorem kinitMicro_kiDirWr (h : s.seq = .kiDirWr) : kinitMicro s = rmwWrite .pdir 0xFF 0x0F .kiOenRd s := by
  simp only [kinitMicro, h]
theorem kinitMicro_kiOenRd (h : s.seq = .kiOenRd) : kinitMicro s = rmwRead .poen .kiOenWr s := by
  simp only [kinitMicro, h]
theorem kinitMicro_kiOenWr (h : s.seq = .kiOenWr) : kinitMicro s = rmwWrite .poen 0xFF 0x0F .kiOutRd s := by
  simp only [kinitMicro, h]
theorem kinitMicro_kiOutRd (h : s.seq = .kiOutRd) : kinitMicro s = rmwRead .pout .kiOutWr s := by
  simp only [kinitMicro, h]
theorem kinitMicro_kiOutWr (h : s.seq = .kiOutWr) : kinitMicro s = kinitEnd s := by
  simp only [kinitMicro, h]

theorem scanMicro_ksBegin (h : s.seq = .ksBegin) :
    scanMicro s = .next (setSeq (.ksDrvRd firstRow) (clearHit s)) := by simp only [scanMicro, h]
theorem scanMicro_ksDrvRd {r : Row} (h : s.seq = .ksDrvRd r) : scanMicro s = rmwRead .pout (.ksDrvWr r) s := by
  simp only [scanMicro, h]
theorem scanMicro_ksDrvWr {r : Row} (h : s.seq = .ksDrvWr r) :
    scanMicro s = rmwWrite .pout 0x0F (rowNibble r) (.ksSample r firstCol) s := by simp only [scanMicro, h]
theorem scanMicro_ksSample {r : Row} {c : Col} (h : s.seq = .ksSample r c) : scanMicro s = sample r c s := by
  simp only [scanMicro, h]
theorem scanMicro_ksRstRd {r : Row} (h : s.seq = .ksRstRd r) : scanMicro s = rmwRead .pout (.ksRstWr r) s := by
  simp only [scanMicro, h]
theorem scanMicro_ksRstWr {r : Row} (h : s.seq = .ksRstWr r) :
    scanMicro s = rmwWrite .pout 0x0F 0x0F (afterRow r) s := by simp only [scanMicro, h]
theorem scanMicro_ksEnd (h : s.seq = .ksEnd) : scanMicro s = scanEnd s := by simp only [scanMicro, h]

theorem utxMicro_utLoad {msg : List Byte} (h : s.seq = .utLoad) :
    utxMicro msg s = .next (setSeq .utCheck (loadText msg s)) := by simp only [utxMicro, utxLoad, h]
theorem utxMicro_utCheck {msg : List Byte} (h : s.seq = .utCheck) :
    utxMicro msg s = .next (setSeq (if s.txfull then .utClear else .utWrite) s) := by
  simp only [utxMicro, h, utxCheck, memRead_uisr, andThen_next, uisrWord_bit4]
theorem utxMicro_utClear {msg : List Byte} (h : s.seq = .utClear) :
    utxMicro msg s = .next (setSeq .utPoll (writeUisr 0x00000010 s)) := by
  simp only [utxMicro, h, putReg, memWrite_uisr, andThen_next]
theorem utxMicro_utPoll {msg : List Byte} (h : s.seq = .utPoll) :
    utxMicro msg s = .next (setSeq (if txempty s then .utWrite else .utPoll) s) := by
  simp only [utxMicro, h, utxPoll, memRead_uisr, andThen_next, uisrWord_bit3]
theorem utxMicro_utWrite {msg : List Byte} {b : Byte} (h : s.seq = .utWrite) (hb : s.txbuf[s.txidx]? = some b)
    (hr : s.txrst = false) (hl : s.fifo.length < s.fifoDepth) :
    utxMicro msg s = .next (utxAdvance (pushFifo b s)) := by
  have hx : (BitVec.setWidth 32 b).extractLsb' 0 8 = b := by
    apply BitVec.eq_of_getLsbD_eq
    intro i hi
    simp [hi, show i < 32 by omega]
  simp only [utxMicro, h, utxWrite, hb, memWrite_ufifo, writeFifo, hr, if_pos hl, hx]
  rfl

/-! ### Steps of the machine -/

@[simp] theorem step_eq (s : State) : step s = runEvent (nextEvent s) (takeEvent s) := rfl

/-- SEQ's step, of an operation in progress, is `exec` of the command in CMD (R218). -/
theorem seqStep_busy (hb : s.busy = true) : seqStep s = exec s.cmd s := by simp [seqStep, hb]

/-- While an operation is in progress HOST's steps and OTHER's are not enabled (R212, R216). -/
theorem hostIssueStep_busy (hb : s.busy = true) : hostIssueStep s = .next s := by simp [hostIssueStep, hb]
theorem hostReadStep_busy (hb : s.busy = true) : hostReadStep s = s := by simp [hostReadStep, hb]
theorem otherStep_busy {r : SharedReg} {v : Word} (hb : s.busy = true) : otherStep r v s = s := by
  simp [otherStep, hb]

/-- When HOST's Issue answers a next state: no step, or a legal command that `exec` accepts (R216). -/
theorem hostIssueStep_cases (h : hostIssueStep s = .next t) :
    (t = s ∧ (s.busy = true ∨ s.cmds = [])) ∨
    (s.busy = false ∧ ∃ i rest, decode s.cmds = .ok (i, rest) ∧ exec i (setCmds rest s) = .next t) := by
  unfold hostIssueStep at h
  split_ifs at h with hb hc
  · exact .inl ⟨(Host.Outcome.next.inj h).symm, .inl hb⟩
  · exact .inl ⟨(Host.Outcome.next.inj h).symm, .inr (List.isEmpty_iff.1 hc)⟩
  · split at h
    case h_1 i rest hd => exact .inr ⟨Bool.not_eq_true _ ▸ hb, i, rest, hd, h⟩
    case h_2 => cases h

/-- When the Issue of a command answers a next state, and which (R131, R134, R140, R145, R161, R170). -/
theorem exec_idle_cases {i : Instr} (hb : s.busy = false) (h : exec i s = .next t) :
    (i = .kinit ∧ t = accept i .kiDirRd false s) ∨
    (i = .kscan ∧ s.kinitDone = true ∧ t = accept i .ksBegin false s) ∨
    ((∃ row col, i = .kdec row col) ∧ t = accept i .kdExec false s) ∨
    (i = .kwait ∧ s.kinitDone = true ∧ t = accept i .ksBegin true s) ∨
    ((∃ stop data parity cd bdiv, i = .ucfg stop data parity cd bdiv) ∧ t = accept i .ucReset false s) ∨
    ((∃ msg, i = .utx msg) ∧ s.ucfgDone = true ∧ t = accept i .utLoad false s) := by
  cases i <;>
    simp [exec, execKinit, execKscan, execKdec, execKwait, execUcfg, execUtx, hb, acceptIf_eq_next] at h <;>
    simp [h]

end Sys2Proof.Machine
end

