-- ==== Sys2Proof/Laws/PerInstr.lean ====
section
/-! SUPPORT. Statements about every command as syntax: the encoding of a well-formed command is as long as its first word
says, and its first word selects its own row of the opcode map (spec/30_encoding.md R105, R106). -/

namespace Sys2Proof

/-- The row of the opcode map a command belongs to (R105). -/
def Instr.opRow : Instr → OpRow
  | .kinit => .kinit
  | .kscan => .kscan
  | .kdec _ _ => .kdec
  | .kwait => .kwait
  | .ucfg _ _ _ _ _ => .ucfg
  | .utx _ => .utx

/-- The first word of the encoding selects the command's row, and asks for as many words as the encoding has. -/
def Laws.EncodedLength.Statement (i : Instr) : Prop :=
  i.WellFormed → ∃ w ws, encode i = w :: ws ∧ selectRow w = some i.opRow ∧ wordCount w = (encode i).length

theorem Laws.EncodedLength.kinit : Laws.EncodedLength.Statement .kinit :=
  fun _ => ⟨0x01000000, [], rfl, by decide, by decide⟩

theorem Laws.EncodedLength.kscan : Laws.EncodedLength.Statement .kscan :=
  fun _ => ⟨0x02000000, [], rfl, by decide, by decide⟩

theorem Laws.EncodedLength.kdec (row col : BitVec 8) : Laws.EncodedLength.Statement (.kdec row col) :=
  fun _ => ⟨_, [], rfl, selectRow_kdec row col, by rw [wordCount, selectRow_kdec]; rfl⟩

theorem Laws.EncodedLength.kwait : Laws.EncodedLength.Statement .kwait :=
  fun _ => ⟨0x04000000, [], rfl, by decide, by decide⟩

theorem Laws.EncodedLength.ucfg (stop data : BitVec 2) (parity : BitVec 3) (cd : BitVec 16) (bdiv : BitVec 8) :
    Laws.EncodedLength.Statement (.ucfg stop data parity cd bdiv) :=
  fun _ => ⟨_, _, rfl, selectRow_ucfg stop data parity, by rw [wordCount, selectRow_ucfg]; rfl⟩

theorem Laws.EncodedLength.utx (msg : List Byte) : Laws.EncodedLength.Statement (.utx msg) := by
  intro h
  have hlen : msg.length ≤ maxMessageLength := by simpa [Instr.WellFormed, Instr.wellFormed] using h
  refine ⟨_, _, rfl, selectRow_utx _, ?_⟩
  rw [wordCount, selectRow_utx]
  simp only [utx_length_field, BitVec.toNat_ofNat, encode, List.length_cons, List.length_map]
  rw [Nat.mod_eq_of_lt (by unfold maxMessageLength at hlen; omega), Nat.add_comm]

end Sys2Proof
end

