-- ==== Sys2Proof/Tests/Slice0.lean ====
section
/-! SUPPORT. Small tests of single steps, with results from spec/95_test_vectors.md and the examples of the rules, and one
witness for the hypotheses of every statement that has some. -/

namespace Sys2Proof.Tests

open Sys2Proof.Machine

/-! ### Helpers -/

/-- What a next state shows; none where the step stops. -/
def after {α : Type} (o : Out) (f : State → α) : Option α :=
  match o with
  | .next t => some (f t)
  | _ => none

/-- A configured block between operations: KINIT and UCFG have run (R132, R163), every contact is open. -/
def ready : State :=
  { State.reset with
    pdir := 0x00000780, poen := 0x00000780, pout := 0x00000780, rxen := true, txen := true, txemptyEn := true,
    txfullEn := true, kinitDone := true, ucfgDone := true }

/-- An operation of `i` in progress in the configured block, at a label. -/
def running (i : Instr) (l : SeqLabel) : State :=
  { ready with cmd := i, busy := true, waitmode := i == .kwait, seq := l }

/-- The contacts at the listed positions, and no other. -/
def contactsAt (ps : List (Row × Col)) : Contacts :=
  Vector.ofFn fun r => Vector.ofFn fun c => ps.any fun p => p.1.idx == r && p.2.idx == c

/-- A row of a pass at a sample: the row is driven low (R134), the given contacts are closed. -/
def sampling (i : Instr) (r : Row) (c : Col) (pout : Word) (ps : List (Row × Col)) : State :=
  { running i (.ksSample r c) with pout := pout, closed := contactsAt ps }

/-- The UCFG of vector U2. -/
def ucfgU2 : Instr := .ucfg 2 3 1 0x7C 6

/-- The UTX of "Hi" (vector T1). -/
def utxHi : Instr := .utx [0x48, 0x69]

/-- TXBUF with the three bytes of vector T1 at its front. -/
def hiBuffer : Vector Byte txbufCap := loadBuffer [0x48, 0x69] (Vector.replicate txbufCap 0)

/-- The UTX of "Hi" past UT_LOAD, at a label and an index. -/
def sendingHi (l : SeqLabel) (idx : Nat) : State :=
  { running utxHi l with txbuf := hiBuffer, txlen := 3, txidx := idx }

/-- A text of `n` zero bytes. -/
def zeros (n : Nat) : List Byte := List.replicate n 0

/-! ### Well-formedness: the one check there is, the length of a UTX (R104) -/

theorem zeros_wellFormed (n : Nat) : (Instr.utx (zeros n)).wellFormed = decide (n ≤ maxMessageLength) := by
  simp [Instr.wellFormed, zeros]

theorem test_wellFormed_refuses_long_utx : (Instr.utx (zeros 65536)).wellFormed = false := by
  rw [zeros_wellFormed]
  decide

theorem test_wellFormed_admits_longest_utx : (Instr.utx (zeros 65535)).wellFormed = true := by
  rw [zeros_wellFormed]
  decide

theorem test_wellFormed_others : [Instr.kinit, .kscan, .kdec 0x80 0x7F, .kwait, .ucfg 3 3 7 0xFFFF 0xFF].all
    (·.wellFormed) = true := by decide

/-! ### Decoding: words written bit by bit from the formats of R101 (spec/95_test_vectors.md 2.3, 2.5, 2.7) -/

theorem test_decode_kinit : decode [0b00000001_000000000000000000000000] = .ok (.kinit, []) := by rfl
theorem test_decode_kscan : decode [0b00000010_000000000000000000000000] = .ok (.kscan, []) := by rfl
theorem test_decode_kwait : decode [0b00000100_000000000000000000000000] = .ok (.kwait, []) := by rfl

/-- opcode 03, zero, row -128, column 4. -/
theorem test_decode_kdec : decode [0b00000011_00000000_10000000_00000100] = .ok (.kdec 0x80 0x04, []) := by rfl

/-- opcode 10, zero, stop 2, parity 1, data 3, zero; then zero, bdiv 6, cd 0x7C: vector U2. -/
theorem test_decode_ucfg : decode [0b00010000_0000000000000000_10_001_11_0, 0b00000000_00000110_0000000001111100] =
    .ok (.ucfg 2 3 1 0x7C 6, []) := by rfl

/-- opcode 20, zero, n = 2; then one byte a word; the word after the command stays. -/
theorem test_decode_utx : decode [0b00100000_00000000_0000000000000010, 0x48, 0x69, 0x01000000] =
    .ok (.utx [0x48, 0x69], [0x01000000]) := by rfl

theorem test_decode_illegal_first_words :
    [0x00000000, 0x05000000, 0xFF000000, 0x01000001, 0x03010303, 0x10000021, 0x10000120, 0x20010001].map selectRow =
      List.replicate 8 none := by decide

theorem test_decode_illegal_second_word : decode [0x10000020, 0x0106007C] = .error .illegalSecondWord := by rfl

theorem test_decode_illegal_payload : decode [0x20000001, 0x00000148] = .error .illegalPayloadWord := by rfl

/-- The host numbers the first word's least significant bit 0, and the second word's 32. -/
theorem test_decode_table_word : decodeTableWord 64 0x0006007C_1000008E = some (.ucfg 2 3 1 0x7C 6) ∧
    decodeTableWord 32 0x20000002 = some (.utx [0, 0]) := by decide

/-- A placed instruction is the one the next step runs: KDEC 3, 3 from reset (program P6). -/
theorem test_placed_kdec : after (step (State.reset.withFetchWord 32 0x03000303)) (fun t => (t.cmd, t.seq, t.busy)) =
    some (.kdec 3 3, .kdExec, true) := by decide

/-! ### Single steps of each command -/

/-- Vector I2: PDIR 0xDEADBEEF becomes 0xDEAD87EF. -/
theorem test_kinit_direction :
    after (exec .kinit { running .kinit .kiDirWr with pdir := 0xDEADBEEF, tmp := 0xDEADBEEF })
      (fun t => (t.pdir, t.seq)) = some (0xDEAD87EF, .kiOenRd) := by decide

/-- Vector I5: POUT 0x0F0F0F0F becomes 0x0F0F0F8F, and the operation ends. -/
theorem test_kinit_output :
    after (exec .kinit { running .kinit .kiOutWr with pout := 0x0F0F0F0F, tmp := 0x0F0F0F0F, kinitDone := false })
      (fun t => (t.pout, t.kinitDone, t.busy)) = some (0x0F0F0F8F, true, false) := by decide

/-- Section 2.2: with POUT 0xABCD8F85 row 3 is driven with 0xABCD8D85. -/
theorem test_kscan_drive :
    after (exec .kscan { running .kscan (.ksDrvWr .r3) with pout := 0xABCD8F85, tmp := 0xABCD8F85 })
      (fun t => (t.pout, t.seq)) = some (0xABCD8D85, .ksSample .r3 .c4) := by decide

/-- Vector K2: KS_SAMPLE(2, 6) with contact (2, 2) closed records it. -/
theorem test_kscan_sample :
    after (exec .kscan (sampling .kscan .r2 .c2 0x00000680 [(.r2, .c2)])) (fun t => (t.row, t.col, t.hit, t.seq)) =
      some (2, 2, true, .ksSample .r2 .c1) := by decide

/-- Section 2.3: (-128, 4) gives -119. -/
theorem test_kdec_negative :
    after (exec (.kdec 0x80 0x04) (running (.kdec 0x80 0x04) .kdExec)) (fun t => (t.key, t.busy)) =
      some (0xFFFFFF89, false) := by decide

/-- Section 2.3: the position (4, 4) gives 13, by the second branch (R236). -/
theorem test_kdec_corner :
    after (exec (.kdec 4 4) (running (.kdec 4 4) .kdExec)) (fun t => t.key) = some 13 := by decide

/-- R145: a pass that found no key is followed by another. -/
theorem test_kwait_again :
    after (exec .kwait (running .kwait .ksEnd)) (fun t => (t.key, t.busy, t.seq, t.waitmode)) =
      some (0xFFFFFFFF, true, .ksBegin, true) := by decide

/-- Vector W3: key code 0, of position (4, 1), ends the wait. -/
theorem test_kwait_code_zero :
    after (exec .kwait { running .kwait .ksEnd with hit := true, row := 4, col := 1 })
      (fun t => (t.key, t.busy, t.waitmode)) = some (0, false, false) := by decide

/-- R273: UC_RESET discards the byte 0x41, which never reaches txlog. -/
theorem test_ucfg_discards :
    after (exec ucfgU2 { running ucfgU2 .ucReset with fifo := [0x41], txfull := true })
      (fun t => (t.fifo, t.txfull, t.txlog, ucrWord t)) = some ([], false, [], 0x00000003) := by decide

/-- Vector U2: UMR reads 0x8E. -/
theorem test_ucfg_mode :
    after (exec ucfgU2 (running ucfgU2 .ucMode)) (fun t => umrWord t) = some 0x0000008E := by decide

/-- Vector T7: of 64 bytes 0x20 to 0x5F the last is dropped, and the terminator stands at index 63. -/
theorem test_utx_cut :
    let msg := (List.range 64).map fun k => BitVec.ofNat 8 (0x20 + k)
    after (exec (.utx msg) (running (.utx msg) .utLoad))
      (fun t => (t.txlen, t.txbuf[0]?, t.txbuf[62]?, t.txbuf[63]?)) =
      some (64, some 0x20, some 0x5E, some 0x00) := by decide +kernel

/-- Vector T1: with FIFO_DEPTH 1 the first byte fills the FIFO and sets TXFULL. -/
theorem test_utx_write :
    after (exec utxHi (sendingHi .utWrite 0)) (fun t => (t.fifo, uisrWord t, t.txidx, t.seq)) =
      some ([0x48], 0x00000010, 1, .utCheck) := by decide +kernel

/-! ### Single steps of the other agents (spec/95_test_vectors.md 2.8) -/

/-- With FIFO_DEPTH 2 the second byte sets TXFULL; bits 31:8 of the written value are ignored. -/
theorem test_fifo_write :
    after (memWrite .ufifo 0x00000142 { ready with fifoExtra := 1, fifo := [0x41] })
      (fun t => (t.fifo, uisrWord t)) = some ([0x41, 0x42], 0x00000010) := by decide

/-- Draining does not clear TXFULL. -/
theorem test_dequeue :
    after (step { ready with fifoExtra := 1, fifo := [0x41, 0x42], txfull := true, agenda := [.dequeue] })
      (fun t => (t.fifo, t.txlog, uisrWord t)) = some ([0x42], [0x41], 0x00000010) := by decide

/-- A write into a full FIFO is the model fault TxOverrun. -/
theorem test_fifo_overrun : memWrite .ufifo 0x45 { ready with fifo := [0x43] } = .fault (.txOverrun 0x45) := by rfl

/-- Program P6: KSCAN from the reset state is refused. -/
theorem test_use_before_init : exec .kscan State.reset = .refused .useBeforeInit := by rfl

/-! ### States that meet the invariant -/

theorem inv_ready : BlockInv ready := by
  refine ⟨⟨?_, ?_, ?_⟩, ⟨?_, ?_, ?_, ?_, ?_, ?_⟩, ⟨?_, ?_, ?_, ?_, ?_, ?_, ?_, ?_, ?_⟩⟩ <;> decide

/-- The first sample of the last row, with the one contact of its column closed. -/
theorem inv_sampling : BlockInv (sampling .kscan .r1 .c4 0x00000700 [(.r1, .c4)]) := by
  refine ⟨⟨?_, ?_, ?_⟩, ⟨?_, ?_, ?_, ?_, ?_, ?_⟩, ⟨?_, ?_, ?_, ?_, ?_, ?_, ?_, ?_, ?_⟩⟩ <;> decide

/-- The last sample of the first row, with its contact open. -/
theorem inv_sampling_open : BlockInv (sampling .kwait .r4 .c1 0x00000380 []) := by
  refine ⟨⟨?_, ?_, ?_⟩, ⟨?_, ?_, ?_, ?_, ?_, ?_⟩, ⟨?_, ?_, ?_, ?_, ?_, ?_, ?_, ?_, ?_⟩⟩ <;> decide

/-- Vector K11: the sample of (3, 2) with (1, 2) closed too. -/
theorem inv_sampling_contention : BlockInv (sampling .kscan .r3 .c2 0x00000580 [(.r1, .c2), (.r3, .c2)]) := by
  refine ⟨⟨?_, ?_, ?_⟩, ⟨?_, ?_, ?_, ?_, ?_, ?_⟩, ⟨?_, ?_, ?_, ?_, ?_, ?_, ?_, ?_, ?_⟩⟩ <;> decide

/-- The last micro-step of a repeated KINIT. -/
theorem inv_kinit_end : BlockInv { running .kinit .kiOutWr with tmp := 0x00000780 } := by
  refine ⟨⟨?_, ?_, ?_⟩, ⟨?_, ?_, ?_, ?_, ?_, ?_⟩, ⟨?_, ?_, ?_, ?_, ?_, ?_, ?_, ?_, ?_⟩⟩ <;> decide

/-- KS_END of a KSCAN that recorded the corner (4, 4), and of one that recorded nothing. -/
theorem inv_scan_end : BlockInv { running .kscan .ksEnd with hit := true, row := 4, col := 4 } ∧
    BlockInv (running .kscan .ksEnd) := by
  constructor <;>
    refine ⟨⟨?_, ?_, ?_⟩, ⟨?_, ?_, ?_, ?_, ?_, ?_⟩, ⟨?_, ?_, ?_, ?_, ?_, ?_, ?_, ?_, ?_⟩⟩ <;> decide

/-- UTX "Hi" about to write its last byte, the terminator; and polling for its second byte. -/
theorem inv_sending : BlockInv (sendingHi .utWrite 2) ∧ BlockInv { sendingHi .utPoll 1 with fifo := [0x48] } := by
  constructor <;>
    refine ⟨⟨?_, ?_, ?_⟩, ⟨?_, ?_, ?_, ?_, ?_, ?_⟩, ⟨?_, ?_, ?_, ?_, ?_, ?_, ?_, ?_, ?_⟩⟩ <;> decide

/-- UT_CHECK with TXFULL = 0, from which a step comes to UT_WRITE. -/
theorem inv_checking : BlockInv (sendingHi .utCheck 0) := by
  refine ⟨⟨?_, ?_, ?_⟩, ⟨?_, ?_, ?_, ?_, ?_, ?_⟩, ⟨?_, ?_, ?_, ?_, ?_, ?_, ?_, ?_, ?_⟩⟩ <;> decide

/-! ### The hypotheses of every statement are met somewhere -/

theorem test_hyps_DecodeReadsBackEncode : (Instr.utx (zeros 65535)).WellFormed ∧
    (Instr.kdec 0x80 0x7F).WellFormed ∧ (Instr.ucfg 3 3 7 0xFFFF 0xFF).WellFormed :=
  ⟨test_wellFormed_admits_longest_utx, rfl, rfl⟩

theorem test_hyps_EncodeReadsBackDecode : decode [0x20000001, 0xFF, 7] = .ok (.utx [0xFF], [7]) := by rfl

theorem test_hyps_OperandFields :
    (0x0300807F#32 &&& 0xFFFF0000 = 0x03000000) ∧
    (0x100000FE#32 &&& 0xFFFFFF01 = 0x10000000 ∧ 0x00FFFFFF#32 &&& 0xFF000000 = 0) ∧
    (0x20000001#32 &&& 0xFFFF0000 = 0x20000000 ∧ [0xFF#32].length = ((0x20000001#32).extractLsb' 0 16).toNat ∧
      ∀ p ∈ [0xFF#32], p &&& 0xFFFFFF00 = 0) := by
  refine ⟨by decide, by decide, by decide, by decide, by simp⟩

theorem test_hyps_IllegalWordsRefused :
    (∀ r ∈ opcodeRows, 0x01000001 &&& r.mask ≠ r.pattern) ∧
    (0x10000020#32 &&& 0xFFFFFF01 = 0x10000000 ∧ 0x01000000#32 &&& 0xFF000000 ≠ 0) ∧
    (0x20000001#32 &&& 0xFFFF0000 = 0x20000000 ∧ ((0x20000001#32).extractLsb' 0 16).toNat ≤ [0x100#32].length ∧
      ∃ p ∈ [0x100#32].take ((0x20000001#32).extractLsb' 0 16).toNat, p &&& 0xFFFFFF00 ≠ 0) ∧
    (let s := { ready with cmds := [0x06000000] }
     s.busy = false ∧ nextEvent s = .hostIssue ∧ s.cmds ≠ []) ∧
    decode [0x06000000] = .error .illegalFirstWord := by
  refine ⟨by decide, by decide, ⟨by decide, by decide, 0x100, ?_, by decide⟩, by decide, rfl⟩
  rw [show ((0x20000001#32).extractLsb' 0 16).toNat = 1 by decide]
  decide

theorem test_hyps_StepRunsIssuedCommand :
    let s := { ready with cmds := [0x01000000], agenda := [.hostIssue] }
    let d := { ready with cmds := [0x01000000] }
    (s.busy = false ∧ nextEvent s = .hostIssue ∧ s.agenda = .hostIssue :: [] ∧ d.agenda = [] ∧ d.busy = false) ∧
    decode s.cmds = .ok (.kinit, []) := by
  exact ⟨by decide, rfl⟩

theorem test_hyps_StepRunsMicroStep :
    let s := { running .kinit .kiDirRd with agenda := [.seq] }
    s.busy = true ∧ nextEvent s = .seq ∧ s.agenda = .seq :: [] ∧ (running .kinit .kiDirRd).agenda = [] := by decide

theorem test_hyps_StepRunsPlacedWord : decodeTableWord 32 0x0300FF04 = some (.kdec 0xFF 0x04) := by decide

theorem test_hyps_StepsNotEnabledChangeNothing :
    (∀ e ∈ [Event.hostIssue, .hostRead, .other .pdir 0],
      let s := { running .kinit .kiDirRd with agenda := [e] }
      s.busy = true ∧ nextEvent s = e) ∧
    (let s := { ready with agenda := [.seq] }
     s.busy = false ∧ nextEvent s = .seq) ∧
    (ready.busy = false ∧ ready.cmds = [] ∧ nextEvent ready = .hostIssue) ∧
    (∀ s ∈ [{ ready with agenda := [.dequeue] }, { ready with agenda := [.dequeue], txen := false, fifo := [1] },
        { ready with agenda := [.dequeue], txrst := true, fifo := [1] }],
      (s.txen = false ∨ s.txrst = true ∨ s.fifo = []) ∧ nextEvent s = .dequeue) ∧
    (let s := { ready with agenda := [.resetDone true false] }
     s.txrst = false ∧ s.rxrst = false ∧ nextEvent s = .resetDone true false) := by decide

theorem test_hyps_ResetGivesStatedValues :
    nextEvent { sendingHi .utPoll 1 with fifo := [0x48], agenda := [.powerOn] } = .powerOn := by rfl

/-- Every label of an operation in progress is met by a state: for the statements of the micro-steps. -/
theorem running_meets (i : Instr) (l : SeqLabel) :
    (running i l).busy = true ∧ (running i l).cmd = i ∧ (running i l).seq = l := ⟨rfl, rfl, rfl⟩

theorem test_hyps_KinitMicroSteps : ready.busy = false ∧
    ∀ l ∈ [SeqLabel.kiDirRd, .kiDirWr, .kiOenRd, .kiOenWr, .kiOutRd, .kiOutWr],
      (running .kinit l).busy = true ∧ (running .kinit l).cmd = .kinit ∧ (running .kinit l).seq = l := by decide

theorem test_hyps_KinitWholeOperation : State.reset.busy = false := rfl

theorem test_hyps_KinitFrame : (after (exec .kinit (running .kinit .kiOutRd)) id).isSome = true := by decide

theorem test_hyps_RowsIdleHigh :
    let s := { running .kinit .kiOutWr with tmp := 0x00000780 }
    after (step s) (fun t => (t.kinitDone, t.busy)) = some (true, false) := by decide

theorem test_hyps_ForeignBitsKept :
    let s := { running .kinit .kiOutWr with tmp := 0x00000780 }
    nextEvent s = .seq ∧ s.kinitDone = true ∧ nextEvent ready = .hostIssue ∧ (after (step s) id).isSome = true ∧
      (after (step ready) id).isSome = true := by decide

theorem test_hyps_KscanMicroSteps :
    (ready.busy = false ∧ ready.kinitDone = true) ∧ (State.reset.busy = false ∧ State.reset.kinitDone = false) ∧
    (∀ l ∈ [SeqLabel.ksBegin, .ksDrvRd .r4, .ksDrvWr .r1, .ksRstRd .r4, .ksRstWr .r4, .ksRstWr .r3, .ksRstWr .r2,
        .ksRstWr .r1, .ksEnd],
      (running .kscan l).busy = true ∧ (running .kscan l).cmd = .kscan ∧ (running .kscan l).seq = l) ∧
    (running .kscan .ksEnd).waitmode = false := by decide

theorem test_hyps_KwaitMicroSteps :
    (∀ l ∈ [SeqLabel.ksBegin, .ksDrvRd .r4, .ksDrvWr .r1, .ksRstRd .r4, .ksRstWr .r4, .ksRstWr .r3, .ksRstWr .r2,
        .ksRstWr .r1, .ksEnd],
      (running .kwait l).busy = true ∧ (running .kwait l).cmd = .kwait ∧ (running .kwait l).seq = l) ∧
    (running .kwait .ksEnd).waitmode = true ∧ (endCode (running .kwait .ksEnd)).toInt < 0 ∧
    0 ≤ (endCode { running .kwait .ksEnd with hit := true, row := 4, col := 1 }).toInt := by decide

theorem test_hyps_SampleTestsOneBit :
    let s := sampling .kscan .r1 .c4 0x00000700 [(.r1, .c4)]
    let w := sampling .kwait .r4 .c1 0x00000380 []
    (s.busy = true ∧ s.cmd = .kscan ∧ s.seq = .ksSample .r1 .c4) ∧
    (w.busy = true ∧ w.cmd = .kwait ∧ w.seq = .ksSample .r4 .c1) := by decide

/-- The invariant for it is `inv_sampling`, `inv_sampling_open` and `inv_sampling_contention`. -/
theorem test_hyps_SampleSeesContacts :
    (let s := sampling .kscan .r1 .c4 0x00000700 [(.r1, .c4)]
     contact s.closed .r1 .c4 = true ∧ ∀ r' ∈ allRows, r' ≠ .r1 → contact s.closed r' .c4 = false) ∧
    contact (sampling .kwait .r4 .c1 0x00000380 []).closed .r4 .c1 = false ∧
    (let s := sampling .kscan .r3 .c2 0x00000580 [(.r1, .c2), (.r3, .c2)]
     contact s.closed .r3 .c2 = true ∧ Row.r1 ≠ .r3 ∧ contact s.closed .r1 .c2 = true) := by decide

/-- Contacts of which no two share a column: one in each, in different rows. -/
theorem onePerColumn_diagonal : OnePerColumn (contactsAt [(.r1, .c1), (.r2, .c2), (.r3, .c3), (.r4, .c4)]) := by
  intro c r r'
  cases c <;> cases r <;> cases r' <;> decide

theorem test_hyps_RecordedContactClosed :
    (pinWord (sampling .kscan .r1 .c4 0x00000700 [(.r1, .c4)])).getLsbD (portLsb + (Col.num .c4 + 4) - 1) = false := by
  rw [pinWord_getLsbD _ _ (by decide)]
  decide

theorem test_hyps_RecordedContactClosed_alone :
    let s := sampling .kscan .r1 .c4 0x00000700 [(.r1, .c4)]
    s.seq = .ksSample .r1 .c4 ∧ contact s.closed .r1 .c4 = true ∧
      ∀ r' ∈ allRows, r' ≠ .r1 → contact s.closed r' .c4 = false := by decide

/-- Vector K8 and its like: the start of a pass with one contact in each column. -/
theorem test_hyps_ScanPassReportsLastClosed :
    let s := { running .kscan .ksBegin with closed := contactsAt [(.r1, .c1), (.r2, .c2), (.r3, .c3), (.r4, .c4)] }
    s.busy = true ∧ s.cmd = .kscan ∧ s.seq = .ksBegin ∧ s.waitmode = false ∧
      (win s.pdir = 0x0F ∧ win s.poen = 0x0F ∧ win s.pout &&& 0x0F = 0x0F) ∧
      lastClosed s.closed = some (.r1, .c1) ∧ lastClosed (running .kscan .ksBegin).closed = none := by decide

theorem test_hyps_WaitPassEndsOnKey :
    let s := { running .kwait .ksBegin with closed := contactsAt [(.r1, .c1), (.r2, .c2), (.r3, .c3), (.r4, .c4)] }
    s.busy = true ∧ s.cmd = .kwait ∧ s.seq = .ksBegin ∧ s.waitmode = true ∧
      (win s.pdir = 0x0F ∧ win s.poen = 0x0F ∧ win s.pout &&& 0x0F = 0x0F) ∧
      lastClosed s.closed ≠ none ∧ lastClosed (running .kwait .ksBegin).closed = none := by decide

/-- A KWAIT with every contact open, about to take its last sample. -/
theorem test_hyps_WaitHangsWithoutKey :
    WaitingForKey (sampling .kwait .r4 .c1 0x00000380 []) ∧
    (let s := sampling .kwait .r4 .c1 0x00000380 []
     (after (step s) id).isSome = true ∧ nextEvent s = .seq) :=
  ⟨⟨inv_sampling_open, rfl, rfl, by intro r c; cases r <;> cases c <;> decide, fun _ => rfl⟩, by decide⟩

/-- KS_END of a KWAIT with a recorded position, and of one without; those of KSCAN are `inv_scan_end`. -/
theorem inv_wait_end : BlockInv { running .kwait .ksEnd with hit := true, row := 4, col := 1 } ∧
    BlockInv (running .kwait .ksEnd) := by
  constructor <;>
    refine ⟨⟨?_, ?_, ?_⟩, ⟨?_, ?_, ?_, ?_, ?_, ?_⟩, ⟨?_, ?_, ?_, ?_, ?_, ?_, ?_, ?_, ?_⟩⟩ <;> decide

/-- The invariants for it are `inv_scan_end` and `inv_wait_end`. -/
theorem test_hyps_ScanResultRange :
    (let s := { running .kscan .ksEnd with hit := true, row := 4, col := 4 }
     s.cmd = .kscan ∧ s.seq = .ksEnd) ∧
    (let s := { running .kwait .ksEnd with hit := true, row := 4, col := 1 }
     s.cmd = .kwait ∧ s.seq = .ksEnd ∧ s.hit = true) ∧
    (running .kwait .ksEnd).hit = false := by decide

theorem test_hyps_ScanFrame : (after (exec .kscan (running .kscan (.ksRstWr .r1))) id).isSome = true ∧
    (after (exec .kwait (running .kwait .ksEnd)) id).isSome = true := by decide

theorem test_hyps_KdecMicroSteps : ready.busy = false ∧ (running (.kdec 0x80 0x7F) .kdExec).busy = true ∧
    (running (.kdec 0x80 0x7F) .kdExec).cmd = .kdec 0x80 0x7F ∧
    (running (.kdec 0x80 0x7F) .kdExec).seq = .kdExec := by decide

/-- One pair for each branch, where the branches meet: (3, 3), (4, 4), (4, 1), (4, 2) and (4, 0), (5, 3). -/
theorem test_hyps_DecodeBranches :
    (1 ≤ (3 : Int) ∧ (3 : Int) < 4) ∧ (4 : Int) = 4 ∧ ((2 : Int) < 4 ∧ (2 : Int) ≠ 1) ∧ ((0 : Int) < 4 ∧ (0 : Int) ≠ 1) ∧
    (¬ (1 ≤ (5 : Int) ∧ (5 : Int) < 4 ∧ 1 ≤ (3 : Int) ∧ (3 : Int) < 4) ∧ (3 : Int) ≠ 4 ∧
      ¬ ((5 : Int) = 4 ∧ (3 : Int) < 4)) := by decide

/-- The pair (0, 3) for the last general clause, beside the matrix. -/
theorem test_hyps_DecodeArithmetic :
    ((0 : Int) < 1 ∧ (3 : Int) ≠ 4 ∧ ¬ ((0 : Int) = 4 ∧ (3 : Int) ≤ 0)) ∧ (0 : Int) ≤ 0 := by decide

theorem test_hyps_KdecFrame :
    (after (exec (.kdec 5 1) (running (.kdec 5 1) .kdExec)) id).isSome = true ∧
    (after (exec (.kdec 5 1) ready) id).isSome = true := by decide

theorem test_hyps_UcfgMicroSteps : ready.busy = false ∧
    (∀ l ∈ [SeqLabel.ucReset, .ucWait, .ucEnable, .ucMode, .ucBg, .ucBd, .ucIen],
      (running ucfgU2 l).busy = true ∧ (running ucfgU2 l).cmd = ucfgU2 ∧ (running ucfgU2 l).seq = l) ∧
    ((running ucfgU2 .ucWait).rxrst = false ∧ (running ucfgU2 .ucWait).txrst = false) ∧
    { running ucfgU2 .ucWait with rxrst := true }.rxrst = true := by decide

theorem test_hyps_UcfgWholeOperation :
    let s := { ready with
      fifo := [0x41], txfull := true, cmds := [0x1000008E, 0x0006007C],
      agenda := [.hostIssue, .seq, .resetDone true true, .seq, .seq, .seq, .seq, .seq, .seq] }
    s.busy = false ∧ s.cmds = encode (.ucfg 2 3 1 0x7C 6) ++ [] ∧
      s.agenda = [.hostIssue, .seq, .resetDone true true, .seq, .seq, .seq, .seq, .seq, .seq] ++ [] := by decide

/-- Vector U2 at its last micro-step, and at UC_RESET. -/
theorem test_hyps_UcfgLeavesConfigured :
    UcfgProgress 2 3 1 0x7C 6 [0x41]
      { running ucfgU2 .ucIen with nbstop := 2, chrl := 3, par := 1, cd := 0x7C, bdiv := 6, txlog := [0x41] } ∧
    UcfgProgress 2 3 1 0x7C 6 [0x41]
      { ready with nbstop := 2, chrl := 3, par := 1, cd := 0x7C, bdiv := 6, txlog := [0x41] } ∧
    (after (step (running ucfgU2 .ucIen)) id).isSome = true ∧ nextEvent (running ucfgU2 .ucIen) = .seq ∧
    nextEvent { ready with agenda := [.dequeue] } = .dequeue ∧
    ((running ucfgU2 .ucReset).busy = true ∧ (running ucfgU2 .ucReset).cmd = ucfgU2 ∧
      (running ucfgU2 .ucReset).seq = .ucReset) :=
  ⟨⟨.inl (by decide), by decide⟩, ⟨.inr (by decide), by decide⟩, by decide⟩

theorem test_hyps_BaudPairReachesRegisters :
    let s := running (.ucfg 3 3 7 0xFFFF 0xFF)
    ((s .ucBg).busy = true ∧ (s .ucBg).cmd = .ucfg 3 3 7 0xFFFF 0xFF ∧ (s .ucBg).seq = .ucBg) ∧
    ((s .ucBd).busy = true ∧ (s .ucBd).cmd = .ucfg 3 3 7 0xFFFF 0xFF ∧ (s .ucBd).seq = .ucBd) := by decide

theorem test_hyps_UcfgWaitsForReset :
    let s := { running ucfgU2 .ucWait with rxrst := true }
    let u := { running ucfgU2 .ucWait with txrst := true, agenda := [.dequeue] }
    (s.busy = true ∧ s.cmd = ucfgU2 ∧ s.seq = .ucWait ∧ s.rxrst = true ∧ s.agenda = []) ∧
    (u.busy = true ∧ u.cmd = ucfgU2 ∧ u.seq = .ucWait ∧ u.txrst = true) ∧ nextEvent u = .dequeue := by decide

theorem test_hyps_UcfgFrame : (after (exec ucfgU2 (running ucfgU2 .ucReset)) id).isSome = true := by decide

theorem test_hyps_UtxMicroSteps :
    (ready.busy = false ∧ ready.ucfgDone = true) ∧ State.reset.ucfgDone = false ∧
    (∀ l ∈ [SeqLabel.utLoad, .utCheck, .utClear, .utPoll, .utWrite],
      (running utxHi l).busy = true ∧ (running utxHi l).cmd = utxHi ∧ (running utxHi l).seq = l) ∧
    (running utxHi .utCheck).txfull = false ∧ { running utxHi .utCheck with txfull := true }.txfull = true ∧
    (running utxHi .utPoll).fifo = [] ∧ { running utxHi .utPoll with fifo := [1] }.fifo ≠ [] ∧
    (let s := sendingHi .utWrite 2
     s.txbuf[s.txidx]? = some 0x00 ∧ s.txrst = false ∧ s.fifo.length < s.fifoDepth) := by decide +kernel

/-- The lengths where the cut begins, 63 and 64 bytes, and the index 63 of the last place. -/
theorem test_hyps_UtxLoadCutsAndTerminates :
    (∀ n ∈ [0, 63, 64], (running (.utx (zeros n)) .utLoad).busy = true ∧
      (running (.utx (zeros n)) .utLoad).cmd = .utx (zeros n) ∧ (running (.utx (zeros n)) .utLoad).seq = .utLoad) ∧
    62 < min (zeros 64).length 63 ∧ min (zeros 62).length 63 < 63 := by decide

/-- A FIFO with room for exactly the text and its terminator. -/
theorem test_hyps_UtxFastPath :
    let s := { ready with fifoExtra := 3, fifo := [0x41] }
    s.busy = false ∧ s.ucfgDone = true ∧ s.txrst = false ∧ s.txfull = false ∧
      s.fifo.length + (sentBytes [0x48, 0x69]).length ≤ s.fifoDepth := by decide

theorem test_hyps_UtxWaitsForEmpty :
    let s := { sendingHi .utPoll 1 with fifo := [0x48] }
    (s.busy = true ∧ s.cmd = .utx [0x48, 0x69] ∧ s.seq = .utPoll ∧ s.fifo ≠ [] ∧ s.agenda = []) ∧
      nextEvent s ≠ .dequeue ∧ nextEvent s ≠ .powerOn := by decide

/-- The invariant for it is `inv_checking`. -/
theorem test_hyps_NoWriteWhileFull : after (step (sendingHi .utCheck 0)) (fun t => t.seq) = some .utWrite := by decide

/-- UTX "Hi" with its first byte sent, on top of an empty account; the invariant is `inv_sending`. -/
theorem test_hyps_UtxKeepsEveryByte :
    UtxProgress [] [0x48, 0x69] { sendingHi .utPoll 1 with fifo := [0x48] } ∧
    nextEvent { sendingHi .utPoll 1 with fifo := [0x48] } ≠ .powerOn ∧
    (after (step { sendingHi .utPoll 1 with fifo := [0x48] }) id).isSome = true ∧
    (ready.busy = false ∧ ready.ucfgDone = true) := by
  refine ⟨.inr (.inl ⟨rfl, rfl, rfl, rfl, ?_, rfl⟩), by decide, by decide, by decide⟩
  exact fun j hj => loadBuffer_sent [0x48, 0x69] _ j hj

theorem test_hyps_UtxFrame : (after (exec utxHi (sendingHi .utWrite 2)) id).isSome = true := by decide +kernel

/-- The listed events, then SEQ's for ever. -/
def thenSeq (es : List Event) (n : Nat) : Event := es.getD n .seq

/-- The states of the run under such a schedule. -/
def followed (es : List Event) (s : State) : Nat → State
  | 0 => s
  | n + 1 =>
    match step { followed es s n with agenda := [thenSeq es n] } with
    | .next t => t
    | _ => followed es s n

/-- A run whose listed events all complete, and leave the block idle, with nothing pending and the FIFO empty, is an
infinite run and a fair one. -/
theorem followed_fair (es : List Event) (s : State)
    (hsteps : ∀ n, n < es.length → (after (step { followed es s n with agenda := [thenSeq es n] }) id).isSome = true)
    (hend : (followed es s es.length).agenda = [] ∧ (followed es s es.length).busy = false ∧
      resetPending (followed es s es.length) = false ∧ dequeueEnabled (followed es s es.length) = false) :
    ScheduledRun (thenSeq es) (followed es s) ∧ DeviceFair (thenSeq es) (followed es s) ∧
      SequencerFair (thenSeq es) (followed es s) := by
  obtain ⟨ha, hb, hr, hd⟩ := hend
  have hstay : step { followed es s es.length with agenda := [.seq] } = .next (followed es s es.length) := by
    generalize followed es s es.length = u at *
    cases u
    simp_all [step, runEvent, seqStep, nextEvent, takeEvent]
  have hlast : ∀ k, followed es s (es.length + k) = followed es s es.length := by
    intro k
    induction k with
    | zero => rfl
    | succ k ih =>
      have he : thenSeq es (es.length + k) = .seq := by simp [thenSeq]
      rw [← Nat.add_assoc, followed, ih, he, hstay]
  have hafter : ∀ n, es.length ≤ n → followed es s n = followed es s es.length := by
    intro n hn
    rw [← hlast (n - es.length), Nat.add_sub_cancel' hn]
  refine ⟨fun n => ?_, ⟨fun n h => ?_, fun n h => ?_⟩, fun n h => ?_⟩
  · by_cases hn : n < es.length
    · have := hsteps n hn
      rw [followed]
      generalize step { followed es s n with agenda := [thenSeq es n] } = o at *
      cases o <;> simp_all [after]
    · have he : thenSeq es n = .seq := by simp [thenSeq, Nat.le_of_not_lt hn]
      rw [hafter n (by omega), hafter (n + 1) (by omega), he, hstay]
  · exact absurd (h (max n es.length) (by omega)) (by rw [hafter _ (by omega), hr]; decide)
  · exact absurd (h (max n es.length) (by omega)) (by rw [hafter _ (by omega), hd]; decide)
  · exact absurd (h (max n es.length) (by omega)) (by rw [hafter _ (by omega), hb]; decide)

/-- A UCFG waiting for both resets, which the device clears one at a time, to its end. -/
theorem test_hyps_UartOperationsEndUnderFairness_ucfg :
    let es := [Event.resetDone true false, .seq, .resetDone false true, .seq, .seq, .seq, .seq, .seq, .seq]
    let s := { running ucfgU2 .ucWait with rxrst := true, txrst := true, rxen := false, txen := false }
    (ScheduledRun (thenSeq es) (followed es s) ∧ DeviceFair (thenSeq es) (followed es s) ∧
      SequencerFair (thenSeq es) (followed es s)) ∧ BlockInv s ∧ uartBusy s = true := by
  refine ⟨followed_fair _ _ (by decide +kernel) (by decide +kernel), ?_, by decide⟩
  refine ⟨⟨?_, ?_, ?_⟩, ⟨?_, ?_, ?_, ?_, ?_, ?_⟩, ⟨?_, ?_, ?_, ?_, ?_, ?_, ?_, ?_, ?_⟩⟩ <;> decide

/-- UTX "Hi" polling for its second byte; the device takes each byte in turn (vector T2). The invariant is
`inv_sending`. -/
theorem test_hyps_UartOperationsEndUnderFairness_utx :
    let es := [Event.seq, .dequeue, .seq, .seq, .seq, .seq, .dequeue, .seq, .seq, .dequeue]
    let s := { sendingHi .utPoll 1 with fifo := [0x48] }
    (ScheduledRun (thenSeq es) (followed es s) ∧ DeviceFair (thenSeq es) (followed es s) ∧
      SequencerFair (thenSeq es) (followed es s)) ∧ uartBusy s = true :=
  ⟨followed_fair _ _ (by decide +kernel) (by decide +kernel), by decide⟩

/-- Neither schedule holds a reset event. -/
theorem thenSeq_ne_powerOn {es : List Event} (h : Event.powerOn ∉ es) (n : Nat) : thenSeq es n ≠ .powerOn := by
  unfold thenSeq
  rw [List.getD_eq_getElem?_getD]
  cases he : es[n]? with
  | none => simp
  | some e => exact fun hc => h (hc ▸ List.mem_of_getElem? he)

theorem test_hyps_FifoWriteEffect :
    (ready.txrst = false ∧ ready.fifo.length < ready.fifoDepth) ∧
    (let s := { ready with fifo := [0x43] }
     s.txrst = false ∧ s.fifoDepth ≤ s.fifo.length) ∧
    { ready with txrst := true }.txrst = true := by decide

theorem test_hyps_UcrWriteEffect : (3#32).getLsbD 1 = true ∧ (3#32).getLsbD 0 = true ∧ (0x14#32).getLsbD 1 = false ∧
    (0x14#32).getLsbD 0 = false := by decide

theorem test_hyps_DeviceSteps :
    nextEvent { ready with agenda := [.resetDone true true] } = .resetDone true true ∧
    (let s := { ready with fifo := [0x41], agenda := [.dequeue] }
     nextEvent s = .dequeue ∧ s.txen = true ∧ s.txrst = false ∧ s.fifo = 0x41 :: []) := by decide

theorem test_hyps_DeviceStateOwnership :
    (after (step (sendingHi .utClear 0)) id).isSome = true ∧ nextEvent (sendingHi .utClear 0) ≠ .powerOn := by decide

theorem test_hyps_RegistersReadBack : memRead .ubd ready = .next (ubdWord ready, ready) := rfl

theorem test_hyps_RegisterWriteFrame : memWrite .ubg 0xFFFF ready = .next (writeUbg 0xFFFF ready) ∧
    Reg.ubd ≠ .ubg ∧ Reg.ubd ≠ .pin ∧ ¬ (Reg.ubd = .uisr ∧ (Reg.ubg = .ucr ∨ Reg.ubg = .ufifo)) ∧
    memRead .ubd ready = .next (ubdWord ready, ready) := ⟨rfl, by decide, by decide, by decide, rfl⟩

/-- The three cases of a column, joined to a high row only, to a low row only, to both; and a row that is not driven. -/
theorem test_hyps_PinReadLevels :
    driven ready (Row.bit .r4) = true ∧ driven ready (Col.bit .c1) = false ∧
    (let s := { ready with closed := contactsAt [(.r4, .c1)] }
     contact s.closed .r4 .c1 = true ∧ driven s (Row.bit .r4) = true ∧ s.pout.getLsbD (Row.bit .r4) = true) ∧
    (let s := { ready with closed := contactsAt [(.r4, .c1)], pout := 0x00000380 }
     contact s.closed .r4 .c1 = true ∧ driven s (Row.bit .r4) = true ∧ s.pout.getLsbD (Row.bit .r4) = false) ∧
    (let s := { ready with closed := contactsAt [(.r4, .c1), (.r1, .c1)], pout := 0x00000380 }
     contact s.closed .r1 .c1 = true ∧ driven s (Row.bit .r1) = true ∧ s.pout.getLsbD (Row.bit .r1) = true) ∧
    driven State.reset (Row.bit .r1) = false ∧ ((6 < 7) ∧ 15 ≤ 15) := by decide

theorem test_hyps_HostReadsKey :
    let s := { ready with agenda := [.hostRead] }
    s.busy = false ∧ nextEvent s = .hostRead := by decide

theorem test_hyps_EnvironmentSteps :
    nextEvent { ready with agenda := [.keys noContacts] } = .keys noContacts ∧
    (let s := { ready with agenda := [.other .pout 0xFFFFFFFF] }
     s.busy = false ∧ nextEvent s = .other .pout 0xFFFFFFFF) := by decide

theorem test_hyps_LatchesHold :
    let s := sendingHi .utCheck 0
    (after (step s) id).isSome = true ∧ nextEvent s ≠ .powerOn ∧ s.kinitDone = true ∧ s.ucfgDone = true ∧
      s.busy = true := by decide

/-- The invariant for it is `inv_checking`. -/
theorem test_hyps_StepKeepsInvariant : (after (step (sendingHi .utCheck 0)) id).isSome = true := by decide

/-- The invariant for it is `inv_ready`: HOST's Issue of an illegal word is refused. -/
theorem test_hyps_NoFaultUnderInvariant :
    BlockInv ready ∧ step { ready with cmds := [0x06000000] } = .refused (.illegalCommand .illegalFirstWord) :=
  ⟨inv_ready, rfl⟩

end Sys2Proof.Tests
end

/-! Proofs about the state (spec/10_state.md): every step keeps the invariant and the latches, what the registers and
PIN read, and the state after reset. -/

namespace Sys2Proof.Machine

variable {s t : State}

/-! ### Labels at rest -/

/-- The labels at which the port window stands as it does between operations (R132): no write of the KINIT in progress
has been made, no row is low, and TMP holds nothing that is still to be written back. -/
def portQuiet : SeqLabel → Bool
  | .kiDirWr | .kiOenRd | .kiOenWr | .kiOutRd | .kiOutWr => false
  | .ksDrvWr _ | .ksSample _ _ | .ksRstRd _ | .ksRstWr _ => false
  | _ => true

/-- The labels at which the UART is as it is between operations: no UCFG is past UC_RESET, no UTX past UT_LOAD. -/
def uartQuiet (l : SeqLabel) : Bool := !(ucfgTail l || utxBody l)

theorem portQuiet_facts {l : SeqLabel} (h : portQuiet l = true) :
    directionSet l = false ∧ enableSet l = false ∧ rowsAt l = 0x0F := by
  cases l <;> simp_all [portQuiet, directionSet, enableSet, rowsAt, lowRow]

theorem kinitLabel_facts {l : SeqLabel} (h : kinitLabel l = true) : scanLabel l = false ∧ rowsAt l = 0x0F := by
  cases l <;> simp_all [kinitLabel, scanLabel, rowsAt, lowRow]

theorem tmpHeld_of_portQuiet (h : portQuiet s.seq = true) : tmpHeld s = true := by
  unfold tmpHeld
  split <;> simp_all [portQuiet]

/-- After a sample a pass is at another sample of the row or at the row's release (R134). -/
theorem afterSample_facts (r : Row) (c : Col) :
    scanLabel (afterSample r c) = true ∧ uartQuiet (afterSample r c) = true ∧
      rowsAt (afterSample r c) = rowNibble r := by
  cases c <;> exact ⟨rfl, rfl, rfl⟩

/-- After a row a pass drives the next row or ends; no row is low (R134). -/
theorem afterRow_facts (r : Row) :
    scanLabel (afterRow r) = true ∧ uartQuiet (afterRow r) = true ∧ portQuiet (afterRow r) = true := by
  cases r <;> exact ⟨rfl, rfl, rfl⟩

/-! ### One step of any agent -/

/-- SEQ's step of an operation in progress is one micro-step of the command in CMD (R218). -/
theorem exec_busy_cases (hb : s.busy = true) (h : exec s.cmd s = .next t) :
    (s.cmd = .kinit ∧ kinitMicro s = .next t) ∨
    ((s.cmd = .kscan ∨ s.cmd = .kwait) ∧ scanMicro s = .next t) ∨
    (∃ row col, s.cmd = .kdec row col ∧ kdecMicro row col s = .next t) ∨
    (∃ stop data parity cd bdiv, s.cmd = .ucfg stop data parity cd bdiv ∧
      ucfgMicro stop data parity cd bdiv s = .next t) ∨
    (∃ msg, s.cmd = .utx msg ∧ utxMicro msg s = .next t) := by
  generalize hc : s.cmd = i at h
  cases i with
  | kinit => exact .inl ⟨rfl, (execKinit_busy hb hc).symm.trans h⟩
  | kscan => exact .inr (.inl ⟨.inl rfl, (execKscan_busy hb hc).symm.trans h⟩)
  | kdec row col => exact .inr (.inr (.inl ⟨row, col, rfl, (execKdec_busy hb hc).symm.trans h⟩))
  | kwait => exact .inr (.inl ⟨.inr rfl, (execKwait_busy hb hc).symm.trans h⟩)
  | ucfg stop data parity cd bdiv =>
    exact .inr (.inr (.inr (.inl ⟨stop, data, parity, cd, bdiv, rfl, (execUcfg_busy hb hc).symm.trans h⟩)))
  | utx msg => exact .inr (.inr (.inr (.inr ⟨msg, rfl, (execUtx_busy hb hc).symm.trans h⟩)))

/-- What an accepted Issue does: it starts the command at one of its quiet labels, its guard having held, with WAITMODE
set for KWAIT alone (R216, R262). -/
theorem exec_idle_accepts {i : Instr} (hb : s.busy = false) (h : exec i s = .next t) :
    ∃ l, t = accept i l (i == .kwait) s ∧ labelFits i l = true ∧ portQuiet l = true ∧ uartQuiet l = true ∧
      (scanLabel l = true → s.kinitDone = true) ∧ (l = .utLoad → s.ucfgDone = true) := by
  rcases exec_idle_cases hb h with ⟨rfl, rfl⟩ | ⟨rfl, hk, rfl⟩ | ⟨⟨row, col, rfl⟩, rfl⟩ | ⟨rfl, hk, rfl⟩ |
    ⟨⟨stop, data, parity, cd, bdiv, rfl⟩, rfl⟩ | ⟨⟨msg, rfl⟩, hu, rfl⟩
  · exact ⟨_, rfl, rfl, rfl, rfl, nofun, nofun⟩
  · exact ⟨_, rfl, rfl, rfl, rfl, fun _ => hk, nofun⟩
  · exact ⟨_, rfl, rfl, rfl, rfl, nofun, nofun⟩
  · exact ⟨_, rfl, rfl, rfl, rfl, fun _ => hk, nofun⟩
  · exact ⟨_, rfl, rfl, rfl, rfl, nofun, nofun⟩
  · exact ⟨_, rfl, rfl, rfl, rfl, nofun, fun _ => hu⟩

/-- Dequeue moves the head of the FIFO to txlog, or changes nothing (R208). -/
theorem dequeueStep_cases (s : State) :
    dequeueStep s = s ∨ ∃ b rest, s.fifo = b :: rest ∧ dequeueStep s = popFifo b rest s := by
  unfold dequeueStep
  split
  case h_1 => exact .inl rfl
  case h_2 b rest hf =>
    split_ifs
    · exact .inr ⟨b, rest, hf, rfl⟩
    · exact .inl rfl

/-! ### The invariant, label by label -/

theorem SequencerInv.goesOn (h : SequencerInv s) (hb : s.busy = true) (hb' : t.busy = true) (hc : t.cmd = s.cmd)
    (hw : t.waitmode = s.waitmode) (hf : labelFits s.cmd t.seq = true) : SequencerInv t where
  idle h0 := absurd hb' (by simp [h0])
  fits _ := hc ▸ hf
  wait := by rw [hw, h.wait, hb, hb', hc]

theorem SequencerInv.ended (hb : t.busy = false) (hs : t.seq = .idle) (hw : t.waitmode = false) : SequencerInv t where
  idle _ := hs
  fits h1 := absurd hb (by simp [h1])
  wait := by simp [hw, hb]

/-- WAITMODE is 1 during a KWAIT alone. -/
theorem SequencerInv.waitmode_eq_false (h : SequencerInv s) (hc : s.cmd ≠ .kwait) : s.waitmode = false := by
  simp [h.wait, hc]

/-- At a quiet label KINIT_DONE promises the window of R132. -/
theorem keypadInv_iff_of_quiet (hq : portQuiet s.seq = true) :
    KeypadInv s ↔ (s.kinitDone = true → KeypadIdle s) ∧ (scanLabel s.seq = true → s.kinitDone = true) ∧
      (s.hit = true → oneToFour s.row = true ∧ oneToFour s.col = true) := by
  obtain ⟨hd, he, hr⟩ := portQuiet_facts hq
  constructor
  · intro h
    exact ⟨fun hk => ⟨h.direction (.inl hk), h.enable (.inl hk), hr ▸ h.rows hk⟩, h.ready, h.latch⟩
  · rintro ⟨hi, hready, hlatch⟩
    exact {
      direction := fun h => (hi (h.resolve_right (by simp [hd]))).1
      enable := fun h => (hi (h.resolve_right (by simp [he]))).2.1
      rows := fun hk => hr ▸ (hi hk).2.2
      held := tmpHeld_of_portQuiet hq
      ready := hready
      latch := hlatch }

/-- During a pass the window is that of R132, but for the row the label holds low. -/
theorem keypadInv_iff_of_scanLabel (hl : scanLabel s.seq = true) :
    KeypadInv s ↔ s.kinitDone = true ∧ win s.pdir = 0x0F ∧ win s.poen = 0x0F ∧ win s.pout &&& 0x0F = rowsAt s.seq ∧
      tmpHeld s = true ∧ (s.hit = true → oneToFour s.row = true ∧ oneToFour s.col = true) := by
  constructor
  · intro h
    have hk := h.ready hl
    exact ⟨hk, h.direction (.inl hk), h.enable (.inl hk), h.rows hk, h.held, h.latch⟩
  · rintro ⟨hk, hd, he, hr, hheld, hlatch⟩
    exact ⟨fun _ => hd, fun _ => he, fun _ => hr, hheld, fun _ => hk, hlatch⟩

/-- During a KINIT a register of the window is as R131 writes it once SEQ is past its write, or after an
earlier KINIT. -/
theorem keypadInv_iff_of_kinitLabel (hl : kinitLabel s.seq = true) :
    KeypadInv s ↔ (s.kinitDone = true ∨ directionSet s.seq = true → win s.pdir = 0x0F) ∧
      (s.kinitDone = true ∨ enableSet s.seq = true → win s.poen = 0x0F) ∧
      (s.kinitDone = true → win s.pout &&& 0x0F = 0x0F) ∧ tmpHeld s = true ∧
      (s.hit = true → oneToFour s.row = true ∧ oneToFour s.col = true) := by
  obtain ⟨hscan, hrows⟩ := kinitLabel_facts hl
  constructor
  · intro h
    exact ⟨h.direction, h.enable, hrows ▸ h.rows, h.held, h.latch⟩
  · rintro ⟨hd, he, hr, hheld, hlatch⟩
    exact ⟨hd, he, hrows ▸ hr, hheld, by simp [hscan], hlatch⟩

/-! Each class of UART labels excludes the labels that the fields of `UartInv` treat apart. -/

theorem uartQuiet_facts {l : SeqLabel} (h : uartQuiet l = true) :
    ucfgTail l = false ∧ utxBody l = false ∧ l ≠ .ucWait ∧ l ≠ .ucEnable ∧ l ≠ .utPoll ∧ l ≠ .utWrite := by
  cases l <;> simp_all [uartQuiet, ucfgTail, utxBody]

theorem ucfgTail_facts {l : SeqLabel} (h : ucfgTail l = true) :
    utxBody l = false ∧ l ≠ .utLoad ∧ l ≠ .utPoll ∧ l ≠ .utWrite := by
  cases l <;> simp_all [ucfgTail, utxBody]

theorem utxBody_facts {l : SeqLabel} (h : utxBody l = true) :
    ucfgTail l = false ∧ l ≠ .ucWait ∧ l ≠ .ucEnable := by
  cases l <;> simp_all [ucfgTail, utxBody]

/-- The FIFO, its flags, the reset bits and TXEN as every operation finds them (R42, R163, R174). -/
def UartIdle (s : State) : Prop :=
  s.fifo.length ≤ s.fifoDepth ∧ (s.txrst = false ∧ s.rxrst = false) ∧
    (s.ucfgDone = true → s.fifo.length = s.fifoDepth → s.txfull = true) ∧ (s.ucfgDone = true → s.txen = true)

/-- At a quiet label the UART is as every operation finds it, and a UTX has been issued after a UCFG only (R262). -/
theorem uartInv_iff_of_quiet (hq : uartQuiet s.seq = true) :
    UartInv s ↔ UartIdle s ∧ (s.seq = .utLoad → s.ucfgDone = true) := by
  obtain ⟨htail, hbody, hwait, henable, hpoll, hwrite⟩ := uartQuiet_facts hq
  constructor
  · intro h
    exact ⟨⟨h.room, h.noReset hwait, fun hu => h.full hu hpoll, fun hu => h.enabled (.inl hu) hwait henable⟩,
      fun hl => h.ready (.inl hl)⟩
  · rintro ⟨⟨hroom, hreset, hfull, hen⟩, hready⟩
    exact {
      room := hroom
      noReset := fun _ => hreset
      emptied := by simp [htail]
      full := fun hu _ => hfull hu
      cleared := by simp [hpoll, hwrite]
      free := by simp [hwrite]
      ready := by simpa [hbody] using hready
      index := by simp [hbody]
      enabled := fun hu _ _ => hen (hu.resolve_right (by simp [htail])) }

/-- During a UCFG past UC_RESET the FIFO is empty and TXFULL clear (R163). -/
theorem uartInv_iff_of_ucfgTail (hl : ucfgTail s.seq = true) :
    UartInv s ↔ s.fifo = [] ∧ s.txfull = false ∧ (s.seq ≠ .ucWait → s.txrst = false ∧ s.rxrst = false) ∧
      (s.seq ≠ .ucWait → s.seq ≠ .ucEnable → s.txen = true) := by
  obtain ⟨hbody, hload, hpoll, hwrite⟩ := ucfgTail_facts hl
  constructor
  · intro h
    exact ⟨(h.emptied hl).1, (h.emptied hl).2, h.noReset, h.enabled (.inr hl)⟩
  · rintro ⟨hfifo, hclear, hreset, hen⟩
    exact {
      room := by simp [hfifo]
      noReset := hreset
      emptied := fun _ => ⟨hfifo, hclear⟩
      full := by simp [hfifo, State.fifoDepth]
      cleared := fun _ => hclear
      free := by simp [hwrite]
      ready := by simp [hload, hbody]
      index := by simp [hbody]
      enabled := fun _ => hen }

/-- During a UTX past UT_LOAD the index is within the buffer, and TXFULL tells whether the FIFO is full (R174). -/
theorem uartInv_iff_of_utxBody (hl : utxBody s.seq = true) :
    UartInv s ↔ s.fifo.length ≤ s.fifoDepth ∧ (s.txrst = false ∧ s.rxrst = false) ∧ s.ucfgDone = true ∧
      s.txen = true ∧ (s.txidx < s.txlen ∧ s.txlen ≤ txbufCap) ∧
      (s.seq ≠ .utPoll → s.fifo.length = s.fifoDepth → s.txfull = true) ∧
      (s.seq = .utPoll ∨ s.seq = .utWrite → s.txfull = false) ∧
      (s.seq = .utWrite → s.fifo.length < s.fifoDepth) := by
  obtain ⟨htail, hwait, henable⟩ := utxBody_facts hl
  constructor
  · intro h
    have hu := h.ready (.inr hl)
    exact ⟨h.room, h.noReset hwait, hu, h.enabled (.inl hu) hwait henable, h.index hl, h.full hu, h.cleared, h.free⟩
  · rintro ⟨hroom, hreset, hu, hen, hidx, hfull, hclear, hfree⟩
    exact {
      room := hroom
      noReset := fun _ => hreset
      emptied := by simp [htail]
      full := fun _ => hfull
      cleared := hclear
      free := hfree
      ready := fun _ => hu
      index := fun _ => hidx
      enabled := fun _ _ _ => hen }

/-! ### The window KINIT and a pass write -/

/-- KINIT writes the whole window (R131). -/
theorem win_setwin_all (v : Word) (d : BitVec 8) : win (setwin v 0xFF d) = d := by
  rw [win_setwin, show (0xFF : BitVec 8) = BitVec.allOnes 8 by decide, BitVec.not_allOnes, BitVec.and_zero,
    BitVec.zero_or, BitVec.and_allOnes]

/-- A pass writes the row bits of the window (R134). -/
theorem win_setwin_rows (v : Word) {d : BitVec 8} (hd : d &&& 0x0F = d) : win (setwin v 0x0F d) &&& 0x0F = d := by
  rw [win_setwin, hd, BitVec.and_or_distrib_right, hd, BitVec.and_assoc,
    show ~~~(0x0F : BitVec 8) &&& 0x0F = 0#8 by decide, BitVec.and_zero, BitVec.zero_or]

theorem rowNibble_rows (r : Row) : rowNibble r &&& 0x0F = rowNibble r := by cases r <;> decide

/-- A recorded position is one of the matrix (R30, R134). -/
theorem oneToFour_position (r : Row) (c : Col) :
    oneToFour (BitVec.ofNat 8 r.num) = true ∧ oneToFour (BitVec.ofNat 8 c.num) = true := by
  constructor
  · cases r <;> decide
  · cases c <;> decide

/-! ### KINIT keeps the invariant -/

/-- A micro-step of KINIT is taken at one of its labels. -/
theorem kinitMicro_label (hm : kinitMicro s = .next t) : kinitLabel s.seq = true := by
  obtain ⟨hs, -⟩ | ⟨hs, -⟩ | ⟨hs, -⟩ | ⟨hs, -⟩ | ⟨hs, -⟩ | ⟨hs, -⟩ := kinitMicro_cases hm <;> rw [hs] <;> rfl

theorem kinitMicro_keeps_sequencer (h : SequencerInv s) (hb : s.busy = true) (hc : s.cmd = .kinit)
    (hm : kinitMicro s = .next t) : SequencerInv t := by
  have hw : s.waitmode = false := h.waitmode_eq_false (by simp [hc])
  obtain ⟨-, rfl⟩ | ⟨-, rfl⟩ | ⟨-, rfl⟩ | ⟨-, rfl⟩ | ⟨-, rfl⟩ | ⟨-, rfl⟩ := kinitMicro_cases hm
  iterate 5 exact h.goesOn hb hb rfl rfl (by rw [hc]; rfl)
  exact .ended rfl rfl hw

theorem kinitMicro_keeps_keypad (h : KeypadInv s) (hm : kinitMicro s = .next t) : KeypadInv t := by
  obtain ⟨hd, he, hr, -, hlatch⟩ := (keypadInv_iff_of_kinitLabel (kinitMicro_label hm)).1 h
  obtain ⟨hs, rfl⟩ | ⟨hs, rfl⟩ | ⟨hs, rfl⟩ | ⟨hs, rfl⟩ | ⟨hs, rfl⟩ | ⟨hs, rfl⟩ := kinitMicro_cases hm <;>
    rw [hs] at hd he
  · exact (keypadInv_iff_of_kinitLabel rfl).2 ⟨hd, he, hr, beq_self_eq_true _, hlatch⟩
  · exact (keypadInv_iff_of_kinitLabel rfl).2 ⟨fun _ => win_setwin_all _ _, he, hr, rfl, hlatch⟩
  · exact (keypadInv_iff_of_kinitLabel rfl).2 ⟨hd, he, hr, beq_self_eq_true _, hlatch⟩
  · exact (keypadInv_iff_of_kinitLabel rfl).2 ⟨hd, fun _ => win_setwin_all _ _, hr, rfl, hlatch⟩
  · exact (keypadInv_iff_of_kinitLabel rfl).2 ⟨hd, he, hr, beq_self_eq_true _, hlatch⟩
  · exact (keypadInv_iff_of_quiet rfl).2
      ⟨fun _ => ⟨hd (.inr rfl), he (.inr rfl), win_setwin_rows _ rfl⟩, nofun, hlatch⟩

theorem kinitMicro_keeps_uart (h : UartInv s) (hm : kinitMicro s = .next t) : UartInv t := by
  obtain ⟨hs, rfl⟩ | ⟨hs, rfl⟩ | ⟨hs, rfl⟩ | ⟨hs, rfl⟩ | ⟨hs, rfl⟩ | ⟨hs, rfl⟩ := kinitMicro_cases hm
  all_goals
    obtain ⟨hidle, -⟩ := (uartInv_iff_of_quiet (by rw [hs]; rfl)).1 h
    exact (uartInv_iff_of_quiet rfl).2 ⟨hidle, nofun⟩

/-! ### A pass of KSCAN or KWAIT keeps the invariant -/

/-- A micro-step of a pass is taken at one of its labels. -/
theorem scanMicro_label (hm : scanMicro s = .next t) : scanLabel s.seq = true := by
  obtain ⟨hs, -⟩ | ⟨r, hs, -⟩ | ⟨r, hs, -⟩ | ⟨r, c, hs, -, -⟩ | ⟨r, c, hs, -, -⟩ | ⟨r, hs, -⟩ | ⟨r, hs, -⟩ |
    ⟨hs, -, -, -⟩ | ⟨hs, -, -⟩ := scanMicro_cases hm <;> rw [hs] <;> rfl

theorem uartQuiet_of_scanLabel {l : SeqLabel} (h : scanLabel l = true) : uartQuiet l = true := by
  cases l <;> simp_all [scanLabel, uartQuiet, ucfgTail, utxBody]

theorem scanMicro_keeps_sequencer (h : SequencerInv s) (hb : s.busy = true) (hc : s.cmd = .kscan ∨ s.cmd = .kwait)
    (hm : scanMicro s = .next t) : SequencerInv t := by
  have hf : ∀ l, labelFits s.cmd l = scanLabel l := by obtain hc | hc := hc <;> simp [hc, labelFits]
  obtain ⟨-, rfl⟩ | ⟨r, -, rfl⟩ | ⟨r, -, rfl⟩ | ⟨r, c, -, -, rfl⟩ | ⟨r, c, -, -, rfl⟩ | ⟨r, -, rfl⟩ | ⟨r, -, rfl⟩ |
    ⟨-, -, -, rfl⟩ | ⟨-, -, rfl⟩ := scanMicro_cases hm
  · exact h.goesOn hb hb rfl rfl (hf _)
  · exact h.goesOn hb hb rfl rfl (hf _)
  · exact h.goesOn hb hb rfl rfl (hf _)
  · exact h.goesOn hb hb rfl rfl ((hf _).trans (afterSample_facts r c).1)
  · exact h.goesOn hb hb rfl rfl ((hf _).trans (afterSample_facts r c).1)
  · exact h.goesOn hb hb rfl rfl (hf _)
  · exact h.goesOn hb hb rfl rfl ((hf _).trans (afterRow_facts r).1)
  · exact h.goesOn hb hb rfl rfl (hf _)
  · exact .ended rfl rfl rfl

theorem scanMicro_keeps_keypad (h : KeypadInv s) (hm : scanMicro s = .next t) : KeypadInv t := by
  obtain ⟨hk, hd, he, hr, -, hlatch⟩ := (keypadInv_iff_of_scanLabel (scanMicro_label hm)).1 h
  obtain ⟨hs, rfl⟩ | ⟨r, hs, rfl⟩ | ⟨r, hs, rfl⟩ | ⟨r, c, hs, -, rfl⟩ | ⟨r, c, hs, -, rfl⟩ | ⟨r, hs, rfl⟩ |
    ⟨r, hs, rfl⟩ | ⟨hs, -, -, rfl⟩ | ⟨hs, -, rfl⟩ := scanMicro_cases hm <;> rw [hs] at hr
  · exact (keypadInv_iff_of_scanLabel rfl).2 ⟨hk, hd, he, hr, rfl, nofun⟩
  · exact (keypadInv_iff_of_scanLabel rfl).2 ⟨hk, hd, he, hr, beq_self_eq_true _, hlatch⟩
  · exact (keypadInv_iff_of_scanLabel rfl).2 ⟨hk, hd, he, win_setwin_rows _ (rowNibble_rows r), rfl, hlatch⟩
  · cases c <;> exact (keypadInv_iff_of_scanLabel rfl).2 ⟨hk, hd, he, hr, rfl, hlatch⟩
  · cases c <;> exact (keypadInv_iff_of_scanLabel rfl).2 ⟨hk, hd, he, hr, rfl, fun _ => oneToFour_position r _⟩
  · exact (keypadInv_iff_of_scanLabel rfl).2 ⟨hk, hd, he, hr, beq_self_eq_true _, hlatch⟩
  · exact (keypadInv_iff_of_quiet (afterRow_facts r).2.2).2
      ⟨fun _ => ⟨hd, he, win_setwin_rows _ rfl⟩, fun _ => hk, hlatch⟩
  · exact (keypadInv_iff_of_scanLabel rfl).2 ⟨hk, hd, he, hr, rfl, hlatch⟩
  · exact (keypadInv_iff_of_quiet rfl).2 ⟨fun _ => ⟨hd, he, hr⟩, nofun, hlatch⟩

theorem scanMicro_keeps_uart (h : UartInv s) (hm : scanMicro s = .next t) : UartInv t := by
  have hq : uartQuiet s.seq = true := uartQuiet_of_scanLabel (scanMicro_label hm)
  obtain ⟨hidle, -⟩ := (uartInv_iff_of_quiet hq).1 h
  obtain ⟨-, rfl⟩ | ⟨r, -, rfl⟩ | ⟨r, -, rfl⟩ | ⟨r, c, -, -, rfl⟩ | ⟨r, c, -, -, rfl⟩ | ⟨r, -, rfl⟩ | ⟨r, -, rfl⟩ |
    ⟨-, -, -, rfl⟩ | ⟨-, -, rfl⟩ := scanMicro_cases hm
  case inr.inr.inr.inl => cases c <;> exact (uartInv_iff_of_quiet rfl).2 ⟨hidle, nofun⟩
  case inr.inr.inr.inr.inl => cases c <;> exact (uartInv_iff_of_quiet rfl).2 ⟨hidle, nofun⟩
  case inr.inr.inr.inr.inr.inr.inl => cases r <;> exact (uartInv_iff_of_quiet rfl).2 ⟨hidle, nofun⟩
  all_goals exact (uartInv_iff_of_quiet rfl).2 ⟨hidle, nofun⟩

/-! ### UCFG keeps the invariant -/

theorem ucfgMicro_keeps_sequencer {stop data : BitVec 2} {parity : BitVec 3} {cd : BitVec 16} {bdiv : BitVec 8}
    (h : SequencerInv s) (hb : s.busy = true) (hc : s.cmd = .ucfg stop data parity cd bdiv)
    (hm : ucfgMicro stop data parity cd bdiv s = .next t) : SequencerInv t := by
  have hw : s.waitmode = false := h.waitmode_eq_false (by simp [hc])
  obtain ⟨-, rfl⟩ | ⟨-, rfl⟩ | ⟨-, rfl⟩ | ⟨-, rfl⟩ | ⟨-, rfl⟩ | ⟨-, rfl⟩ | ⟨-, rfl⟩ := ucfgMicro_cases hm
  · exact h.goesOn hb hb rfl rfl (by rw [hc]; rfl)
  · exact h.goesOn hb hb rfl rfl (by rw [hc, setSeq_seq]; split_ifs <;> rfl)
  iterate 4 exact h.goesOn hb hb rfl rfl (by rw [hc]; rfl)
  exact .ended rfl rfl hw

theorem ucfgMicro_keeps_keypad {stop data : BitVec 2} {parity : BitVec 3} {cd : BitVec 16} {bdiv : BitVec 8}
    (h : KeypadInv s) (hm : ucfgMicro stop data parity cd bdiv s = .next t) : KeypadInv t := by
  obtain ⟨hs, rfl⟩ | ⟨hs, rfl⟩ | ⟨hs, rfl⟩ | ⟨hs, rfl⟩ | ⟨hs, rfl⟩ | ⟨hs, rfl⟩ | ⟨hs, rfl⟩ := ucfgMicro_cases hm
  all_goals obtain ⟨hidle, -, hlatch⟩ := (keypadInv_iff_of_quiet (by rw [hs]; rfl)).1 h
  case inr.inl => split_ifs <;> exact (keypadInv_iff_of_quiet rfl).2 ⟨hidle, nofun, hlatch⟩
  all_goals exact (keypadInv_iff_of_quiet rfl).2 ⟨hidle, nofun, hlatch⟩

theorem ucfgMicro_keeps_uart {stop data : BitVec 2} {parity : BitVec 3} {cd : BitVec 16} {bdiv : BitVec 8}
    (h : UartInv s) (hm : ucfgMicro stop data parity cd bdiv s = .next t) : UartInv t := by
  obtain ⟨hs, rfl⟩ | ⟨hs, rfl⟩ | ⟨hs, rfl⟩ | ⟨hs, rfl⟩ | ⟨hs, rfl⟩ | ⟨hs, rfl⟩ | ⟨hs, rfl⟩ := ucfgMicro_cases hm
  · exact (uartInv_iff_of_ucfgTail rfl).2 ⟨rfl, by simp, by simp, by simp⟩
  all_goals
    obtain ⟨hfifo, hclear, hreset, hen⟩ := (uartInv_iff_of_ucfgTail (by rw [hs]; rfl)).1 h
    rw [hs] at hreset hen
  · split_ifs with hz
    · have hr := (ucrWord_reset_eq_zero s).1 hz
      exact (uartInv_iff_of_ucfgTail rfl).2 ⟨hfifo, hclear, fun _ => hr, by simp⟩
    · exact (uartInv_iff_of_ucfgTail rfl).2 ⟨hfifo, hclear, by simp, by simp⟩
  · exact (uartInv_iff_of_ucfgTail rfl).2 ⟨hfifo, by simp [hclear], by simpa using hreset, fun _ _ => rfl⟩
  iterate 3 exact (uartInv_iff_of_ucfgTail rfl).2 ⟨hfifo, hclear, fun _ => hreset nofun, fun _ _ => hen nofun nofun⟩
  · refine (uartInv_iff_of_quiet rfl).2 ⟨⟨?_, hreset nofun, ?_, fun _ => hen nofun nofun⟩, nofun⟩
    · simp [hfifo]
    · simp [hfifo, State.fifoDepth]

/-! ### UTX keeps the invariant -/

theorem utxMicro_keeps_sequencer {msg : List Byte} (h : SequencerInv s) (hb : s.busy = true) (hc : s.cmd = .utx msg)
    (hm : utxMicro msg s = .next t) : SequencerInv t := by
  have hw : s.waitmode = false := h.waitmode_eq_false (by simp [hc])
  obtain ⟨-, rfl⟩ | ⟨-, rfl⟩ | ⟨-, rfl⟩ | ⟨-, rfl⟩ | ⟨-, b, -, -, -, rfl⟩ := utxMicro_cases hm
  · exact h.goesOn hb hb rfl rfl (by rw [hc]; rfl)
  · exact h.goesOn hb hb rfl rfl (by rw [hc, setSeq_seq]; split_ifs <;> rfl)
  · exact h.goesOn hb hb rfl rfl (by rw [hc]; rfl)
  · exact h.goesOn hb hb rfl rfl (by rw [hc, setSeq_seq]; split_ifs <;> rfl)
  · unfold utxAdvance
    split_ifs
    · exact h.goesOn hb hb rfl rfl (by rw [hc]; rfl)
    · exact .ended rfl rfl hw

theorem utxMicro_keeps_keypad {msg : List Byte} (h : KeypadInv s) (hm : utxMicro msg s = .next t) : KeypadInv t := by
  obtain ⟨hs, rfl⟩ | ⟨hs, rfl⟩ | ⟨hs, rfl⟩ | ⟨hs, rfl⟩ | ⟨hs, b, -, -, -, rfl⟩ := utxMicro_cases hm
  all_goals obtain ⟨hidle, -, hlatch⟩ := (keypadInv_iff_of_quiet (by rw [hs]; rfl)).1 h
  case inr.inl => split_ifs <;> exact (keypadInv_iff_of_quiet rfl).2 ⟨hidle, nofun, hlatch⟩
  case inr.inr.inr.inl => split_ifs <;> exact (keypadInv_iff_of_quiet rfl).2 ⟨hidle, nofun, hlatch⟩
  case inr.inr.inr.inr =>
    unfold utxAdvance
    split_ifs <;> exact (keypadInv_iff_of_quiet rfl).2 ⟨hidle, nofun, hlatch⟩
  all_goals exact (keypadInv_iff_of_quiet rfl).2 ⟨hidle, nofun, hlatch⟩

theorem utxMicro_keeps_uart {msg : List Byte} (h : UartInv s) (hm : utxMicro msg s = .next t) : UartInv t := by
  obtain ⟨hs, rfl⟩ | ⟨hs, rfl⟩ | ⟨hs, rfl⟩ | ⟨hs, rfl⟩ | ⟨hs, b, -, -, hl, rfl⟩ := utxMicro_cases hm
  · obtain ⟨⟨hroom, hreset, hfull, hen⟩, hready⟩ := (uartInv_iff_of_quiet (by rw [hs]; rfl)).1 h
    have hu := hready hs
    exact (uartInv_iff_of_utxBody rfl).2
      ⟨hroom, hreset, hu, hen hu, ⟨Nat.succ_pos _, keptLength_lt _⟩, fun _ => hfull hu, by simp, by simp⟩
  all_goals
    obtain ⟨hroom, hreset, hu, hen, hidx, hfull, hclear, hfree⟩ := (uartInv_iff_of_utxBody (by rw [hs]; rfl)).1 h
    rw [hs] at hfull hclear hfree
  · split_ifs with hf
    · exact (uartInv_iff_of_utxBody rfl).2 ⟨hroom, hreset, hu, hen, hidx, fun _ _ => hf, by simp, by simp⟩
    · have hlt : s.fifo.length < s.fifoDepth := lt_of_le_of_ne hroom fun he => hf (hfull nofun he)
      exact (uartInv_iff_of_utxBody rfl).2
        ⟨hroom, hreset, hu, hen, hidx, fun _ => hfull nofun, fun _ => by simpa using hf, fun _ => hlt⟩
  · exact (uartInv_iff_of_utxBody rfl).2 ⟨hroom, hreset, hu, hen, hidx, by simp, by simp, by simp⟩
  · split_ifs with he
    · have hnil : s.fifo = [] := List.isEmpty_iff.1 he
      have hlt : s.fifo.length < s.fifoDepth := by simp [hnil, State.fifoDepth]
      exact (uartInv_iff_of_utxBody rfl).2
        ⟨hroom, hreset, hu, hen, hidx, fun _ hd => absurd hd hlt.ne, fun _ => hclear (.inl rfl), fun _ => hlt⟩
    · exact (uartInv_iff_of_utxBody rfl).2
        ⟨hroom, hreset, hu, hen, hidx, by simp, fun _ => hclear (.inl rfl), by simp⟩
  · have hroom' : (pushFifo b s).fifo.length ≤ s.fifoDepth := by simpa using hl
    have hfull' : (pushFifo b s).fifo.length = s.fifoDepth → (pushFifo b s).txfull = true := by
      intro he
      simp_all [txfullAfterWrite]
    unfold utxAdvance
    split_ifs with hn
    · exact (uartInv_iff_of_utxBody rfl).2
        ⟨hroom', hreset, hu, hen, ⟨hn, hidx.2⟩, fun _ => hfull', by simp, by simp⟩
    · exact (uartInv_iff_of_quiet rfl).2 ⟨⟨hroom', hreset, fun _ => hfull', fun _ => hen⟩, nofun⟩

/-! ### Every step of every agent keeps the invariant -/

theorem kdecMicro_keeps_inv {row col : BitVec 8} (h : BlockInv s) (hc : s.cmd = .kdec row col)
    (hm : kdecMicro row col s = .next t) : BlockInv t := by
  obtain ⟨hs, rfl⟩ := kdecMicro_cases hm
  have hw : s.waitmode = false := h.sequencer.waitmode_eq_false (by simp [hc])
  obtain ⟨hwin, -, hlatch⟩ := (keypadInv_iff_of_quiet (by rw [hs]; rfl)).1 h.keypad
  obtain ⟨hidle, -⟩ := (uartInv_iff_of_quiet (by rw [hs]; rfl)).1 h.uart
  exact ⟨.ended rfl rfl hw, (keypadInv_iff_of_quiet rfl).2 ⟨hwin, nofun, hlatch⟩,
    (uartInv_iff_of_quiet rfl).2 ⟨hidle, nofun⟩⟩

/-- SEQ's step keeps the invariant (R218). -/
theorem seqStep_keeps_inv (h : BlockInv s) (hm : seqStep s = .next t) : BlockInv t := by
  cases hb : s.busy with
  | false =>
    rw [seqStep, hb] at hm
    exact Host.Outcome.next.inj hm ▸ h
  | true =>
    rw [seqStep_busy hb] at hm
    obtain ⟨hc, hm⟩ | ⟨hc, hm⟩ | ⟨row, col, hc, hm⟩ | ⟨stop, data, parity, cd, bdiv, hc, hm⟩ | ⟨msg, hc, hm⟩ :=
      exec_busy_cases hb hm
    · exact ⟨kinitMicro_keeps_sequencer h.sequencer hb hc hm, kinitMicro_keeps_keypad h.keypad hm,
        kinitMicro_keeps_uart h.uart hm⟩
    · exact ⟨scanMicro_keeps_sequencer h.sequencer hb hc hm, scanMicro_keeps_keypad h.keypad hm,
        scanMicro_keeps_uart h.uart hm⟩
    · exact kdecMicro_keeps_inv h hc hm
    · exact ⟨ucfgMicro_keeps_sequencer h.sequencer hb hc hm, ucfgMicro_keeps_keypad h.keypad hm,
        ucfgMicro_keeps_uart h.uart hm⟩
    · exact ⟨utxMicro_keeps_sequencer h.sequencer hb hc hm, utxMicro_keeps_keypad h.keypad hm,
        utxMicro_keeps_uart h.uart hm⟩

/-- What lies outside the block may change freely: the contacts, HOST's side and the model's own inputs. -/
theorem BlockInv.surroundings (h : BlockInv s) (k : Contacts) (v : Option Word) (es : List Event) (ws : List Word) :
    BlockInv { s with closed := k, hostKey := v, agenda := es, cmds := ws } :=
  ⟨{ h.sequencer with }, { h.keypad with }, { h.uart with }⟩

/-- HOST's Issue keeps the invariant (R216). -/
theorem exec_idle_keeps_inv {i : Instr} (h : BlockInv s) (hb : s.busy = false) (hm : exec i s = .next t) :
    BlockInv t := by
  have hs : s.seq = .idle := h.sequencer.idle hb
  obtain ⟨hwin, -, hlatch⟩ := (keypadInv_iff_of_quiet (by rw [hs]; rfl)).1 h.keypad
  obtain ⟨hidle, -⟩ := (uartInv_iff_of_quiet (by rw [hs]; rfl)).1 h.uart
  obtain ⟨l, rfl, hf, hp, hu, hk, hl⟩ := exec_idle_accepts hb hm
  exact ⟨⟨nofun, fun _ => hf, rfl⟩, (keypadInv_iff_of_quiet hp).2 ⟨hwin, hk, hlatch⟩,
    (uartInv_iff_of_quiet hu).2 ⟨hidle, hl⟩⟩

theorem hostIssueStep_keeps_inv (h : BlockInv s) (hm : hostIssueStep s = .next t) : BlockInv t := by
  obtain ⟨rfl, -⟩ | ⟨hb, i, rest, -, hx⟩ := hostIssueStep_cases hm
  · exact h
  · exact exec_idle_keeps_inv (h.surroundings s.closed s.hostKey s.agenda rest) hb hx

/-- Dequeue leaves room in the FIFO (R208). -/
theorem popFifo_keeps_uart {b : Byte} {rest : List Byte} (h : UartInv s) (hf : s.fifo = b :: rest) :
    UartInv (popFifo b rest s) := by
  have hlt : rest.length < s.fifoDepth := by
    have hroom := h.room
    rwa [hf] at hroom
  exact { h with
    room := hlt.le
    emptied := fun hl => by simpa [hf] using h.emptied hl
    full := fun _ _ he => absurd he hlt.ne
    free := fun _ => hlt }

theorem dequeueStep_keeps_inv (h : BlockInv s) : BlockInv (dequeueStep s) := by
  obtain he | ⟨b, rest, hf, he⟩ := dequeueStep_cases s <;> rw [he]
  · exact h
  · exact ⟨{ h.sequencer with }, { h.keypad with }, popFifo_keeps_uart h.uart hf⟩

/-- ResetDone only clears reset bits (R207). -/
theorem clearResets_keeps_inv (rx tx : Bool) (h : BlockInv s) : BlockInv (clearResets rx tx s) :=
  ⟨{ h.sequencer with }, { h.keypad with },
    { h.uart with noReset := fun hs => by simp [h.uart.noReset hs] }⟩

/-- Between operations the foreign bits of the port registers are free: the invariant speaks of the window
alone (R28). -/
theorem foreignBits_keep_inv {d e o : Word} (h : BlockInv s) (hb : s.busy = false) (hd : win d = win s.pdir)
    (he : win e = win s.poen) (ho : win o = win s.pout) : BlockInv { s with pdir := d, poen := e, pout := o } := by
  have hq : portQuiet s.seq = true := by rw [h.sequencer.idle hb]; rfl
  obtain ⟨hwin, hready, hlatch⟩ := (keypadInv_iff_of_quiet hq).1 h.keypad
  have hwin' : s.kinitDone = true → KeypadIdle { s with pdir := d, poen := e, pout := o } := by
    simpa only [KeypadIdle, hd, he, ho] using hwin
  exact ⟨{ h.sequencer with }, (keypadInv_iff_of_quiet (by exact hq)).2 ⟨hwin', hready, hlatch⟩, { h.uart with }⟩

/-- OTHER moves only while BUSY = 0, and leaves the window alone (R212). -/
theorem otherStep_keeps_inv (r : SharedReg) (v : Word) (h : BlockInv s) : BlockInv (otherStep r v s) := by
  cases hb : s.busy with
  | true => rwa [otherStep_busy hb]
  | false =>
    simp only [otherStep, hb, Bool.false_eq_true, if_false]
    cases r with
    | pdir => exact foreignBits_keep_inv h hb (win_setForeign _ _) rfl rfl
    | poen => exact foreignBits_keep_inv h hb rfl (win_setForeign _ _) rfl
    | pout => exact foreignBits_keep_inv h hb rfl rfl (win_setForeign _ _)

/-- The invariant holds in the state after reset, whatever stands around the block. -/
theorem powerOnStep_inv (s : State) : BlockInv (powerOnStep s) :=
  ⟨.ended rfl rfl rfl, (keypadInv_iff_of_quiet rfl).2 ⟨nofun, nofun, nofun⟩,
    (uartInv_iff_of_quiet rfl).2 ⟨⟨Nat.zero_le _, ⟨rfl, rfl⟩, nofun, nofun⟩, nofun⟩⟩

/-- One step of any agent keeps the invariant. -/
theorem runEvent_keeps_inv (e : Event) (h : BlockInv s) (hm : runEvent e s = .next t) : BlockInv t := by
  cases e with
  | seq => exact seqStep_keeps_inv h hm
  | hostIssue => exact hostIssueStep_keeps_inv h hm
  | keys k => exact Host.Outcome.next.inj hm ▸ h.surroundings k s.hostKey s.agenda s.cmds
  | resetDone rx tx => exact Host.Outcome.next.inj hm ▸ clearResets_keeps_inv rx tx h
  | dequeue => exact Host.Outcome.next.inj hm ▸ dequeueStep_keeps_inv h
  | other r v => exact Host.Outcome.next.inj hm ▸ otherStep_keeps_inv r v h
  | hostRead =>
    rw [← Host.Outcome.next.inj hm, hostReadStep]
    split_ifs
    · exact h
    · exact h.surroundings s.closed (some s.key) s.agenda s.cmds
  | powerOn => exact Host.Outcome.next.inj hm ▸ powerOnStep_inv s

/-- Settles O59: `step` is one agent's step from the state whose agenda has lost its head. -/
theorem stepKeepsInvariant : Obligations.StepKeepsInvariant := by
  unfold Obligations.StepKeepsInvariant
  intro s t h hm
  exact runEvent_keeps_inv (nextEvent s) (h.surroundings s.closed s.hostKey s.agenda.tail s.cmds) hm

/-! ### The bits the UART registers show (R35 to R39) -/

theorem ucrWord_getLsbD (s : State) {i : Nat} (hi : i < 32) : (ucrWord s).getLsbD i =
    (i == 0 && s.rxrst || i == 1 && s.txrst || i == 2 && s.rxen || i == 4 && s.txen) := by
  rw [ucrWord]
  iterate 5 rw [BitVec.getLsbD_append]
  interval_cases i <;> simp

theorem umrWord_getLsbD (s : State) {i : Nat} (hi : i < 32) : (umrWord s).getLsbD i =
    (decide (1 ≤ i) && s.chrl.getLsbD (i - 1) || decide (3 ≤ i) && s.par.getLsbD (i - 3) ||
      decide (6 ≤ i) && s.nbstop.getLsbD (i - 6)) := by
  rw [umrWord]
  iterate 4 rw [BitVec.getLsbD_append]
  interval_cases i <;> simp

theorem uierWord_getLsbD (s : State) {i : Nat} (hi : i < 32) :
    (uierWord s).getLsbD i = (i == 3 && s.txemptyEn || i == 4 && s.txfullEn) := by
  rw [uierWord]
  iterate 3 rw [BitVec.getLsbD_append]
  interval_cases i <;> simp

theorem uisrWord_getLsbD (s : State) {i : Nat} (hi : i < 32) :
    (uisrWord s).getLsbD i = (i == 3 && txempty s || i == 4 && s.txfull) := by
  rw [uisrWord]
  iterate 3 rw [BitVec.getLsbD_append]
  interval_cases i <;> simp

theorem ubgWord_getLsbD (s : State) (i : Nat) : (ubgWord s).getLsbD i = s.cd.getLsbD i := by
  rw [ubgWord, BitVec.getLsbD_append]
  split_ifs with h
  · rfl
  · simp [BitVec.getLsbD_of_ge s.cd i (by omega)]

theorem ubdWord_getLsbD (s : State) (i : Nat) : (ubdWord s).getLsbD i = s.bdiv.getLsbD i := by
  rw [ubdWord, BitVec.getLsbD_append]
  split_ifs with h
  · rfl
  · simp [BitVec.getLsbD_of_ge s.bdiv i (by omega)]

/-! ### What the UART registers read after a write -/

theorem ucrWord_writeUcr (v : Word) (s : State) :
    ucrWord (writeUcr v s) = (v &&& 0x17) ||| (ucrWord s &&& 0x03) := by
  apply BitVec.eq_of_getLsbD_eq
  intro i hi
  rw [ucrWord_getLsbD _ hi, BitVec.getLsbD_or, BitVec.getLsbD_and, BitVec.getLsbD_and, ucrWord_getLsbD s hi]
  interval_cases i <;> simp [Bool.or_comm]

theorem umrWord_writeUmr (v : Word) (s : State) : umrWord (writeUmr v s) = v &&& 0xFE := by
  apply BitVec.eq_of_getLsbD_eq
  intro i hi
  rw [umrWord_getLsbD _ hi, BitVec.getLsbD_and]
  interval_cases i <;> simp

theorem uierWord_writeUier (v : Word) (s : State) : uierWord (writeUier v s) = v &&& 0x18 := by
  apply BitVec.eq_of_getLsbD_eq
  intro i hi
  rw [uierWord_getLsbD _ hi, BitVec.getLsbD_and]
  interval_cases i <;> simp

theorem uisrWord_writeUisr (v : Word) (s : State) :
    uisrWord (writeUisr v s) = uisrWord s &&& ~~~(v &&& 0x10) := by
  apply BitVec.eq_of_getLsbD_eq
  intro i hi
  rw [uisrWord_getLsbD _ hi, BitVec.getLsbD_and, uisrWord_getLsbD s hi]
  interval_cases i <;> simp [txempty]

theorem ubgWord_writeUbg (v : Word) (s : State) : ubgWord (writeUbg v s) = v &&& 0xFFFF := by
  apply BitVec.eq_of_getLsbD_eq
  intro i hi
  rw [ubgWord_getLsbD, BitVec.getLsbD_and]
  interval_cases i <;> simp

theorem ubdWord_writeUbd (v : Word) (s : State) : ubdWord (writeUbd v s) = v &&& 0xFF := by
  apply BitVec.eq_of_getLsbD_eq
  intro i hi
  rw [ubdWord_getLsbD, BitVec.getLsbD_and]
  interval_cases i <;> simp

/-- No read changes a register (R76): the one field a read can change is the model's count of the reads of PIN. -/
theorem memRead_keeps_registers {r : Reg} {v : Word} (h : memRead r s = .next (v, t)) :
    t = { s with draws := t.draws } := by
  cases r <;> cases h <;> rfl

/-- Settles O50: each written register shows the bits it has fields for. -/
theorem registersReadBack : Obligations.RegistersReadBack := by
  unfold Obligations.RegistersReadBack
  refine ⟨fun v s => ⟨?_, ⟨_, rfl, ?_⟩, ⟨_, rfl, ?_⟩, ⟨_, rfl, ?_⟩, ⟨_, rfl, ?_⟩, ⟨_, rfl, ?_⟩, ⟨_, rfl, ?_⟩, rfl⟩,
    fun r s t v h => memRead_keeps_registers h⟩
  · rintro r (rfl | rfl | rfl) <;> exact ⟨_, rfl, rfl⟩
  · rw [memRead_umr, umrWord_writeUmr]
  · rw [memRead_uier, uierWord_writeUier]
  · rw [memRead_ubg, ubgWord_writeUbg]
  · rw [memRead_ubd, ubdWord_writeUbd]
  · rw [memRead_ucr, ucrWord_writeUcr]
  · rw [memRead_uisr, uisrWord_writeUisr]

/-! ### The levels of PIN -/

/-- Column pins stand at bits 11 to 14 (R23). -/
theorem col_bit_range (c : Col) : 11 ≤ c.bit ∧ c.bit ≤ 14 := by cases c <;> decide

theorem row_bit_lt (r : Row) : r.bit < 32 := by cases r <;> decide

/-- A register bit outside the window shows no column (R22, R23). -/
theorem colOfBit_foreign {i : Nat} (h : i < 7 ∨ 15 ≤ i) : colOfBit i = none := by
  rw [colOfBit, List.find?_eq_none]
  intro c _
  have := col_bit_range c
  simp only [beq_iff_eq]
  omega

/-- The port drives no pin outside the window (R22, R25). -/
theorem driven_foreign {i : Nat} (h : i < 7 ∨ 15 ≤ i) : driven s i = false := by
  have hw : inWindow i = false := by
    by_contra hin
    rw [Bool.not_eq_false, inWindow, Bool.and_eq_true, decide_eq_true_eq, decide_eq_true_eq, portLsb] at hin
    omega
  simp [driven, hw]

theorem driven_lt {i : Nat} (h : driven s i = true) : i < 32 := by
  by_contra hi
  simp [driven_foreign (s := s) (i := i) (by omega)] at h

/-- A bit the port does not drive and that shows no column is a draw (R27, R213). -/
theorem pinBit_drawn {i : Nat} (hd : driven s i = false) (hc : colOfBit i = none) : pinBit s i = drawn s i := by
  simp [pinBit, hd, hc]

theorem joinedLow_iff {c : Col} : joinedLow s c = true ↔
    ∃ r, contact s.closed r c = true ∧ driven s r.bit = true ∧ s.pout.getLsbD r.bit = false := by
  have hall : ∀ r : Row, r ∈ allRows := by intro r; cases r <;> decide
  simp [joinedLow, hall, and_assoc]

theorem joinedHigh_iff {c : Col} : joinedHigh s c = true ↔
    ∃ r, contact s.closed r c = true ∧ driven s r.bit = true ∧ s.pout.getLsbD r.bit = true := by
  have hall : ∀ r : Row, r ∈ allRows := by intro r; cases r <;> decide
  simp [joinedHigh, hall, and_assoc]

/-- The level of a column (R202): high when joined to no low row, low when joined to low rows only, a draw when
joined to a low and a high row. -/
theorem colLevel_eq_false {c : Col} (hl : joinedLow s c = true) (hh : joinedHigh s c = false) :
    colLevel s c = false := by
  simp [colLevel, hl, hh]

theorem colLevel_eq_drawn {c : Col} (hl : joinedLow s c = true) (hh : joinedHigh s c = true) :
    colLevel s c = drawn s c.bit := by
  simp [colLevel, hl, hh]

/-- Settles O52: the four kinds of register bit, and for a column the three cases of R202. -/
theorem pinReadLevels : Obligations.PinReadLevels := by
  unfold Obligations.PinReadLevels
  intro s
  refine ⟨fun i hd => ?_, fun c hd => ?_, fun r hd => ?_, fun i hi => ?_⟩
  · rw [pinWord_getLsbD s i (driven_lt hd), pinBit_driven hd]
  · have hpin : (pinWord s).getLsbD c.bit = colLevel s c := by
      rw [pinWord_getLsbD s c.bit (by have := col_bit_range c; omega), pinBit_col hd]
    rw [hpin]
    refine ⟨fun hhigh => ?_, fun r hc hr hp hlow => ?_, fun r r' hc hr hp hc' hr' hp' => ?_⟩
    · refine colLevel_of_not_joinedLow (Bool.eq_false_iff.2 fun hj => ?_)
      obtain ⟨r, hc, hr, hp⟩ := joinedLow_iff.1 hj
      simp [hhigh r hc hr] at hp
    · refine colLevel_eq_false (joinedLow_iff.2 ⟨r, hc, hr, hp⟩) (Bool.eq_false_iff.2 fun hj => ?_)
      obtain ⟨r', hc', hr', hp'⟩ := joinedHigh_iff.1 hj
      simp [hlow r' hc' hr'] at hp'
    · exact colLevel_eq_drawn (joinedLow_iff.2 ⟨r, hc, hr, hp⟩) (joinedHigh_iff.2 ⟨r', hc', hr', hp'⟩)
  · rw [pinWord_getLsbD s r.bit (row_bit_lt r), pinBit_drawn hd (colOfBit_row_bit r), drawn]
  · by_cases h32 : i < 32
    · rw [pinWord_getLsbD s i h32, pinBit_drawn (driven_foreign hi) (colOfBit_foreign hi), drawn]
    · rw [BitVec.getLsbD_of_ge _ _ (by omega), BitVec.getLsbD_of_ge _ _ (by omega)]

/-! ### Latches -/

/-- What no step but the reset event undoes: the depth of the FIFO, the done flags, CMD of an operation in progress, and
the bytes already in txlog (R46, R48, R84). -/
def LatchesKept (s t : State) : Prop :=
  t.fifoDepth = s.fifoDepth ∧ (s.kinitDone = true → t.kinitDone = true) ∧ (s.ucfgDone = true → t.ucfgDone = true) ∧
    (s.busy = true → t.cmd = s.cmd) ∧ s.txlog <+: t.txlog

/-- A step that leaves CMD and txlog alone and clears no done flag keeps the latches. -/
theorem LatchesKept.of_same (hd : t.fifoDepth = s.fifoDepth) (hk : t.kinitDone = s.kinitDone ∨ t.kinitDone = true)
    (hu : t.ucfgDone = s.ucfgDone ∨ t.ucfgDone = true) (hc : t.cmd = s.cmd) (hl : t.txlog = s.txlog) :
    LatchesKept s t :=
  ⟨hd, fun h => hk.elim (·.trans h) id, fun h => hu.elim (·.trans h) id, fun _ => hc, ⟨[], by rw [hl, List.append_nil]⟩⟩

/-- A micro-step of any operation keeps the latches; only the ends of KINIT and UCFG touch a done flag, and set it. -/
theorem exec_busy_latches (hb : s.busy = true) (h : exec s.cmd s = .next t) : LatchesKept s t := by
  obtain ⟨-, hm⟩ | ⟨-, hm⟩ | ⟨row, col, -, hm⟩ | ⟨stop, data, parity, cd, bdiv, -, hm⟩ | ⟨msg, -, hm⟩ :=
    exec_busy_cases hb h
  · obtain ⟨-, rfl⟩ | ⟨-, rfl⟩ | ⟨-, rfl⟩ | ⟨-, rfl⟩ | ⟨-, rfl⟩ | ⟨-, rfl⟩ := kinitMicro_cases hm
    iterate 5 exact .of_same rfl (.inl rfl) (.inl rfl) rfl rfl
    exact .of_same rfl (.inr rfl) (.inl rfl) rfl rfl
  · obtain ⟨-, rfl⟩ | ⟨r, -, rfl⟩ | ⟨r, -, rfl⟩ | ⟨r, c, -, -, rfl⟩ | ⟨r, c, -, -, rfl⟩ | ⟨r, -, rfl⟩ | ⟨r, -, rfl⟩ |
      ⟨-, -, -, rfl⟩ | ⟨-, -, rfl⟩ := scanMicro_cases hm
    all_goals exact .of_same rfl (.inl rfl) (.inl rfl) rfl rfl
  · obtain ⟨-, rfl⟩ := kdecMicro_cases hm
    exact .of_same rfl (.inl rfl) (.inl rfl) rfl rfl
  · obtain ⟨-, rfl⟩ | ⟨-, rfl⟩ | ⟨-, rfl⟩ | ⟨-, rfl⟩ | ⟨-, rfl⟩ | ⟨-, rfl⟩ | ⟨-, rfl⟩ := ucfgMicro_cases hm
    iterate 6 exact .of_same rfl (.inl rfl) (.inl rfl) rfl rfl
    exact .of_same rfl (.inl rfl) (.inr rfl) rfl rfl
  · obtain ⟨-, rfl⟩ | ⟨-, rfl⟩ | ⟨-, rfl⟩ | ⟨-, rfl⟩ | ⟨-, b, -, -, -, rfl⟩ := utxMicro_cases hm
    iterate 4 exact .of_same rfl (.inl rfl) (.inl rfl) rfl rfl
    unfold utxAdvance
    split_ifs <;> exact .of_same rfl (.inl rfl) (.inl rfl) rfl rfl

/-- Every step of every agent but the reset event keeps the latches. -/
theorem runEvent_latches {e : Event} (he : e ≠ .powerOn) (h : runEvent e s = .next t) : LatchesKept s t := by
  have hsame : LatchesKept s s := .of_same rfl (.inl rfl) (.inl rfl) rfl rfl
  cases e with
  | seq =>
    cases hb : s.busy with
    | false =>
      rw [runEvent, seqStep, hb] at h
      exact Host.Outcome.next.inj h ▸ hsame
    | true => exact exec_busy_latches hb (seqStep_busy hb ▸ h)
  | keys k => exact Host.Outcome.next.inj h ▸ hsame
  | resetDone rx tx => exact Host.Outcome.next.inj h ▸ hsame
  | dequeue =>
    rw [← Host.Outcome.next.inj h]
    obtain hd | ⟨b, rest, -, hd⟩ := dequeueStep_cases s <;> rw [hd]
    · exact hsame
    · exact ⟨rfl, id, id, fun _ => rfl, [b], rfl⟩
  | other r v =>
    rw [← Host.Outcome.next.inj h]
    unfold otherStep
    split_ifs
    · exact hsame
    · cases r <;> exact hsame
  | hostIssue =>
    obtain ⟨rfl, -⟩ | ⟨hb, i, rest, -, hx⟩ := hostIssueStep_cases h
    · exact hsame
    · obtain ⟨l, rfl, -⟩ := exec_idle_accepts (s := setCmds rest s) hb hx
      exact ⟨rfl, id, id, by simp [hb], [], List.append_nil _⟩
  | hostRead =>
    rw [← Host.Outcome.next.inj h, hostReadStep]
    split_ifs <;> exact hsame
  | powerOn => exact absurd rfl he

/-- Settles O57: the reset event keeps the depth of the FIFO, every other step all the latches. -/
theorem latchesHold : Obligations.LatchesHold := by
  unfold Obligations.LatchesHold
  intro s t h
  by_cases he : nextEvent s = .powerOn
  · rw [step_eq, he] at h
    exact ⟨Host.Outcome.next.inj h ▸ rfl, fun hne => absurd he hne⟩
  · obtain ⟨hd, hrest⟩ := runEvent_latches he h
    exact ⟨hd, fun _ => hrest⟩

/-! ### Reset -/

theorem reset_stated : StatedReset State.reset := by
  unfold StatedReset
  decide

/-- The reset event gives each field the rule speaks of its value after reset (R260). -/
theorem powerOnStep_stated (s : State) : StatedReset (powerOnStep s) := reset_stated

/-- Settles O10: the reset event takes every field the rule speaks of from the state after reset. -/
theorem resetGivesStatedValues : Obligations.ResetGivesStatedValues := by
  unfold Obligations.ResetGivesStatedValues
  refine ⟨reset_stated, rfl, fun s he => ?_⟩
  have hstep : step s = .next (powerOnStep (takeEvent s)) := by rw [step_eq, he]; rfl
  exact ⟨_, hstep, powerOnStep_stated _, rfl, rfl, rfl⟩

theorem driven_reset (i : Nat) (k : Contacts) : driven { State.reset with closed := k } i = false := by
  simp [driven, State.reset]

/-- Settles O11: with no pin driven no closed contact joins a column to a low row. -/
theorem noPinDrivenAfterReset : Obligations.NoPinDrivenAfterReset := by
  unfold Obligations.NoPinDrivenAfterReset
  refine ⟨fun i => driven_reset i noContacts, fun k c => ?_⟩
  refine colLevel_of_not_joinedLow (Bool.eq_false_iff.2 fun hj => ?_)
  obtain ⟨r, -, hr, -⟩ := joinedLow_iff.1 hj
  simp [driven_reset] at hr

/-- Settles O58: the state after reset is what the reset event makes of itself. -/
theorem resetMeetsInvariant : Obligations.ResetMeetsInvariant := powerOnStep_inv State.reset

end Sys2Proof.Machine

/-! Proofs about the register space (spec/20_memory.md): where the registers stand, and what a write to one of them
leaves as it was. -/

namespace Sys2Proof.Machine

variable {r : Reg} {s t : State}

/-! ### What a register shows -/

/-- The value a read of a register answers, without the state after it. -/
def shown (r : Reg) (s : State) : Host.Outcome Word Fault Refusal := andThen (memRead r s) fun p => .next p.1

/-- A read of any register but PIN changes nothing at all (R76): only a read of PIN is counted. -/
theorem memRead_keeps_state {x : Word} (hp : r ≠ .pin) (h : memRead r s = .next (x, t)) : t = s := by
  cases r with
  | pin => contradiction
  | _ => cases h <;> rfl

theorem memRead_eq_next_iff_shown {x : Word} (hp : r ≠ .pin) :
    memRead r s = .next (x, s) ↔ shown r s = .next x := by
  constructor
  · intro h
    rw [shown, h, andThen_next]
  · intro h
    obtain ⟨⟨y, u⟩, hread, hy⟩ := andThen_eq_next.1 h
    obtain rfl : y = x := Host.Outcome.next.inj hy
    obtain rfl : u = s := memRead_keeps_state hp hread
    exact hread

/-! ### What each write leaves as it was (R76)

A port register is seen by itself and by PIN, a UART register by itself; the FIFO and TXFULL are seen by UISR. -/

theorem shown_setPdir (v : Word) (h : r ≠ .pdir) (hp : r ≠ .pin) : shown r (setPdir v s) = shown r s := by
  cases r with
  | pdir | pin => contradiction
  | _ => rfl

theorem shown_setPoen (v : Word) (h : r ≠ .poen) (hp : r ≠ .pin) : shown r (setPoen v s) = shown r s := by
  cases r with
  | poen | pin => contradiction
  | _ => rfl

theorem shown_setPout (v : Word) (h : r ≠ .pout) (hp : r ≠ .pin) : shown r (setPout v s) = shown r s := by
  cases r with
  | pout | pin => contradiction
  | _ => rfl

theorem shown_writeUcr (v : Word) (h : r ≠ .ucr) (hi : r ≠ .uisr) : shown r (writeUcr v s) = shown r s := by
  cases r with
  | ucr | uisr => contradiction
  | _ => rfl

theorem shown_writeUmr (v : Word) (h : r ≠ .umr) : shown r (writeUmr v s) = shown r s := by
  cases r with
  | umr => contradiction
  | _ => rfl

theorem shown_writeUier (v : Word) (h : r ≠ .uier) : shown r (writeUier v s) = shown r s := by
  cases r with
  | uier => contradiction
  | _ => rfl

theorem shown_writeUisr (v : Word) (h : r ≠ .uisr) : shown r (writeUisr v s) = shown r s := by
  cases r with
  | uisr => contradiction
  | _ => rfl

theorem shown_writeUbg (v : Word) (h : r ≠ .ubg) : shown r (writeUbg v s) = shown r s := by
  cases r with
  | ubg => contradiction
  | _ => rfl

theorem shown_writeUbd (v : Word) (h : r ≠ .ubd) : shown r (writeUbd v s) = shown r s := by
  cases r with
  | ubd => contradiction
  | _ => rfl

theorem shown_pushFifo (b : Byte) (hi : r ≠ .uisr) : shown r (pushFifo b s) = shown r s := by
  cases r with
  | uisr => contradiction
  | _ => rfl

/-- A register write keeps what every other register but PIN shows, and UISR too unless the write is to UCR or UFIFO. -/
theorem memWrite_keeps_shown {w : Reg} {v : Word} (h : memWrite w v s = .next t) (hne : r ≠ w) (hp : r ≠ .pin)
    (hi : ¬ (r = .uisr ∧ (w = .ucr ∨ w = .ufifo))) : shown r t = shown r s := by
  cases w with
  | pout => exact Host.Outcome.next.inj h ▸ shown_setPout v hne hp
  | pin => exact Host.Outcome.next.inj h ▸ rfl
  | pdir => exact Host.Outcome.next.inj h ▸ shown_setPdir v hne hp
  | poen => exact Host.Outcome.next.inj h ▸ shown_setPoen v hne hp
  | ucr => exact Host.Outcome.next.inj h ▸ shown_writeUcr v hne fun hr => hi ⟨hr, .inl rfl⟩
  | umr => exact Host.Outcome.next.inj h ▸ shown_writeUmr v hne
  | uier => exact Host.Outcome.next.inj h ▸ shown_writeUier v hne
  | uisr => exact Host.Outcome.next.inj h ▸ shown_writeUisr v hne
  | ubg => exact Host.Outcome.next.inj h ▸ shown_writeUbg v hne
  | ufifo =>
    obtain ⟨-, -, rfl⟩ := writeFifo_eq_next.1 h
    exact shown_pushFifo _ fun hr => hi ⟨hr, .inr rfl⟩
  | ubd => exact Host.Outcome.next.inj h ▸ shown_writeUbd v hne

/-- Settles O51: a read of a register other than PIN is what the register shows, and a write to another keeps that. -/
theorem registerWriteFrame : Obligations.RegisterWriteFrame := by
  unfold Obligations.RegisterWriteFrame
  intro w r v x s t hw hne hp hi hread
  rw [memRead_eq_next_iff_shown hp] at hread ⊢
  rw [memWrite_keeps_shown hw hne hp hi, hread]

/-! ### Where the registers stand (R21, R34, R71) -/

/-- Whether a register is of the port group; the others are of the UART group. -/
def Reg.isPort : Reg → Bool
  | .pout | .pin | .pdir | .poen => true
  | _ => false

/-- A register's place in its group (R21, R34). -/
def Reg.offset : Reg → Nat
  | .pout => poutOffset
  | .pin => pinOffset
  | .pdir => pdirOffset
  | .poen => poenOffset
  | .ucr => 0x00
  | .umr => 0x04
  | .uier => 0x08
  | .uisr => 0x14
  | .ubg => 0x18
  | .ufifo => 0x30
  | .ubd => 0x34

theorem Reg.addr_eq (r : Reg) : r.addr = (if r.isPort then portBase else uartBase) + r.offset := by cases r <;> rfl

theorem Reg.offset_mod (r : Reg) : r.offset % 4 = 0 := by cases r <;> rfl

theorem Reg.offset_lt (r : Reg) : r.offset < if r.isPort then portSpan else uartSpan := by cases r <;> decide

/-- Two registers of one group have different offsets. -/
theorem Reg.eq_of_offset_eq : ∀ r r' : Reg, r.isPort = r'.isPort → r.offset = r'.offset → r = r' := by
  intro r r'
  cases r <;> cases r' <;> decide

theorem portBase_mod : portBase % 4 = 0 := by
  unfold portBase uartSpan
  split_ifs <;> omega

theorem uartBase_mod : uartBase % 4 = 0 := by
  unfold uartBase portSpan
  split_ifs <;> omega

/-- One group ends before the other begins, whichever is the lower (log entry 8). -/
theorem groups_apart : portBase + portSpan ≤ uartBase ∨ uartBase + uartSpan ≤ portBase := by
  unfold portBase uartBase
  split_ifs <;> omega

theorem Reg.port_addr_ne_uart {p u : Reg} (hp : p.isPort = true) (hu : u.isPort = false) : p.addr ≠ u.addr := by
  have hplt : p.offset < portSpan := by simpa [hp] using p.offset_lt
  have hult : u.offset < uartSpan := by simpa [hu] using u.offset_lt
  have hpaddr : p.addr = portBase + p.offset := by simp [p.addr_eq, hp]
  have huaddr : u.addr = uartBase + u.offset := by simp [u.addr_eq, hu]
  rcases groups_apart with hbelow | habove <;> omega

/-- Registers at one address are of one group. -/
theorem Reg.isPort_eq_of_addr_eq {r r' : Reg} (h : r.addr = r'.addr) : r.isPort = r'.isPort := by
  cases hr : r.isPort <;> cases hr' : r'.isPort
  · rfl
  · exact absurd h.symm (Reg.port_addr_ne_uart hr' hr)
  · exact absurd h (Reg.port_addr_ne_uart hr hr')
  · rfl

/-- Settles O54: the bases and the offsets are multiples of 4; one address means one group, hence one offset. -/
theorem registerAddressesApart : Obligations.RegisterAddressesApart := by
  unfold Obligations.RegisterAddressesApart
  refine ⟨fun r => ?_, fun r r' h => ?_⟩
  · rw [r.addr_eq, Nat.add_mod, r.offset_mod]
    cases r.isPort <;> simp [portBase_mod, uartBase_mod]
  · have hgroup := Reg.isPort_eq_of_addr_eq h
    rw [r.addr_eq, r'.addr_eq, hgroup] at h
    exact Reg.eq_of_offset_eq r r' hgroup (Nat.add_left_cancel h)

end Sys2Proof.Machine

/-! Proofs about the encoding (spec/30_encoding.md): the fields of a command's words, and how `decode` and `encode`
undo each other. -/

namespace Sys2Proof

/-! ### Fields and masks

A row of the opcode map and the required zeros of a word are stated by masks (R105, R107), the decoder and the encoder
work on fields (R101). -/

/-- The bits a mask keeps are those of the pattern that the masked word equals. -/
theorem field_of_masked {n start len : Nat} {w m p : BitVec n} (h : w &&& m = p)
    (hm : m.extractLsb' start len = BitVec.allOnes len) : w.extractLsb' start len = p.extractLsb' start len := by
  rw [← h, BitVec.extractLsb'_and, hm, BitVec.and_allOnes]

/-- A word whose bits from `k` up are zero is zero under the mask of those bits. -/
theorem masked_eq_zero_of_field {n k : Nat} {w : BitVec (n + k)} (h : w.extractLsb' k n = 0#n) :
    w &&& (BitVec.allOnes n ++ 0#k) = 0 := by
  rw [← BitVec.extractLsb'_append_extractLsb' (x := w), BitVec.and_append, h]
  simp

/-- Two fields that stand side by side, appended, are one field. -/
theorem adjacent_fields (w : Word) (lo n m : Nat) :
    w.extractLsb' (lo + n) m ++ w.extractLsb' lo n = w.extractLsb' lo (m + n) :=
  BitVec.extractLsb'_append_extractLsb'_eq_extractLsb' rfl

theorem kdecWord_row (row col : BitVec 8) : (kdecWord row col).extractLsb' 8 8 = row :=
  (BitVec.extractLsb'_append_eq_of_le (by decide)).trans BitVec.extractLsb'_append_eq_right

theorem kdecWord_col (row col : BitVec 8) : (kdecWord row col).extractLsb' 0 8 = col :=
  BitVec.extractLsb'_append_eq_right

theorem ucfgWord0_data (stop data : BitVec 2) (parity : BitVec 3) :
    (ucfgWord0 stop data parity).extractLsb' 1 2 = data :=
  (BitVec.extractLsb'_append_eq_of_le (by decide)).trans BitVec.extractLsb'_append_eq_right

theorem ucfgWord0_parity (stop data : BitVec 2) (parity : BitVec 3) :
    (ucfgWord0 stop data parity).extractLsb' 3 3 = parity :=
  (BitVec.extractLsb'_append_eq_of_le (by decide)).trans <|
    (BitVec.extractLsb'_append_eq_of_le (by decide)).trans BitVec.extractLsb'_append_eq_right

theorem ucfgWord0_stop (stop data : BitVec 2) (parity : BitVec 3) :
    (ucfgWord0 stop data parity).extractLsb' 6 2 = stop :=
  (BitVec.extractLsb'_append_eq_of_le (by decide)).trans <|
    (BitVec.extractLsb'_append_eq_of_le (by decide)).trans <|
      (BitVec.extractLsb'_append_eq_of_le (by decide)).trans BitVec.extractLsb'_append_eq_right

theorem ucfgWord1_cd (cd : BitVec 16) (bdiv : BitVec 8) : (ucfgWord1 cd bdiv).extractLsb' 0 16 = cd :=
  BitVec.extractLsb'_append_eq_right

theorem ucfgWord1_bdiv (cd : BitVec 16) (bdiv : BitVec 8) : (ucfgWord1 cd bdiv).extractLsb' 16 8 = bdiv :=
  (BitVec.extractLsb'_append_eq_of_le (by decide)).trans BitVec.extractLsb'_append_eq_right

theorem ucfgWord1_zeros (cd : BitVec 16) (bdiv : BitVec 8) : (ucfgWord1 cd bdiv).extractLsb' 24 8 = 0 :=
  (BitVec.extractLsb'_append_eq_of_le (by decide)).trans BitVec.extractLsb'_append_eq_left

theorem payloadWord_byte (b : Byte) : (payloadWord b).extractLsb' 0 8 = b := BitVec.extractLsb'_append_eq_right

theorem payloadWord_zeros (b : Byte) : (payloadWord b).extractLsb' 8 24 = 0 := BitVec.extractLsb'_append_eq_left

/-! ### A word is what the encoder makes of its fields -/

theorem kdecWord_fields {w : Word} (h : w &&& 0xFFFF0000 = 0x03000000) :
    kdecWord (w.extractLsb' 8 8) (w.extractLsb' 0 8) = w := by
  have hop : w.extractLsb' 16 16 = 0x03#8 ++ 0#8 := field_of_masked h (by decide)
  rw [kdecWord, ← hop, adjacent_fields w 8 8, adjacent_fields w 0 8]
  exact BitVec.extractLsb'_eq_self

theorem ucfgWord0_fields {w : Word} (h : w &&& 0xFFFFFF01 = 0x10000000) :
    ucfgWord0 (w.extractLsb' 6 2) (w.extractLsb' 1 2) (w.extractLsb' 3 3) = w := by
  have hop : w.extractLsb' 8 24 = 0x10#8 ++ 0#16 := field_of_masked h (by decide)
  have hlow : w.extractLsb' 0 1 = 0#1 := field_of_masked h (by decide)
  rw [ucfgWord0, ← hop, ← hlow, adjacent_fields w 6 2, adjacent_fields w 3 3,
    adjacent_fields w 1 2, adjacent_fields w 0 1]
  exact BitVec.extractLsb'_eq_self

theorem ucfgWord1_fields {w : Word} (h : w.extractLsb' 24 8 = 0#8) :
    ucfgWord1 (w.extractLsb' 0 16) (w.extractLsb' 16 8) = w := by
  rw [ucfgWord1, ← h, adjacent_fields w 16 8, adjacent_fields w 0 16]
  exact BitVec.extractLsb'_eq_self

theorem utxWord0_fields {w : Word} (h : w &&& 0xFFFF0000 = 0x20000000) : utxWord0 (w.extractLsb' 0 16) = w := by
  have hop : w.extractLsb' 16 16 = 0x20#8 ++ 0#8 := field_of_masked h (by decide)
  rw [utxWord0, ← hop]
  exact BitVec.extractLsb'_append_extractLsb'

theorem payloadWord_fields {w : Word} (h : w.extractLsb' 8 24 = 0#24) : payloadWord (w.extractLsb' 0 8) = w := by
  rw [payloadWord, ← h]
  exact BitVec.extractLsb'_append_extractLsb'

theorem map_payloadWord_fields {ws : List Word} (h : ∀ w ∈ ws, w.extractLsb' 8 24 = 0#24) :
    (ws.map (·.extractLsb' 0 8)).map payloadWord = ws := by
  rw [List.map_map]
  exact (List.map_congr_left fun w hw => payloadWord_fields (h w hw)).trans (List.map_id ws)

/-! ### The row a first word selects (R105) -/

/-- A first word selects a row exactly when it matches the row's pattern under the row's mask. -/
theorem selectRow_eq_some_iff {r : OpcodeRow} (hr : r ∈ opcodeRows) {w : Word} :
    selectRow w = some r.row ↔ w &&& r.mask = r.pattern := by
  have hrow : ∀ r ∈ opcodeRows, ∀ r' ∈ opcodeRows, r'.row = r.row → r' = r := by decide
  constructor
  · intro h
    obtain ⟨r', hr', ho, hs⟩ := selects_of_selectRow h
    obtain rfl := hrow r hr r' hr' ho
    simpa [OpcodeRow.selects] using hs
  · intro h
    exact selectRow_of_selects hr (by simpa [OpcodeRow.selects] using h)

/-- The rows without operands are selected by their pattern alone. -/
theorem selectRow_eq_some_iff_of_full_mask {r : OpcodeRow} (hr : r ∈ opcodeRows)
    (hm : r.mask = BitVec.allOnes 32) {w : Word} : selectRow w = some r.row ↔ w = r.pattern := by
  rw [selectRow_eq_some_iff hr, hm, BitVec.and_allOnes]

theorem selectRow_eq_none {w : Word} (h : ∀ r ∈ opcodeRows, w &&& r.mask ≠ r.pattern) : selectRow w = none := by
  rw [selectRow, Option.map_eq_none_iff, List.find?_eq_none]
  intro r hr
  simpa [OpcodeRow.selects] using h r hr

theorem selectRow_eq_kinit_iff {w : Word} : selectRow w = some .kinit ↔ w = 0x01000000 :=
  selectRow_eq_some_iff_of_full_mask (r := ⟨.kinit, 0x01000000, 0xFFFFFFFF⟩) (by decide) rfl

theorem selectRow_eq_kscan_iff {w : Word} : selectRow w = some .kscan ↔ w = 0x02000000 :=
  selectRow_eq_some_iff_of_full_mask (r := ⟨.kscan, 0x02000000, 0xFFFFFFFF⟩) (by decide) rfl

theorem selectRow_eq_kdec_iff {w : Word} : selectRow w = some .kdec ↔ w &&& 0xFFFF0000 = 0x03000000 :=
  selectRow_eq_some_iff (r := ⟨.kdec, 0x03000000, 0xFFFF0000⟩) (by decide)

theorem selectRow_eq_kwait_iff {w : Word} : selectRow w = some .kwait ↔ w = 0x04000000 :=
  selectRow_eq_some_iff_of_full_mask (r := ⟨.kwait, 0x04000000, 0xFFFFFFFF⟩) (by decide) rfl

theorem selectRow_eq_ucfg_iff {w : Word} : selectRow w = some .ucfg ↔ w &&& 0xFFFFFF01 = 0x10000000 :=
  selectRow_eq_some_iff (r := ⟨.ucfg, 0x10000000, 0xFFFFFF01⟩) (by decide)

theorem selectRow_eq_utx_iff {w : Word} : selectRow w = some .utx ↔ w &&& 0xFFFF0000 = 0x20000000 :=
  selectRow_eq_some_iff (r := ⟨.utx, 0x20000000, 0xFFFF0000⟩) (by decide)

/-! ### What `decode` does with the words of each row (R106) -/

section

variable {w : Word} {ws : List Word}

theorem decode_kdec (h : selectRow w = some .kdec) :
    decode (w :: ws) = .ok (.kdec (w.extractLsb' 8 8) (w.extractLsb' 0 8), ws) := by
  simp only [decode, h]

theorem decode_ucfg (h : selectRow w = some .ucfg) : decode (w :: ws) = decodeUcfg w ws := by
  simp only [decode, h]

theorem decode_utx (h : selectRow w = some .utx) : decode (w :: ws) = decodeUtx w ws := by
  simp only [decode, h]

theorem decode_illegalFirstWord (h : selectRow w = none) : decode (w :: ws) = .error .illegalFirstWord := by
  simp only [decode, h]

end

/-- The payload words of `bs` give back `bs`, behind what was gathered before (R104). -/
theorem takePayload_map_payloadWord (bs acc : List Byte) (rest : List Word) :
    takePayload bs.length (bs.map payloadWord ++ rest) acc = .ok (acc.reverse ++ bs, rest) := by
  induction bs generalizing acc with
  | nil => simp [takePayload]
  | cons b bs ih => simp [takePayload, payloadWord_zeros, payloadWord_byte, ih]

/-- Words taken as payload are the payload words of the bytes they gave (R104, R107). -/
theorem takePayload_eq_ok {n : Nat} {ws rest : List Word} {acc msg : List Byte}
    (h : takePayload n ws acc = .ok (msg, rest)) :
    ∃ bs, bs.length = n ∧ msg = acc.reverse ++ bs ∧ ws = bs.map payloadWord ++ rest := by
  induction n generalizing ws acc with
  | zero =>
    obtain ⟨rfl, rfl⟩ : acc.reverse = msg ∧ ws = rest := by simpa [takePayload] using h
    exact ⟨[], rfl, by simp, rfl⟩
  | succ n ih =>
    cases ws with
    | nil => simp [takePayload] at h
    | cons w ws =>
      rw [takePayload] at h
      split_ifs at h with hz
      obtain ⟨bs, hlen, rfl, rfl⟩ := ih h
      refine ⟨w.extractLsb' 0 8 :: bs, by simp [hlen], by simp, ?_⟩
      simp [payloadWord_fields hz]

/-- One bad word among the payload makes the whole payload illegal (R107). -/
theorem takePayload_illegalPayloadWord {n : Nat} {ws : List Word} {acc : List Byte} (hlen : n ≤ ws.length)
    (hbad : ∃ p ∈ ws.take n, p.extractLsb' 8 24 ≠ 0) : takePayload n ws acc = .error .illegalPayloadWord := by
  induction n generalizing ws acc with
  | zero => simp at hbad
  | succ n ih =>
    cases ws with
    | nil => simp at hlen
    | cons w ws =>
      rw [takePayload]
      split_ifs with hz
      · obtain ⟨p, hp, hne⟩ := hbad
        rcases List.mem_cons.1 (List.take_succ_cons ▸ hp) with rfl | hp
        · exact absurd hz hne
        · exact ih (Nat.le_of_succ_le_succ hlen) ⟨p, hp, hne⟩
      · rfl

/-! ### Decoding and encoding undo each other -/

theorem wellFormed_utx_iff {msg : List Byte} : (Instr.utx msg).WellFormed ↔ msg.length < 2 ^ 16 :=
  decide_eq_true_iff.trans Nat.lt_succ_iff.symm

/-- Settles O2: the decoder finds each operand in the field the encoder put it in. -/
theorem decodeReadsBackEncode : Obligations.DecodeReadsBackEncode := by
  unfold Obligations.DecodeReadsBackEncode
  intro i rest hwf
  cases i with
  | kinit => rfl
  | kscan => rfl
  | kdec row col =>
    rw [encode, List.singleton_append, decode_kdec (selectRow_kdec row col), kdecWord_row, kdecWord_col]
  | kwait => rfl
  | ucfg stop data parity cd bdiv =>
    rw [encode, List.cons_append, decode_ucfg (selectRow_ucfg stop data parity), List.singleton_append, decodeUcfg,
      if_pos (ucfgWord1_zeros cd bdiv), ucfgWord0_stop, ucfgWord0_data, ucfgWord0_parity, ucfgWord1_cd, ucfgWord1_bdiv]
  | utx msg =>
    have hn : (BitVec.ofNat 16 msg.length).toNat = msg.length := Nat.mod_eq_of_lt (wellFormed_utx_iff.1 hwf)
    rw [encode, List.cons_append, decode_utx (selectRow_utx _), decodeUtx, utx_length_field, hn,
      takePayload_map_payloadWord]
    rfl

/-- A UCFG decodes from its encoding alone: every bit of its two words is an operand or one its mask fixes. -/
theorem decodeUcfg_eq_ok {w : Word} {ws rest : List Word} {i : Instr} (hw : w &&& 0xFFFFFF01 = 0x10000000)
    (h : decodeUcfg w ws = .ok (i, rest)) : i.WellFormed ∧ w :: ws = encode i ++ rest := by
  cases ws with
  | nil => cases h
  | cons w1 ws =>
    rw [decodeUcfg] at h
    split_ifs at h with hz
    cases h
    exact ⟨rfl, by simp [encode, ucfgWord0_fields hw, ucfgWord1_fields hz]⟩

/-- A UTX decodes from its encoding alone: its length field is the number of payload bytes taken. -/
theorem decodeUtx_eq_ok {w : Word} {ws rest : List Word} {i : Instr} (hw : w &&& 0xFFFF0000 = 0x20000000)
    (h : decodeUtx w ws = .ok (i, rest)) : i.WellFormed ∧ w :: ws = encode i ++ rest := by
  unfold decodeUtx at h
  split at h
  case h_1 msg ws' hp =>
    cases h
    obtain ⟨_, hlen, rfl, rfl⟩ := takePayload_eq_ok hp
    have hn : BitVec.ofNat 16 msg.length = w.extractLsb' 0 16 := by
      rw [hlen, BitVec.ofNat_toNat, BitVec.setWidth_eq]
    refine ⟨wellFormed_utx_iff.2 (hlen ▸ BitVec.isLt _), ?_⟩
    simp [encode, hn, utxWord0_fields hw]
  case h_2 => cases h

/-- Settles O3: each row's words are those the encoder makes of the fields the decoder read. -/
theorem encodeReadsBackDecode : Obligations.EncodeReadsBackDecode := by
  unfold Obligations.EncodeReadsBackDecode
  intro ws i rest h
  cases ws with
  | nil => cases h
  | cons w ws =>
    rw [decode] at h
    split at h
    case h_1 hs => cases h; exact ⟨rfl, by rw [selectRow_eq_kinit_iff.1 hs]; rfl⟩
    case h_2 hs => cases h; exact ⟨rfl, by rw [selectRow_eq_kscan_iff.1 hs]; rfl⟩
    case h_3 hs => cases h; exact ⟨rfl, by rw [encode, kdecWord_fields (selectRow_eq_kdec_iff.1 hs)]; rfl⟩
    case h_4 hs => cases h; exact ⟨rfl, by rw [selectRow_eq_kwait_iff.1 hs]; rfl⟩
    case h_5 hs => exact decodeUcfg_eq_ok (selectRow_eq_ucfg_iff.1 hs) h
    case h_6 hs => exact decodeUtx_eq_ok (selectRow_eq_utx_iff.1 hs) h
    case h_7 => cases h

/-- Settles O4: a word that matches its row is what the encoder makes of these fields, and decoding reads them back. -/
theorem operandFields : Obligations.OperandFields := by
  unfold Obligations.OperandFields
  refine ⟨fun w ws hw => ?_, fun w w1 ws hw hw1 => ?_, fun w payload ws hw hlen hzero => ?_⟩
  · exact decode_kdec (selectRow_eq_kdec_iff.2 hw)
  · have hz : w1.extractLsb' 24 8 = 0 := field_of_masked hw1 (by decide)
    rw [decode_ucfg (selectRow_eq_ucfg_iff.2 hw), decodeUcfg, if_pos hz]
  · have htake := takePayload_map_payloadWord (payload.map (·.extractLsb' 0 8)) [] ws
    rw [map_payloadWord_fields fun p hp => field_of_masked (hzero p hp) (by decide), List.length_map, hlen] at htake
    rw [List.cons_append, decode_utx (selectRow_eq_utx_iff.2 hw), decodeUtx, htake]
    rfl

/-- HOST's Issue of words that decode to illegal is refused (R107, R240). -/
theorem Machine.hostIssueStep_illegal {s : Machine.State} {e : DecodeError} (hb : s.busy = false) (hc : s.cmds ≠ [])
    (hd : decode s.cmds = .error e) : Machine.hostIssueStep s = .refused (.illegalCommand e) := by
  simp [Machine.hostIssueStep, hb, hc, hd]

/-- Settles O5: each kind of illegal word reaches the decoder's branch that names it, and HOST's Issue refuses it. -/
theorem illegalWordsRefused : Obligations.IllegalWordsRefused := by
  unfold Obligations.IllegalWordsRefused
  refine ⟨fun w ws h => ?_, fun w w1 ws hw hw1 => ?_, fun w ws hw hlen hbad => ?_, fun s e hb he hc hd => ?_⟩
  · exact decode_illegalFirstWord (selectRow_eq_none h)
  · have hz : w1.extractLsb' 24 8 ≠ 0 := mt masked_eq_zero_of_field hw1
    rw [decode_ucfg (selectRow_eq_ucfg_iff.2 hw), decodeUcfg, if_neg hz]
  · obtain ⟨p, hp, hne⟩ := hbad
    rw [decode_utx (selectRow_eq_utx_iff.2 hw), decodeUtx,
      takePayload_illegalPayloadWord hlen ⟨p, hp, mt masked_eq_zero_of_field hne⟩]
  · rw [Machine.step_eq, he]
    exact Machine.hostIssueStep_illegal hb hc hd

/-- The decoding half of a worked encoding follows from the encoding half. -/
theorem worked_encoding {i : Instr} {ws : List Word} (hwf : i.WellFormed) (he : encode i = ws) :
    encode i = ws ∧ decode ws = .ok (i, []) := by
  refine ⟨he, ?_⟩
  rw [← he, ← List.append_nil (encode i)]
  exact decodeReadsBackEncode i [] hwf

/-- Settles O1: the encoder writes the listed words, and what it writes decodes back. -/
theorem workedEncodings : Obligations.WorkedEncodings :=
  ⟨worked_encoding rfl rfl, worked_encoding rfl rfl, worked_encoding rfl rfl, worked_encoding rfl rfl,
    worked_encoding rfl rfl, worked_encoding rfl rfl, worked_encoding rfl rfl, worked_encoding rfl rfl⟩

end Sys2Proof

/-! Proofs about the keypad scanner (spec/40_keypad.md): the key decode function, KINIT, KDEC, the micro-steps of KSCAN
and KWAIT, and a whole pass over held contacts. -/

namespace Sys2Proof.Machine

variable {s t : State}

/-! ### The key decode function (R139, R141, R142) -/

/-- Settles O28: under each clause exactly one test of the list holds. -/
theorem decodeBranches : Obligations.DecodeBranches := by
  unfold Obligations.DecodeBranches
  intro row col
  refine ⟨fun h => ?_, fun h => ?_, fun hr hc => ?_, fun hr hc hne => ?_, fun hm hc hr => ?_⟩ <;> unfold decodeKey
  · rw [if_pos h]
  · rw [if_neg (by omega), if_pos h]
  · rw [if_neg (by omega), if_neg (by omega), if_pos ⟨hr, hc⟩]
  · rw [if_neg (by omega), if_neg (by omega), if_neg (by omega), if_pos ⟨hr, hc⟩]
  · rw [if_neg hm, if_neg hc, if_neg (by omega), if_neg hr]

/-- Settles O29: sixteen positions, sixteen codes. -/
theorem matrixCodes : Obligations.MatrixCodes := by
  unfold Obligations.MatrixCodes
  decide

/-- On operands of 8 bits the result lies in -119 to 145 (R141). -/
theorem decodeKey_bounds {row col : Int} (hr : -128 ≤ row ∧ row ≤ 127) (hc : -128 ≤ col) :
    -119 ≤ decodeKey row col ∧ decodeKey row col ≤ 145 := by
  unfold decodeKey
  split_ifs <;> omega

/-- On a position of the matrix the result is a key code (R142). -/
theorem decodeKey_matrix {row col : Int} (hr : 1 ≤ row ∧ row ≤ 4) (hc : 1 ≤ col ∧ col ≤ 4) :
    0 ≤ decodeKey row col ∧ decodeKey row col ≤ 15 := by
  unfold decodeKey
  split_ifs <;> omega

theorem toInt_bounds (v : BitVec 8) : -128 ≤ v.toInt ∧ v.toInt ≤ 127 :=
  ⟨v.le_toInt, Int.le_of_lt_add_one v.toInt_lt⟩

/-- What KEY holds reads back as the result: nothing wraps in 32 bits (R141). -/
theorem keyOf_toInt (row col : BitVec 8) : (keyOf row col).toInt = decodeKey row.toInt col.toInt := by
  have hb := decodeKey_bounds (toInt_bounds row) (toInt_bounds col).1
  exact BitVec.toInt_ofInt_eq_self (by decide) (by omega) (by omega)

/-- Settles O30: the bounds, and the general clauses and corner cases as branches of the list. -/
theorem decodeArithmetic : Obligations.DecodeArithmetic := by
  unfold Obligations.DecodeArithmetic
  refine ⟨fun row col => ?_, fun row => ?_, fun col hc => ?_, fun row col hout hc hr => ?_, by decide⟩
  · have hb := decodeKey_bounds (toInt_bounds row) (toInt_bounds col).1
    exact ⟨hb.1, hb.2, keyOf_toInt row col⟩
  · obtain ⟨-, hcol4, -⟩ := decodeBranches row 4
    exact hcol4 rfl
  · obtain ⟨-, -, -, hrow4, -⟩ := decodeBranches 4 col
    exact hrow4 rfl (by omega) (by omega)
  · obtain ⟨-, -, -, -, hother⟩ := decodeBranches row col
    exact hother (by omega) hc (by omega)

/-! ### What no operation of the keypad touches -/

theorem SamePort.refl (s : State) : SamePort s s := ⟨rfl, rfl, rfl⟩
theorem SameLatch.refl (s : State) : SameLatch s s := ⟨rfl, rfl, rfl⟩
theorem SameUartConfig.refl (s : State) : SameUartConfig s s :=
  ⟨rfl, rfl, rfl, rfl, rfl, rfl, rfl, rfl, rfl, rfl, rfl⟩
theorem SameFifo.refl (s : State) : SameFifo s s := ⟨rfl, rfl, rfl⟩
theorem SameBuffer.refl (s : State) : SameBuffer s s := ⟨rfl, rfl, rfl⟩
theorem SameDone.refl (s : State) : SameDone s s := ⟨rfl, rfl⟩
theorem SameSurroundings.refl (s : State) : SameSurroundings s s := ⟨rfl, rfl, rfl, rfl, rfl⟩

/-- While BUSY = 1 only the command in CMD answers a next state (R216). -/
theorem cmd_eq_of_exec_busy {i : Instr} (hb : s.busy = true) (h : exec i s = .next t) : s.cmd = i := by
  cases i <;>
    simp only [exec, execKinit, execKscan, execKdec, execKwait, execUcfg, execUtx, hb, if_true,
      inProgress_eq_next] at h <;>
    exact h.1

/-! ### KINIT (section 1) -/

theorem exec_kinit_idle (hb : s.busy = false) : exec .kinit s = .next (accept .kinit .kiDirRd false s) := by
  simp [exec, execKinit, hb]

/-- Settles O12: each label's micro-step is one half of a read-modify-write, or the end. -/
theorem kinitMicroSteps : Obligations.KinitMicroSteps := by
  unfold Obligations.KinitMicroSteps
  refine ⟨fun s hb => exec_kinit_idle hb, fun s hb hc => ?_, by decide, by decide⟩
  have hx : exec .kinit s = kinitMicro s := execKinit_busy hb hc
  rw [hx]
  exact ⟨fun hs => kinitMicro_kiDirRd hs, fun hs => kinitMicro_kiDirWr hs, fun hs => kinitMicro_kiOenRd hs,
    fun hs => kinitMicro_kiOenWr hs, fun hs => kinitMicro_kiOutRd hs, fun hs => kinitMicro_kiOutWr hs⟩

/-- The state KINIT leaves when no other agent steps in between (R131). -/
def kinitResult (s : State) : State :=
  { s with
    pdir := setwin s.pdir 0xFF 0x0F
    poen := setwin s.poen 0xFF 0x0F
    pout := setwin s.pout 0x0F 0x0F
    tmp := s.pout
    kinitDone := true
    cmd := .kinit
    busy := false
    waitmode := false
    seq := .idle }

theorem seqRun_kinit (hb : s.busy = false) : seqRun 7 .kinit s = .next (kinitResult s) := by
  rw [seqRun, exec_kinit_idle hb]
  rfl

/-- KINIT writes the window that R132 asks for. -/
theorem kinitResult_keypadIdle (s : State) : KeypadIdle (kinitResult s) :=
  ⟨win_setwin_all _ _, win_setwin_all _ _, win_setwin_rows _ rfl⟩

/-- Settles O13: the Issue and the six micro-steps end in `kinitResult`. -/
theorem kinitWholeOperation : Obligations.KinitWholeOperation := by
  unfold Obligations.KinitWholeOperation
  intro s hb
  exact ⟨kinitResult s, seqRun_kinit hb, rfl, rfl, rfl, kinitResult_keypadIdle s, rfl, rfl, rfl, rfl,
    SameLatch.refl s, rfl, SameUartConfig.refl s, SameFifo.refl s, SameBuffer.refl s, SameSurroundings.refl s, rfl⟩

/-- Settles O14: the Issue writes no register, and each micro-step the one its label names. -/
theorem kinitFrame : Obligations.KinitFrame := by
  unfold Obligations.KinitFrame
  intro s t h
  cases hb : s.busy with
  | false =>
    obtain rfl := Host.Outcome.next.inj ((exec_kinit_idle hb).symm.trans h)
    exact ⟨SameLatch.refl s, rfl, SameUartConfig.refl s, SameFifo.refl s, SameBuffer.refl s, SameSurroundings.refl s,
      rfl, rfl, rfl, fun _ => rfl, fun _ => rfl, fun _ => ⟨rfl, rfl⟩, fun _ => rfl, nofun⟩
  | true =>
    have hc := cmd_eq_of_exec_busy hb h
    obtain ⟨hs, rfl⟩ | ⟨hs, rfl⟩ | ⟨hs, rfl⟩ | ⟨hs, rfl⟩ | ⟨hs, rfl⟩ | ⟨hs, rfl⟩ :=
      kinitMicro_cases ((execKinit_busy hb hc).symm.trans h)
    all_goals
      refine ⟨SameLatch.refl s, rfl, SameUartConfig.refl s, SameFifo.refl s, SameBuffer.refl s,
        SameSurroundings.refl s, rfl, rfl, hc, ?_, ?_, ?_, ?_, fun _ => rfl⟩ <;> simp [hs]

/-! ### The levels of the port (R132, R135) -/

/-- A bit of a port register inside the window is that bit of the window (R12). -/
theorem getLsbD_eq_win (v : Word) {i : Nat} (hi : i < 8) : v.getLsbD (portLsb + i) = (win v).getLsbD i := by
  simp [win, hi]

/-- With the direction and enable windows of KINIT the port drives the row pins and no column pin (R132). -/
theorem driven_of_windows (hd : win s.pdir = 0x0F) (he : win s.poen = 0x0F) :
    (∀ r : Row, driven s r.bit = true) ∧ ∀ c : Col, driven s c.bit = false := by
  have hbit : ∀ i < 8, driven s (portLsb + i) = (0x0F#8).getLsbD i := by
    intro i hi
    rw [driven, getLsbD_eq_win _ hi, getLsbD_eq_win _ hi, hd, he]
    interval_cases i <;> rfl
  refine ⟨fun r => ?_, fun c => ?_⟩
  · rw [show r.bit = portLsb + r.idx.val from rfl, hbit _ (by omega)]
    cases r <;> rfl
  · rw [show c.bit = portLsb + (c.idx.val + 4) by cases c <;> rfl, hbit _ (by omega)]
    cases c <;> rfl

/-- The level of a driven row pin, from the row bits of the window. -/
theorem row_level {d : BitVec 8} (h : win s.pout &&& 0x0F = d) (r : Row) :
    s.pout.getLsbD r.bit = d.getLsbD r.idx.val := by
  rw [show r.bit = portLsb + r.idx.val from rfl, getLsbD_eq_win _ (by omega), ← h, BitVec.getLsbD_and]
  cases r <;> exact (Bool.and_true _).symm

/-- Settles O15: between operations the invariant promises the window of R132. -/
theorem rowsIdleHigh : Obligations.RowsIdleHigh := by
  unfold Obligations.RowsIdleHigh
  intro s t h hm hk hb
  have ht : BlockInv t := stepKeepsInvariant s t h hm
  have hq : portQuiet t.seq = true := by rw [ht.sequencer.idle hb]; rfl
  obtain ⟨hd, he, ho⟩ : KeypadIdle t := ((keypadInv_iff_of_quiet hq).1 ht.keypad).1 hk
  obtain ⟨hrows, hcols⟩ := driven_of_windows hd he
  exact ⟨hd, he, ho, fun r => ⟨hrows r, by rw [row_level ho]; cases r <;> rfl⟩, hcols⟩

/-- The port during the samples of a row: that row driven low, the others driven high, no column driven (R134). -/
structure OneRowLow (r : Row) (s : State) : Prop where
  direction : win s.pdir = 0x0F
  enable : win s.poen = 0x0F
  rows : win s.pout &&& 0x0F = rowNibble r

theorem OneRowLow.driven {r : Row} (h : OneRowLow r s) :
    (∀ r' : Row, driven s r'.bit = true) ∧ ∀ c : Col, driven s c.bit = false :=
  driven_of_windows h.direction h.enable

theorem OneRowLow.row_level_low_iff {r : Row} (h : OneRowLow r s) (r' : Row) :
    s.pout.getLsbD r'.bit = false ↔ r' = r := by
  rw [row_level h.rows]
  cases r <;> cases r' <;> decide

/-- At a sample the invariant promises the port of `OneRowLow`. -/
theorem oneRowLow_of_inv {r : Row} {c : Col} (h : BlockInv s) (hs : s.seq = .ksSample r c) : OneRowLow r s := by
  obtain ⟨-, hd, he, hr, -⟩ := (keypadInv_iff_of_scanLabel (by rw [hs]; rfl)).1 h.keypad
  exact ⟨hd, he, by rw [hr, hs]; rfl⟩

/-- While one row is low a column is joined to a low row exactly through the contact of that row (R202). -/
theorem OneRowLow.joinedLow_eq {r : Row} (h : OneRowLow r s) (c : Col) : joinedLow s c = contact s.closed r c := by
  obtain ⟨hrows, -⟩ := h.driven
  rw [Bool.eq_iff_iff, joinedLow_iff]
  simp [hrows, h.row_level_low_iff]

/-- While one row is low a column with no two closed contacts reads low exactly where that row's contact is closed
(R203). -/
theorem OneRowLow.pinBit_eq {r : Row} (h : OneRowLow r s) (hone : OnePerColumn s.closed) (c : Col) :
    pinBit s c.bit = !contact s.closed r c := by
  obtain ⟨-, hcols⟩ := h.driven
  rw [pinBit_col (hcols c)]
  cases hc : contact s.closed r c with
  | false => exact colLevel_of_not_joinedLow ((h.joinedLow_eq c).trans hc)
  | true =>
    refine colLevel_eq_false ((h.joinedLow_eq c).trans hc) (Bool.eq_false_iff.2 fun hj => ?_)
    obtain ⟨r', hc', -, hp⟩ := joinedHigh_iff.1 hj
    rw [(h.row_level_low_iff r').2 (hone c r' r hc' hc)] at hp
    cases hp

/-- Releasing the rows after driving one of them gives POUT its idle value back (R134). -/
theorem setwin_rows_restore {v : Word} (h : win v &&& 0x0F = 0x0F) (d : BitVec 8) :
    setwin (setwin v 0x0F d) 0x0F 0x0F = v := by
  have hset : setwin (setwin v 0x0F d) 0x0F 0x0F = setwin v 0x0F 0x0F := by
    apply BitVec.eq_of_getLsbD_eq
    intro i _
    simp only [getLsbD_setwin]
    split_ifs <;> rfl
  rw [hset, setwin_same v _ _ (h.trans (by decide))]

/-! ### KDEC (section 3) -/

theorem exec_kdec_idle {row col : BitVec 8} (hb : s.busy = false) :
    exec (.kdec row col) s = .next (accept (.kdec row col) .kdExec false s) := by
  simp [exec, execKdec, hb]

/-- Settles O27: KDEC needs no initialisation, and its one micro-step stores `keyOf`. -/
theorem kdecMicroSteps : Obligations.KdecMicroSteps := by
  unfold Obligations.KdecMicroSteps
  refine ⟨fun row col s hb => exec_kdec_idle hb, fun row col s hb hc hs => ?_, by decide⟩
  have hx : exec (.kdec row col) s = kdecMicro row col s := execKdec_busy hb hc
  rw [hx]
  simp only [kdecMicro, hs]
  rfl

/-- Settles O31: the Issue writes no register, the micro-step KEY alone. -/
theorem kdecFrame : Obligations.KdecFrame := by
  unfold Obligations.KdecFrame
  intro row col s t h
  cases hb : s.busy with
  | false =>
    obtain rfl := Host.Outcome.next.inj ((exec_kdec_idle hb).symm.trans h)
    exact ⟨SamePort.refl s, SameLatch.refl s, rfl, SameUartConfig.refl s, SameFifo.refl s, SameBuffer.refl s,
      SameDone.refl s, SameSurroundings.refl s, rfl, rfl, fun _ => rfl, nofun⟩
  | true =>
    have hc := cmd_eq_of_exec_busy hb h
    obtain ⟨-, rfl⟩ := kdecMicro_cases ((execKdec_busy hb hc).symm.trans h)
    exact ⟨SamePort.refl s, SameLatch.refl s, rfl, SameUartConfig.refl s, SameFifo.refl s, SameBuffer.refl s,
      SameDone.refl s, SameSurroundings.refl s, rfl, hc, nofun, fun _ => rfl⟩

/-! ### The micro-steps of KSCAN and KWAIT (sections 2 and 4) -/

/-- A scanning command in progress takes a micro-step of a pass (R134, R145). -/
theorem exec_scan_busy {i : Instr} (hi : i = .kscan ∨ i = .kwait) (hb : s.busy = true) (hc : s.cmd = i) :
    exec i s = scanMicro s := by
  obtain rfl | rfl := hi
  · exact execKscan_busy hb hc
  · exact execKwait_busy hb hc

/-- A scanning command is issued to KS_BEGIN once KINIT has run, with WAITMODE for KWAIT alone (R134, R145, R262). -/
theorem exec_scan_idle {i : Instr} (hi : i = .kscan ∨ i = .kwait) (hb : s.busy = false) :
    exec i s = acceptIf s.kinitDone i .ksBegin (i == .kwait) s := by
  obtain rfl | rfl := hi
  · exact if_neg (by simp [hb])
  · exact if_neg (by simp [hb])

theorem exec_scan_accepts {i : Instr} (hi : i = .kscan ∨ i = .kwait) (hb : s.busy = false) (hk : s.kinitDone = true) :
    exec i s = .next (accept i .ksBegin (i == .kwait) s) := by
  rw [exec_scan_idle hi hb, acceptIf, if_pos hk]

theorem exec_scan_refuses {i : Instr} (hi : i = .kscan ∨ i = .kwait) (hb : s.busy = false)
    (hk : s.kinitDone = false) : exec i s = .refused .useBeforeInit := by
  rw [exec_scan_idle hi hb, acceptIf, if_neg (by simp [hk])]

theorem scanMicroSteps {i : Instr} (hi : i = .kscan ∨ i = .kwait) : ScanMicroSteps i := by
  intro s hb hc
  rw [exec_scan_busy hi hb hc]
  exact ⟨fun hs => scanMicro_ksBegin hs, fun r hs => scanMicro_ksDrvRd hs, fun r hs => scanMicro_ksDrvWr hs,
    fun r hs => scanMicro_ksRstRd hs, fun hs => scanMicro_ksRstWr hs, fun hs => scanMicro_ksRstWr hs,
    fun hs => scanMicro_ksRstWr hs, fun hs => scanMicro_ksRstWr hs⟩

/-- KS_END of a KSCAN, and of a KWAIT whose code is not negative, ends the operation (R134, R145). -/
theorem scanMicro_ksEnd_ends (hs : s.seq = .ksEnd) (h : s.waitmode = false ∨ 0 ≤ (scanResult s).toInt) :
    scanMicro s = .next (finish (clearWait (setKey (scanResult s) s))) := by
  rw [scanMicro_ksEnd hs, scanEnd, if_neg]
  rw [Bool.and_eq_true, BitVec.msb_eq_toInt, decide_eq_true_eq]
  rintro ⟨hw, hneg⟩
  obtain h | h := h
  · simp [hw] at h
  · omega

/-- KS_END of a KWAIT with a negative code starts another pass (R145). -/
theorem scanMicro_ksEnd_again (hs : s.seq = .ksEnd) (hw : s.waitmode = true) (h : (scanResult s).toInt < 0) :
    scanMicro s = .next (setSeq .ksBegin (setKey (scanResult s) s)) := by
  rw [scanMicro_ksEnd hs, scanEnd, if_pos]
  rw [Bool.and_eq_true, BitVec.msb_eq_toInt, decide_eq_true_eq]
  exact ⟨hw, h⟩

theorem clearWait_eq_self (h : s.waitmode = false) : clearWait s = s := by
  rw [clearWait, ← h]

/-- Settles O17: the shared micro-steps, and KS_END with WAITMODE = 0. -/
theorem kscanMicroSteps : Obligations.KscanMicroSteps := by
  unfold Obligations.KscanMicroSteps
  refine ⟨fun s hb hk => ?_, fun s hb hk => ?_, scanMicroSteps (.inl rfl), fun s hb hc hs hw => ?_, by decide⟩
  · exact exec_scan_accepts (.inl rfl) hb hk
  · exact exec_scan_refuses (.inl rfl) hb hk
  · rw [exec_scan_busy (.inl rfl) hb hc, scanMicro_ksEnd_ends hs (.inl hw),
      clearWait_eq_self (s := setKey (scanResult s) s) hw]
    rfl

/-- Settles O18: the shared micro-steps, and KS_END by the sign of the code. -/
theorem kwaitMicroSteps : Obligations.KwaitMicroSteps := by
  unfold Obligations.KwaitMicroSteps
  refine ⟨fun s hb hk => ?_, fun s hb hk => ?_, scanMicroSteps (.inr rfl), fun s hb hc hs hw hneg => ?_,
    fun s hb hc hs hw hpos => ?_⟩
  · exact exec_scan_accepts (.inr rfl) hb hk
  · exact exec_scan_refuses (.inr rfl) hb hk
  · exact (exec_scan_busy (.inr rfl) hb hc).trans (scanMicro_ksEnd_again hs hw hneg)
  · exact (exec_scan_busy (.inr rfl) hb hc).trans (scanMicro_ksEnd_ends hs (.inr hpos))

/-- Settles O19: the bit tested is the bit of the column's pin, and the invariant holds the row, and no other, low. -/
theorem sampleTestsOneBit : Obligations.SampleTestsOneBit := by
  unfold Obligations.SampleTestsOneBit
  refine ⟨fun i s r c hi hb hc hs => ⟨pinWord s, rfl, ?_⟩, fun r => ⟨rfl, rfl, rfl, rfl⟩, fun s r c h hs r' => ?_⟩
  · have hbit : (pinWord s).getLsbD (portLsb + (c.num + 4) - 1) = pinBit s c.bit :=
      pinWord_getLsbD s c.bit (by have := col_bit_range c; omega)
    rw [exec_scan_busy hi hb hc, scanMicro_ksSample hs, sample, hbit]
    cases pinBit s c.bit <;> rfl
  · have hlow := oneRowLow_of_inv h hs
    obtain ⟨hrows, -⟩ := hlow.driven
    exact ⟨hrows r', hlow.row_level_low_iff r'⟩

/-- Settles O26: the Issue writes no register, and each micro-step of a pass those its label names. -/
theorem scanFrame : Obligations.ScanFrame := by
  unfold Obligations.ScanFrame
  intro i s t hi h
  cases hb : s.busy with
  | false =>
    obtain ⟨-, rfl⟩ := acceptIf_eq_next.1 ((exec_scan_idle hi hb).symm.trans h)
    exact ⟨rfl, rfl, SameUartConfig.refl s, SameFifo.refl s, SameBuffer.refl s, SameDone.refl s,
      SameSurroundings.refl s, rfl, fun _ => rfl, fun _ => rfl, fun _ => ⟨rfl, rfl, rfl⟩, fun _ => rfl, fun _ => rfl,
      nofun⟩
  | true =>
    have hc := cmd_eq_of_exec_busy hb h
    obtain ⟨hs, rfl⟩ | ⟨r, hs, rfl⟩ | ⟨r, hs, rfl⟩ | ⟨r, c, hs, -, rfl⟩ | ⟨r, c, hs, -, rfl⟩ | ⟨r, hs, rfl⟩ |
      ⟨r, hs, rfl⟩ | ⟨hs, -, -, rfl⟩ | ⟨hs, -, rfl⟩ := scanMicro_cases ((exec_scan_busy hi hb hc).symm.trans h)
    all_goals
      refine ⟨rfl, rfl, SameUartConfig.refl s, SameFifo.refl s, SameBuffer.refl s, SameDone.refl s,
        SameSurroundings.refl s, hc, ?_, ?_, ?_, ?_, ?_, ?_⟩ <;> simp [hs, SameKey]

/-! ### What KS_END leaves in KEY (R138, R142, R145) -/

theorem busy_of_seq_ne_idle (h : SequencerInv s) (hs : s.seq ≠ .idle) : s.busy = true := by
  by_contra hb
  exact hs (h.idle (Bool.eq_false_iff.2 hb))

theorem oneToFour_toInt {v : BitVec 8} (h : oneToFour v = true) : 1 ≤ v.toInt ∧ v.toInt ≤ 4 := by
  obtain ⟨h1, h4⟩ : 1 ≤ v.toNat ∧ v.toNat ≤ 4 := by simpa [oneToFour] using h
  rw [BitVec.toInt_eq_toNat_of_lt (by omega)]
  omega

/-- Nothing recorded gives -1 (R137). -/
theorem scanResult_of_not_hit (h : s.hit = false) : (scanResult s).toInt = -1 := by
  rw [scanResult, h]
  rfl

/-- A recorded position of the matrix gives a key code (R142). -/
theorem scanResult_of_hit (h : s.hit = true) (hp : oneToFour s.row = true ∧ oneToFour s.col = true) :
    0 ≤ (scanResult s).toInt ∧ (scanResult s).toInt ≤ 15 := by
  rw [scanResult, if_pos h, keyOf_toInt]
  exact decodeKey_matrix (oneToFour_toInt hp.1) (oneToFour_toInt hp.2)

/-- Settles O25: the latch names a position of the matrix whenever HIT = 1. -/
theorem scanResultRange : Obligations.ScanResultRange := by
  unfold Obligations.ScanResultRange
  refine ⟨fun s h hc hs => ?_, fun s h hc hs hhit => ?_, fun s h hc hs hhit => ?_⟩
  all_goals have hb : s.busy = true := busy_of_seq_ne_idle h.sequencer (by simp [hs])
  · have hw : s.waitmode = false := h.sequencer.waitmode_eq_false (by simp [hc])
    refine ⟨_, (exec_scan_busy (.inl rfl) hb hc).trans (scanMicro_ksEnd_ends hs (.inl hw)), rfl, ?_⟩
    simp only [finish_key, clearWait_key, setKey_key]
    cases hhit : s.hit with
    | false => simp [scanResult_of_not_hit hhit]
    | true =>
      obtain ⟨h0, h15⟩ := scanResult_of_hit hhit (h.keypad.latch hhit)
      exact ⟨by omega, h15, by simp; omega⟩
  · have hres := scanResult_of_hit hhit (h.keypad.latch hhit)
    exact ⟨_, (exec_scan_busy (.inr rfl) hb hc).trans (scanMicro_ksEnd_ends hs (.inr hres.1)), rfl, rfl, rfl, hres⟩
  · have hw : s.waitmode = true := by simp [h.sequencer.wait, hb, hc]
    have hres := scanResult_of_not_hit hhit
    exact ⟨_, (exec_scan_busy (.inr rfl) hb hc).trans (scanMicro_ksEnd_again hs hw (by omega)), hb, rfl, hw, hres⟩

/-! ### Runs of SEQ alone -/

theorem seqRun_succ {i : Instr} {n : Nat} (h : exec i s = .next t) : seqRun (n + 1) i s = seqRun n i t := by
  rw [seqRun, h, andThen_next]

theorem seqRun_add {i : Instr} {m n : Nat} (h : seqRun m i s = .next t) : seqRun (m + n) i s = seqRun n i t := by
  induction m generalizing s with
  | zero => rw [Nat.zero_add, Host.Outcome.next.inj h]
  | succ m ih =>
    obtain ⟨u, hu, hrun⟩ := andThen_eq_next.1 h
    rw [Nat.add_right_comm, seqRun_succ hu, ih hrun]

theorem seqRun_snoc {i : Instr} {n : Nat} {u : State} (h : seqRun n i s = .next t) (hx : exec i t = .next u) :
    seqRun (n + 1) i s = .next u := by
  rw [seqRun_add h, seqRun_succ hx, seqRun]

/-! ### A whole pass over held contacts (R134, R136, R203) -/

/-- The last of the tested positions whose contact is closed. -/
def lastHit (k : Contacts) (ps : List (Row × Col)) : Option (Row × Col) :=
  (ps.filter fun p => contact k p.1 p.2).getLast?

theorem lastHit_append_closed {k : Contacts} {p : Row × Col} (h : contact k p.1 p.2 = true) (ps : List (Row × Col)) :
    lastHit k (ps ++ [p]) = some p := by
  simp [lastHit, h]

theorem lastHit_append_open {k : Contacts} {p : Row × Col} (h : contact k p.1 p.2 = false) (ps : List (Row × Col)) :
    lastHit k (ps ++ [p]) = lastHit k ps := by
  simp [lastHit, h]

/-- The latch of `t` shows the position `q`, or stands as in `s` with HIT = 0 when there is none (R134, R137). -/
def LatchShows (q : Option (Row × Col)) (s t : State) : Prop :=
  t.hit = q.isSome ∧ (∀ p, q = some p → t.row = BitVec.ofNat 8 p.1.num ∧ t.col = BitVec.ofNat 8 p.2.num) ∧
    (q = none → t.row = s.row ∧ t.col = s.col)

/-- Setting for a pass: a scanning command at KS_BEGIN, the keypad idle, no two closed contacts in one column. -/
structure PassStart (i : Instr) (s : State) : Prop where
  scan : i = .kscan ∨ i = .kwait
  busy : s.busy = true
  cmd : s.cmd = i
  begins : s.seq = .ksBegin
  idle : KeypadIdle s
  one : OnePerColumn s.closed

/-- `t` is a state of the pass begun in `s`, the positions `ps` having been tested: the latch shows the last closed one,
PIN was read once for each, and beside them only TMP, POUT and SEQ may differ. -/
structure PassProgress (s : State) (ps : List (Row × Col)) (t : State) : Prop where
  same : t = { s with row := t.row, col := t.col, hit := t.hit, tmp := t.tmp, pout := t.pout, seq := t.seq,
                      draws := s.draws + ps.length }
  latch : LatchShows (lastHit s.closed ps) s t

section

variable {i : Instr} {ps : List (Row × Col)} {r : Row} {c : Col}

/-- A pass leaves the UART, the buffer, the flags and the surroundings alone. -/
theorem PassProgress.frame (h : PassProgress s ps t) : SameUartConfig s t ∧ SameFifo s t ∧ SameBuffer s t ∧
    SameDone s t ∧ SameSurroundings s t := by
  rw [h.same]
  exact ⟨SameUartConfig.refl s, SameFifo.refl s, SameBuffer.refl s, SameDone.refl s, SameSurroundings.refl s⟩

theorem PassProgress.sequencer (h : PassProgress s ps t) :
    t.busy = s.busy ∧ t.cmd = s.cmd ∧ t.waitmode = s.waitmode := by
  rw [h.same]
  exact ⟨rfl, rfl, rfl⟩

theorem PassProgress.windows (h : PassProgress s ps t) : t.pdir = s.pdir ∧ t.poen = s.poen := by
  rw [h.same]
  exact ⟨rfl, rfl⟩

theorem PassProgress.exec_eq (h : PassProgress s ps t) (hs : PassStart i s) : exec i t = scanMicro t := by
  obtain ⟨hb, hc, -⟩ := h.sequencer
  exact exec_scan_busy hs.scan (hb.trans hs.busy) (hc.trans hs.cmd)

/-- The halves of the read-modify-writes test no position. -/
theorem PassProgress.tmp_taken (h : PassProgress s ps t) (v : Word) (l : SeqLabel) :
    PassProgress s ps (setSeq l (setTmp v t)) :=
  ⟨congrArg (fun x => setSeq l (setTmp v x)) h.same, h.latch⟩

theorem PassProgress.pout_written (h : PassProgress s ps t) (v : Word) (l : SeqLabel) :
    PassProgress s ps (setSeq l (setPout v t)) :=
  ⟨congrArg (fun x => setSeq l (setPout v x)) h.same, h.latch⟩

theorem PassStart.exec_ksBegin (hs : PassStart i s) :
    ∃ t, exec i s = .next t ∧ PassProgress s [] t ∧ t.seq = .ksDrvRd .r4 ∧ t.pout = s.pout :=
  ⟨_, (exec_scan_busy hs.scan hs.busy hs.cmd).trans (scanMicro_ksBegin hs.begins),
    ⟨rfl, rfl, nofun, fun _ => ⟨rfl, rfl⟩⟩, rfl, rfl⟩

/-- A sample of the low row tests one position: it is recorded exactly where its contact is closed (R135, R203). -/
theorem PassProgress.sampled (h : PassProgress s ps t) (hs : PassStart i s) (hl : t.seq = .ksSample r c)
    (hr : win t.pout &&& 0x0F = rowNibble r) :
    ∃ u, exec i t = .next u ∧ PassProgress s (ps ++ [(r, c)]) u ∧ u.seq = afterSample r c ∧ u.pout = t.pout := by
  obtain ⟨hd, he⟩ := h.windows
  obtain ⟨hdir, hen, -⟩ := hs.idle
  obtain ⟨-, -, -, -, hk, -⟩ := h.frame
  have hlow : OneRowLow r t := ⟨hd ▸ hdir, he ▸ hen, hr⟩
  have hpin : pinBit t c.bit = !contact s.closed r c := hk ▸ hlow.pinBit_eq (hk ▸ hs.one) c
  rw [h.exec_eq hs, scanMicro_ksSample hl, sample, hpin]
  cases hc : contact s.closed r c with
  | false =>
    refine ⟨_, rfl, ⟨?_, ?_⟩, rfl, rfl⟩
    · rw [List.length_append]
      exact congrArg (fun x => setSeq (afterSample r c) (countRead x)) h.same
    · rw [lastHit_append_open hc]
      exact h.latch
  | true =>
    refine ⟨_, rfl, ⟨?_, ?_⟩, rfl, rfl⟩
    · rw [List.length_append]
      exact congrArg (fun x => setSeq (afterSample r c) (recordHit r c (countRead x))) h.same
    · rw [lastHit_append_closed hc]
      exact ⟨rfl, fun p hp => Option.some.inj hp ▸ ⟨rfl, rfl⟩, nofun⟩

/-- The four samples of a row, in the order of PIN_ORDER (R134). -/
theorem PassProgress.samples (h : PassProgress s ps t) (hs : PassStart i s) (hl : t.seq = .ksSample r .c4)
    (hr : win t.pout &&& 0x0F = rowNibble r) :
    ∃ u, seqRun 4 i t = .next u ∧ PassProgress s (ps ++ pinOrder.map (r, ·)) u ∧ u.seq = .ksRstRd r ∧
      u.pout = t.pout := by
  obtain ⟨t4, hx4, h4, hl4, ho4⟩ := h.sampled hs hl hr
  obtain ⟨t3, hx3, h3, hl3, ho3⟩ := h4.sampled hs hl4 (by rw [ho4, hr])
  obtain ⟨t2, hx2, h2, hl2, ho2⟩ := h3.sampled hs hl3 (by rw [ho3, ho4, hr])
  obtain ⟨t1, hx1, h1, hl1, ho1⟩ := h2.sampled hs hl2 (by rw [ho2, ho3, ho4, hr])
  refine ⟨t1, ?_, ?_, hl1, by rw [ho1, ho2, ho3, ho4]⟩
  · rw [seqRun_succ hx4, seqRun_succ hx3, seqRun_succ hx2, seqRun_succ hx1, seqRun]
  · simpa [pinOrder] using h1

/-- The eight micro-steps of a row: drive it, take its samples, release it (R134). -/
theorem PassProgress.row (h : PassProgress s ps t) (hs : PassStart i s) (hl : t.seq = .ksDrvRd r)
    (ho : t.pout = s.pout) :
    ∃ u, seqRun 8 i t = .next u ∧ PassProgress s (ps ++ pinOrder.map (r, ·)) u ∧ u.seq = afterRow r ∧
      u.pout = s.pout := by
  obtain ⟨-, -, hrows⟩ := hs.idle
  have hrd := h.tmp_taken t.pout (.ksDrvWr r)
  have hwr := hrd.pout_written (setwin t.pout 0x0F (rowNibble r)) (.ksSample r firstCol)
  obtain ⟨u, hu, hp, hlu, hou⟩ := hwr.samples hs rfl (win_setwin_rows _ (rowNibble_rows r))
  have hrst := hp.tmp_taken u.pout (.ksRstWr r)
  refine ⟨_, ?_, hrst.pout_written (setwin u.pout 0x0F 0x0F) (afterRow r), rfl, ?_⟩
  · rw [seqRun_succ ((h.exec_eq hs).trans (scanMicro_ksDrvRd hl)),
      seqRun_succ ((hrd.exec_eq hs).trans (scanMicro_ksDrvWr rfl))]
    refine (seqRun_add (m := 4) (n := 2) hu).trans ?_
    rw [seqRun_succ ((hp.exec_eq hs).trans (scanMicro_ksRstRd hlu)),
      seqRun_succ ((hrst.exec_eq hs).trans (scanMicro_ksRstWr rfl))]
    rfl
  · rw [setSeq_pout, setPout_pout, hou, setSeq_pout, setPout_pout, ho]
    exact setwin_rows_restore hrows _

/-- All micro-steps of a pass but the last test the sixteen positions in the order of R136. -/
theorem PassStart.run_tests (hs : PassStart i s) :
    ∃ t, seqRun 33 i s = .next t ∧ PassProgress s testOrder t ∧ t.seq = .ksEnd ∧ t.pout = s.pout := by
  obtain ⟨t4, hx, h4, hl4, ho4⟩ := hs.exec_ksBegin
  obtain ⟨t3, hr4, h3, hl3, ho3⟩ := h4.row hs hl4 ho4
  obtain ⟨t2, hr3, h2, hl2, ho2⟩ := h3.row hs hl3 ho3
  obtain ⟨t1, hr2, h1, hl1, ho1⟩ := h2.row hs hl2 ho2
  obtain ⟨t, hr1, h, hl, ho⟩ := h1.row hs hl1 ho1
  refine ⟨t, ?_, h, hl, ho⟩
  rw [seqRun_succ hx, seqRun_add (m := 8) (n := 24) hr4, seqRun_add (m := 8) (n := 16) hr3,
    seqRun_add (m := 8) (n := 8) hr2, hr1]

end

/-- The code KS_END makes of a recorded position is its key code (R134). -/
theorem keyOf_position (r : Row) (c : Col) : keyOf (BitVec.ofNat 8 r.num) (BitVec.ofNat 8 c.num) = codeOf (r, c) := by
  cases r <;> cases c <;> rfl

/-- At the end of a pass the latch holds the result of the pass (R137). -/
theorem scanResult_of_latch (h : LatchShows (lastClosed s.closed) s t) : scanResult t = passResult s.closed := by
  obtain ⟨hhit, hsome, -⟩ := h
  cases hq : lastClosed s.closed with
  | none => simp [scanResult, passResult, hhit, hq]
  | some p =>
    obtain ⟨hrow, hcol⟩ := hsome p hq
    simp only [scanResult, passResult, hhit, hq, hrow, hcol, Option.isSome_some, if_true, keyOf_position]

/-- Every key code is a number from 0 up (R142). -/
theorem codeOf_nonneg (p : Row × Col) : 0 ≤ (codeOf p).toInt := by
  obtain ⟨r, c⟩ := p
  cases r <;> cases c <;> decide

/-- The result of a pass is negative exactly when no contact is closed (R137, R142). -/
theorem passResult_sign (k : Contacts) : (passResult k).toInt < 0 ↔ lastClosed k = none := by
  unfold passResult
  split
  case h_1 p hp => simp [hp, codeOf_nonneg p]
  case h_2 hn => simp [hn]

/-- Settles O22: the sixteen tests, then KS_END with WAITMODE = 0. -/
theorem scanPassReportsLastClosed : Obligations.ScanPassReportsLastClosed := by
  unfold Obligations.ScanPassReportsLastClosed
  intro s hb hc hl hw hidle hone
  have hs : PassStart .kscan s := ⟨.inl rfl, hb, hc, hl, hidle, hone⟩
  obtain ⟨t, hrun, h, hlt, ho⟩ := hs.run_tests
  obtain ⟨hd, he⟩ := h.windows
  obtain ⟨hcfg, hfifo, hbuf, hdone, hsur⟩ := h.frame
  obtain ⟨hhit, hsome, hnone⟩ := h.latch
  obtain ⟨-, -, hwt⟩ := h.sequencer
  have hend : exec .kscan t = .next (finish (clearWait (setKey (scanResult t) t))) :=
    (h.exec_eq hs).trans (scanMicro_ksEnd_ends hlt (.inl (hwt.trans hw)))
  exact ⟨_, seqRun_snoc hrun hend, scanResult_of_latch h.latch, hhit, rfl, rfl, rfl, ⟨hd, he, ho⟩,
    congrArg State.draws h.same, hcfg, hfifo, hbuf, hdone, hsur, hsome, hnone⟩

/-- Settles O23: the sixteen tests, then KS_END by the sign of the result. -/
theorem waitPassEndsOnKey : Obligations.WaitPassEndsOnKey := by
  unfold Obligations.WaitPassEndsOnKey
  intro s hb hc hl hw hidle hone
  have hs : PassStart .kwait s := ⟨.inr rfl, hb, hc, hl, hidle, hone⟩
  obtain ⟨t, hrun, h, hlt, ho⟩ := hs.run_tests
  obtain ⟨hd, he⟩ := h.windows
  obtain ⟨hbt, -, hwt⟩ := h.sequencer
  have hres : scanResult t = passResult s.closed := scanResult_of_latch h.latch
  have hsign := passResult_sign s.closed
  rw [← hres] at hsign
  by_cases hq : lastClosed s.closed = none
  · have hend := (h.exec_eq hs).trans (scanMicro_ksEnd_again hlt (hwt.trans hw) (hsign.2 hq))
    exact ⟨_, seqRun_snoc hrun hend, hres, ⟨hd, he, ho⟩, fun hne => absurd hq hne,
      fun _ => ⟨hbt.trans hb, rfl, hwt.trans hw⟩⟩
  · have hend := (h.exec_eq hs).trans (scanMicro_ksEnd_ends hlt (.inr (not_lt.1 (mt hsign.1 hq))))
    exact ⟨_, seqRun_snoc hrun hend, hres, ⟨hd, he, ho⟩, fun _ => ⟨rfl, rfl, rfl⟩, fun hn => absurd hn hq⟩

end Sys2Proof.Machine

/-! Proofs about the serial transmit driver (spec/41_uart_tx.md) and the faults of the machine: what a step of another
agent can touch, UCFG, UTX, and the steps the invariant allows. -/

namespace Sys2Proof.Machine

variable {s t : State}

/-! ### Whose step it is (R218) -/

/-- From `s` to `t` at most the stored port registers, the contacts and HOST's side have changed: neither the UART nor
the sequencer is touched. -/
def StepsAside (s t : State) : Prop :=
  t = { s with pdir := t.pdir, poen := t.poen, pout := t.pout, closed := t.closed, hostKey := t.hostKey }

/-- OTHER replaces foreign bits of a port register, or changes nothing (R212). -/
theorem otherStep_stepsAside (r : SharedReg) (v : Word) (s : State) : StepsAside s (otherStep r v s) := by
  unfold otherStep
  split_ifs
  · rfl
  · cases r <;> rfl

theorem hostReadStep_stepsAside (s : State) : StepsAside s (hostReadStep s) := by
  unfold hostReadStep
  split_ifs <;> rfl

/-- One step of any agent but the reset event: SEQ's micro-step, an Issue, a step of UARTDEV, or a step that touches
neither the UART nor the sequencer. -/
theorem runEvent_cases (e : Event) (s : State) (he : e ≠ .powerOn) :
    (e = .seq ∧ s.busy = true ∧ runEvent e s = exec s.cmd s) ∨
    (e = .hostIssue ∧ s.busy = false) ∨
    (∃ rx tx, e = .resetDone rx tx ∧ runEvent e s = .next (clearResets rx tx s)) ∨
    (e = .dequeue ∧ runEvent e s = .next (dequeueStep s)) ∨
    (∃ t, runEvent e s = .next t ∧ StepsAside s t) := by
  cases e with
  | powerOn => exact absurd rfl he
  | resetDone rx tx => exact .inr (.inr (.inl ⟨rx, tx, rfl, rfl⟩))
  | dequeue => exact .inr (.inr (.inr (.inl ⟨rfl, rfl⟩)))
  | keys k => exact .inr (.inr (.inr (.inr ⟨_, rfl, rfl⟩)))
  | hostRead => exact .inr (.inr (.inr (.inr ⟨_, rfl, hostReadStep_stepsAside s⟩)))
  | other r v => exact .inr (.inr (.inr (.inr ⟨_, rfl, otherStep_stepsAside r v s⟩)))
  | seq =>
    by_cases hb : s.busy = true
    · exact .inl ⟨rfl, hb, seqStep_busy hb⟩
    · exact .inr (.inr (.inr (.inr ⟨s, if_neg hb, rfl⟩)))
  | hostIssue =>
    by_cases hb : s.busy = true
    · exact .inr (.inr (.inr (.inr ⟨s, hostIssueStep_busy hb, rfl⟩)))
    · exact .inr (.inl ⟨rfl, Bool.eq_false_iff.2 hb⟩)

theorem dequeueStep_of_fifo_nil (h : s.fifo = []) : dequeueStep s = s := by
  simp only [dequeueStep, h]

/-- With an empty agenda SEQ moves while an operation is in progress (log entry 1). -/
theorem step_of_agenda_nil (ha : s.agenda = []) (hb : s.busy = true) : step s = exec s.cmd s := by
  have htake : takeEvent s = s := by rw [takeEvent, ha, List.tail_nil, ← ha]
  simp only [step_eq, nextEvent, ha, defaultEvent, hb, if_true, htake, runEvent, seqStep]

theorem run_succ {n : Nat} (h : step s = .next t) : core.run (n + 1) s = core.run n t := by
  simp only [Host.Core.run, core, h]

theorem run_of_step_self (h : step s = .next s) (n : Nat) : core.run n s = .next s := by
  induction n with
  | zero => rfl
  | succ n ih => rw [run_succ h, ih]

/-! ### The writes of UCFG (R35 to R39, R161) -/

/-- The soft reset of UC_RESET empties the FIFO and clears TXFULL (R206). -/
theorem writeUcr_softReset (s : State) : writeUcr 0x00000003 s =
    { s with rxrst := true, txrst := true, rxen := false, txen := false, fifo := [], txfull := false } := by
  simp [writeUcr]

/-- The enables of UC_ENABLE leave the FIFO alone. -/
theorem writeUcr_enables (s : State) : writeUcr 0x00000014 s = { s with rxen := true, txen := true } := by
  simp [writeUcr]

/-- The mode word of UC_MODE holds each field code in its own bits of UMR. -/
theorem writeUmr_modeWord (stop data : BitVec 2) (parity : BitVec 3) (s : State) :
    writeUmr (modeWord stop data parity) s = { s with chrl := data, par := parity, nbstop := stop } := by
  have hdata : (modeWord stop data parity).extractLsb' 1 2 = data := by
    apply BitVec.eq_of_getLsbD_eq
    intro i hi
    interval_cases i <;> simp [modeWord]
  have hpar : (modeWord stop data parity).extractLsb' 3 3 = parity := by
    apply BitVec.eq_of_getLsbD_eq
    intro i hi
    interval_cases i <;> simp [modeWord]
  have hstop : (modeWord stop data parity).extractLsb' 6 2 = stop := by
    apply BitVec.eq_of_getLsbD_eq
    intro i hi
    interval_cases i <;> simp [modeWord]
  rw [writeUmr, hdata, hpar, hstop]

/-- The low bits of a widened operand are the operand. -/
theorem extractLsb'_setWidth {n : Nat} (v : BitVec n) (hn : n ≤ 32) : (v.setWidth 32).extractLsb' 0 n = v := by
  apply BitVec.eq_of_getLsbD_eq
  intro i hi
  simp [hi, show i < 32 by omega]

theorem writeUbg_setWidth (cd : BitVec 16) (s : State) : writeUbg (cd.setWidth 32) s = { s with cd := cd } := by
  rw [writeUbg, extractLsb'_setWidth cd (by decide)]

theorem writeUbd_setWidth (bdiv : BitVec 8) (s : State) : writeUbd (bdiv.setWidth 32) s = { s with bdiv := bdiv } := by
  rw [writeUbd, extractLsb'_setWidth bdiv (by decide)]

theorem writeUier_both (s : State) : writeUier 0x00000018 s = { s with txemptyEn := true, txfullEn := true } := by
  simp [writeUier]

theorem ucrWord_reset_ne_zero (h : s.rxrst = true ∨ s.txrst = true) : (ucrWord s).extractLsb' 0 2 ≠ 0 := by
  rw [Ne, ucrWord_reset_eq_zero]
  rintro ⟨htx, hrx⟩
  simp [htx, hrx] at h

/-- With no reset pending UCR reads the enables of UC_ENABLE (R163). -/
theorem ucrWord_of_enabled (hr : s.rxrst = false) (ht : s.txrst = false) (hre : s.rxen = true) (hte : s.txen = true) :
    ucrWord s = 0x00000014 := by
  simp only [ucrWord, hr, ht, hre, hte]
  decide

theorem umrWord_of_fields {stop data : BitVec 2} {parity : BitVec 3} (hc : s.chrl = data) (hp : s.par = parity)
    (hn : s.nbstop = stop) : umrWord s = modeWord stop data parity := by
  have hw : writeUmr (modeWord stop data parity) s = s := by rw [writeUmr_modeWord, ← hc, ← hp, ← hn]
  have hread := umrWord_writeUmr (modeWord stop data parity) s
  rw [hw] at hread
  rw [hread]
  apply BitVec.eq_of_getLsbD_eq
  intro i hi
  interval_cases i <;> simp [modeWord]

theorem ubgWord_eq_setWidth (s : State) : ubgWord s = s.cd.setWidth 32 := by
  apply BitVec.eq_of_getLsbD_eq
  intro i hi
  rw [ubgWord_getLsbD, BitVec.getLsbD_setWidth, decide_eq_true hi, Bool.true_and]

theorem ubdWord_eq_setWidth (s : State) : ubdWord s = s.bdiv.setWidth 32 := by
  apply BitVec.eq_of_getLsbD_eq
  intro i hi
  rw [ubdWord_getLsbD, BitVec.getLsbD_setWidth, decide_eq_true hi, Bool.true_and]

theorem uierWord_of_both (he : s.txemptyEn = true) (hf : s.txfullEn = true) : uierWord s = 0x00000018 := by
  simp only [uierWord, he, hf]
  decide

/-! ### UCFG: its micro-steps (section 1) -/

section

variable {stop data : BitVec 2} {parity : BitVec 3} {cd : BitVec 16} {bdiv : BitVec 8}

theorem exec_ucfg_idle (hb : s.busy = false) : exec (.ucfg stop data parity cd bdiv) s =
    .next (accept (.ucfg stop data parity cd bdiv) .ucReset false s) := by
  simp [exec, execUcfg, hb]

theorem exec_ucfg_busy (hb : s.busy = true) (hc : s.cmd = .ucfg stop data parity cd bdiv) :
    exec (.ucfg stop data parity cd bdiv) s = ucfgMicro stop data parity cd bdiv s :=
  execUcfg_busy hb hc

theorem ucfgMicro_ucReset (h : s.seq = .ucReset) : ucfgMicro stop data parity cd bdiv s = .next { s with
    rxrst := true, txrst := true, rxen := false, txen := false, fifo := [], txfull := false, seq := .ucWait } := by
  simp only [ucfgMicro, h, putReg, memWrite_ucr, andThen_next, writeUcr_softReset, setSeq]

theorem ucfgMicro_ucWait_leaves (h : s.seq = .ucWait) (hr : s.rxrst = false) (ht : s.txrst = false) :
    ucfgMicro stop data parity cd bdiv s = .next { s with seq := .ucEnable } := by
  simp only [ucfgMicro, h, ucfgWait, memRead_ucr, andThen_next, if_pos ((ucrWord_reset_eq_zero s).2 ⟨ht, hr⟩), setSeq]

theorem ucfgMicro_ucWait_repeats (h : s.seq = .ucWait) (hr : s.rxrst = true ∨ s.txrst = true) :
    ucfgMicro stop data parity cd bdiv s = .next s := by
  simp only [ucfgMicro, h, ucfgWait, memRead_ucr, andThen_next, if_neg (ucrWord_reset_ne_zero hr), setSeq]
  rw [← h]

theorem ucfgMicro_ucEnable (h : s.seq = .ucEnable) : ucfgMicro stop data parity cd bdiv s =
    .next { s with rxen := true, txen := true, seq := .ucMode } := by
  simp only [ucfgMicro, h, putReg, memWrite_ucr, andThen_next, writeUcr_enables, setSeq]

theorem ucfgMicro_ucMode (h : s.seq = .ucMode) : ucfgMicro stop data parity cd bdiv s =
    .next { s with chrl := data, par := parity, nbstop := stop, seq := .ucBg } := by
  simp only [ucfgMicro, h, putReg, memWrite_umr, andThen_next, writeUmr_modeWord, setSeq]

theorem ucfgMicro_ucBg (h : s.seq = .ucBg) : ucfgMicro stop data parity cd bdiv s =
    .next { s with cd := cd, seq := .ucBd } := by
  simp only [ucfgMicro, h, putReg, memWrite_ubg, andThen_next, writeUbg_setWidth, setSeq]

theorem ucfgMicro_ucBd (h : s.seq = .ucBd) : ucfgMicro stop data parity cd bdiv s =
    .next { s with bdiv := bdiv, seq := .ucIen } := by
  simp only [ucfgMicro, h, putReg, memWrite_ubd, andThen_next, writeUbd_setWidth, setSeq]

theorem ucfgMicro_ucIen (h : s.seq = .ucIen) : ucfgMicro stop data parity cd bdiv s =
    .next { s with txemptyEn := true, txfullEn := true, ucfgDone := true, busy := false, seq := .idle } := by
  simp only [ucfgMicro, h, ucfgEnd, memWrite_uier, andThen_next, writeUier_both, finish, markUcfg]

end

/-- Settles O32: the Issue, then one equation per label. -/
theorem ucfgMicroSteps : Obligations.UcfgMicroSteps := by
  unfold Obligations.UcfgMicroSteps
  refine fun stop data parity cd bdiv s => ⟨fun hb => exec_ucfg_idle hb, fun hb hc => ?_⟩
  rw [exec_ucfg_busy hb hc]
  exact ⟨ucfgMicro_ucReset, ucfgMicro_ucWait_leaves, ucfgMicro_ucWait_repeats, ucfgMicro_ucEnable, ucfgMicro_ucMode,
    ucfgMicro_ucBg, ucfgMicro_ucBd, ucfgMicro_ucIen⟩

/-- Settles O35: each baud register holds its operand, and the other one is as before. -/
theorem baudPairReachesRegisters : Obligations.BaudPairReachesRegisters := by
  unfold Obligations.BaudPairReachesRegisters
  intro stop data parity cd bdiv s hb hc
  rw [exec_ucfg_busy hb hc]
  exact ⟨fun hs => ⟨_, ucfgMicro_ucBg hs, ubgWord_eq_setWidth _, rfl⟩,
    fun hs => ⟨_, ucfgMicro_ucBd hs, ubdWord_eq_setWidth _, rfl⟩⟩

/-- Settles O37: the Issue writes no register, and each micro-step the one its label names. -/
theorem ucfgFrame : Obligations.UcfgFrame := by
  unfold Obligations.UcfgFrame
  intro stop data parity cd bdiv s t h
  cases hb : s.busy with
  | false =>
    obtain rfl := Host.Outcome.next.inj ((exec_ucfg_idle hb).symm.trans h)
    exact ⟨SamePort.refl s, SameLatch.refl s, rfl, rfl, SameBuffer.refl s, SameSurroundings.refl s, rfl, rfl, rfl, rfl,
      fun _ => ⟨rfl, rfl, rfl, rfl⟩, fun _ => ⟨rfl, rfl⟩, fun _ => ⟨rfl, rfl, rfl⟩, fun _ => rfl, fun _ => rfl,
      fun _ => ⟨rfl, rfl, rfl⟩, nofun⟩
  | true =>
    have hc := cmd_eq_of_exec_busy hb h
    obtain ⟨hs, rfl⟩ | ⟨hs, rfl⟩ | ⟨hs, rfl⟩ | ⟨hs, rfl⟩ | ⟨hs, rfl⟩ | ⟨hs, rfl⟩ | ⟨hs, rfl⟩ :=
      ucfgMicro_cases ((exec_ucfg_busy hb hc).symm.trans h)
    all_goals
      refine ⟨SamePort.refl s, SameLatch.refl s, rfl, rfl, SameBuffer.refl s, SameSurroundings.refl s, rfl, rfl, rfl,
        hc, ?_, ?_, ?_, ?_, ?_, ?_, fun _ => rfl⟩ <;> simp [hs]

/-- UC_WAIT repeats while a reset bit is pending (R165). -/
theorem exec_ucWait_repeats {stop data : BitVec 2} {parity : BitVec 3} {cd : BitVec 16} {bdiv : BitVec 8}
    (hb : s.busy = true) (hc : s.cmd = .ucfg stop data parity cd bdiv) (hs : s.seq = .ucWait)
    (hr : s.rxrst = true ∨ s.txrst = true) : exec s.cmd s = .next s := by
  rw [hc, exec_ucfg_busy hb hc, ucfgMicro_ucWait_repeats hs hr]

/-- Settles O36: UC_WAIT repeats, and of the other agents only UARTDEV's ResetDone touches a reset bit. -/
theorem ucfgWaitsForReset : Obligations.UcfgWaitsForReset := by
  unfold Obligations.UcfgWaitsForReset
  intro stop data parity cd bdiv s hb hc hs hr
  refine ⟨fun ha => run_of_step_self ((step_of_agenda_nil ha hb).trans (exec_ucWait_repeats hb hc hs hr)),
    fun hnr hnp => ?_⟩
  rw [step_eq]
  obtain ⟨-, -, hx⟩ | ⟨-, hb'⟩ | ⟨rx, tx, he, -⟩ | ⟨-, hx⟩ | ⟨t, hx, ht⟩ :=
    runEvent_cases (nextEvent s) (takeEvent s) hnp
  · have hself := exec_ucWait_repeats (s := takeEvent s) hb hc hs hr
    exact ⟨_, hx.trans hself, hb, rfl, hs, rfl, rfl⟩
  · exact absurd (hb.symm.trans hb') (by decide)
  · exact absurd he (hnr rx tx)
  · obtain hd | ⟨b, rest, -, hd⟩ := dequeueStep_cases (takeEvent s) <;> rw [hd] at hx <;>
      exact ⟨_, hx, hb, rfl, hs, rfl, rfl⟩
  · refine ⟨t, hx, ?_⟩
    rw [ht]
    exact ⟨hb, rfl, hs, rfl, rfl⟩

/-! ### UCFG from UC_RESET to its end (R163) -/

section

variable {stop data : BitVec 2} {parity : BitVec 3} {cd : BitVec 16} {bdiv : BitVec 8} {log : List Byte}

/-- UC_RESET starts the account: nothing but the reset has been done yet. -/
theorem ucfgMicro_starts_ucfgProgress (hb : s.busy = true) (hc : s.cmd = .ucfg stop data parity cd bdiv)
    (hs : s.seq = .ucReset) : ∃ t, ucfgMicro stop data parity cd bdiv s = .next t ∧
      UcfgProgress stop data parity cd bdiv s.txlog t :=
  ⟨_, ucfgMicro_ucReset hs, .inl ⟨hb, hc, rfl⟩, rfl, rfl, rfl, nofun, nofun, nofun, nofun, nofun⟩

/-- Each micro-step makes its own setting and leaves those made before it. -/
theorem exec_busy_keeps_ucfgProgress (h : UcfgProgress stop data parity cd bdiv log s) (hb : s.busy = true)
    (hm : exec s.cmd s = .next t) : UcfgProgress stop data parity cd bdiv log t := by
  obtain ⟨hat, hfifo, hfull, hlog, hreset, hucr, humr, hubg, hubd⟩ := h
  obtain ⟨-, hc, htail⟩ := hat.resolve_right fun hend => by simp [hb] at hend
  rw [hc, exec_ucfg_busy hb hc] at hm
  obtain ⟨hs, rfl⟩ | ⟨hs, rfl⟩ | ⟨hs, rfl⟩ | ⟨hs, rfl⟩ | ⟨hs, rfl⟩ | ⟨hs, rfl⟩ | ⟨hs, rfl⟩ := ucfgMicro_cases hm
  all_goals rw [hs] at htail hreset hucr humr hubg hubd
  · cases htail
  · split_ifs with hz
    · obtain ⟨htx, hrx⟩ := (ucrWord_reset_eq_zero s).1 hz
      exact ⟨.inl ⟨hb, hc, rfl⟩, hfifo, hfull, hlog, fun _ => ⟨hrx, htx⟩, nofun, nofun, nofun, nofun⟩
    · exact ⟨.inl ⟨hb, hc, rfl⟩, hfifo, hfull, hlog, nofun, nofun, nofun, nofun, nofun⟩
  · obtain ⟨hrx, htx⟩ := hreset (by decide)
    rw [writeUcr_enables]
    exact ⟨.inl ⟨hb, hc, rfl⟩, hfifo, hfull, hlog, fun _ => ⟨hrx, htx⟩,
      fun _ => ucrWord_of_enabled hrx htx rfl rfl, nofun, nofun, nofun⟩
  · rw [writeUmr_modeWord]
    exact ⟨.inl ⟨hb, hc, rfl⟩, hfifo, hfull, hlog, fun _ => hreset (by decide), fun _ => hucr (by decide),
      fun _ => umrWord_of_fields rfl rfl rfl, nofun, nofun⟩
  · rw [writeUbg_setWidth]
    exact ⟨.inl ⟨hb, hc, rfl⟩, hfifo, hfull, hlog, fun _ => hreset (by decide), fun _ => hucr (by decide),
      fun _ => humr (by decide), fun _ => ubgWord_eq_setWidth _, nofun⟩
  · rw [writeUbd_setWidth]
    exact ⟨.inl ⟨hb, hc, rfl⟩, hfifo, hfull, hlog, fun _ => hreset (by decide), fun _ => hucr (by decide),
      fun _ => humr (by decide), fun _ => hubg (by decide), fun _ => ubdWord_eq_setWidth _⟩
  · rw [writeUier_both]
    exact ⟨.inr ⟨rfl, rfl, rfl, uierWord_of_both rfl rfl⟩, hfifo, hfull, hlog, fun _ => hreset (by decide),
      fun _ => hucr (by decide), fun _ => humr (by decide), fun _ => hubg (by decide), fun _ => hubd (by decide)⟩

/-- ResetDone does nothing once UC_WAIT has been left, and before that no setting has been made. -/
theorem clearResets_keeps_ucfgProgress (rx tx : Bool) (h : UcfgProgress stop data parity cd bdiv log s) :
    UcfgProgress stop data parity cd bdiv log (clearResets rx tx s) := by
  obtain ⟨hat, hfifo, hfull, hlog, hreset, hucr, humr, hubg, hubd⟩ := h
  refine ⟨hat, hfifo, hfull, hlog, fun hrank => ?_, fun hrank => ?_, humr, hubg, hubd⟩
  · obtain ⟨hrx, htx⟩ := hreset hrank
    simp [hrx, htx]
  · obtain ⟨hrx, htx⟩ := hreset (le_trans (by decide) hrank)
    rw [← hucr hrank]
    simp [ucrWord, hrx, htx]

/-- Every step of every agent keeps the account, until the reset event or the next command. -/
theorem runEvent_keeps_ucfgProgress {e : Event} (h : UcfgProgress stop data parity cd bdiv log s) (he : e ≠ .powerOn)
    (hi : s.busy = false → e ≠ .hostIssue) (hm : runEvent e s = .next t) :
    UcfgProgress stop data parity cd bdiv log t := by
  obtain ⟨-, hb, hx⟩ | ⟨hissue, hb⟩ | ⟨rx, tx, -, hx⟩ | ⟨-, hx⟩ | ⟨u, hx, hu⟩ := runEvent_cases e s he
  · exact exec_busy_keeps_ucfgProgress h hb (hx.symm.trans hm)
  · exact absurd hissue (hi hb)
  · obtain rfl := Host.Outcome.next.inj (hx.symm.trans hm)
    exact clearResets_keeps_ucfgProgress rx tx h
  · obtain rfl := Host.Outcome.next.inj (hx.symm.trans hm)
    have ⟨_, hfifo, _⟩ := h
    rwa [dequeueStep_of_fifo_nil hfifo]
  · obtain rfl := Host.Outcome.next.inj (hx.symm.trans hm)
    rw [hu]
    exact h

end

/-- Settles O34: UC_RESET starts the account, every step keeps it, and at its end all settings have been made. -/
theorem ucfgLeavesConfigured : Obligations.UcfgLeavesConfigured := by
  unfold Obligations.UcfgLeavesConfigured
  refine fun stop data parity cd bdiv => ⟨fun s hb hc hs => ?_, fun log s t h hm he hi => ?_, fun log s h hb => ?_⟩
  · rw [exec_ucfg_busy hb hc]
    exact ucfgMicro_starts_ucfgProgress hb hc hs
  · exact runEvent_keeps_ucfgProgress (s := takeEvent s) h he hi hm
  · obtain ⟨hat, hfifo, hfull, hlog, -, hucr, humr, hubg, hubd⟩ := h
    obtain ⟨-, hs, hdone, huier⟩ := hat.resolve_left fun hrun => by simp [hb] at hrun
    rw [hs] at hucr humr hubg hubd
    exact ⟨hucr (by decide), humr (by decide), hubg (by decide), hubd (by decide), huier, hdone,
      (uisrWord_bit4 s).trans hfull, hfifo, (uisrWord_bit3 s).trans (List.isEmpty_iff.2 hfifo), hlog⟩

/-- With TXFULL clear and the FIFO empty UISR shows TXEMPTY alone (R38). -/
theorem uisrWord_of_empty (hf : s.txfull = false) (he : s.fifo = []) : uisrWord s = 0x00000008 := by
  simp only [uisrWord, txempty, hf, he]
  decide

/-! ### UCFG as nine steps of the machine (R163, R207) -/

theorem step_of_agenda {e : Event} {a : List Event} (ha : s.agenda = e :: a) :
    step s = runEvent e { s with agenda := a } := by
  simp only [step_eq, nextEvent, ha, takeEvent, List.tail_cons]

theorem step_seq {i : Instr} {a : List Event} (ha : s.agenda = .seq :: a) (hb : s.busy = true) (hi : s.cmd = i) :
    step s = exec i { s with agenda := a } := by
  subst hi
  rw [step_of_agenda ha]
  exact seqStep_busy hb

theorem encode_ne_nil (i : Instr) : encode i ≠ [] := by cases i <;> nofun

/-- HOST presents the words of a command, and `exec` issues it (R216). -/
theorem step_issues {i : Instr} {a : List Event} {rest : List Word} (ha : s.agenda = .hostIssue :: a)
    (hb : s.busy = false) (hwf : i.WellFormed) (hcmds : s.cmds = encode i ++ rest) :
    step s = exec i { s with agenda := a, cmds := rest } := by
  have hdec : decode s.cmds = .ok (i, rest) := hcmds ▸ decodeReadsBackEncode i rest hwf
  have hne : s.cmds.isEmpty = false := by simp [hcmds, encode_ne_nil]
  rw [step_of_agenda ha]
  simp only [runEvent, hostIssueStep, hb, hne, hdec, Bool.false_eq_true, if_false, setCmds]

section

variable {stop data : BitVec 2} {parity : BitVec 3} {cd : BitVec 16} {bdiv : BitVec 8} {a : List Event}

theorem step_ucfg (ha : s.agenda = .seq :: a) (hb : s.busy = true) (hc : s.cmd = .ucfg stop data parity cd bdiv) :
    step s = ucfgMicro stop data parity cd bdiv { s with agenda := a } :=
  (step_seq ha hb hc).trans (exec_ucfg_busy hb hc)

/-- The state UCFG leaves when the device clears both reset bits right after UC_RESET. -/
def ucfgResult (stop data : BitVec 2) (parity : BitVec 3) (cd : BitVec 16) (bdiv : BitVec 8) (a : List Event)
    (rest : List Word) (s : State) : State :=
  { s with
    rxrst := false
    txrst := false
    rxen := true
    txen := true
    chrl := data
    par := parity
    nbstop := stop
    txemptyEn := true
    txfullEn := true
    txfull := false
    cd := cd
    bdiv := bdiv
    fifo := []
    seq := .idle
    cmd := .ucfg stop data parity cd bdiv
    waitmode := false
    busy := false
    ucfgDone := true
    agenda := a
    cmds := rest }

theorem run_ucfg {rest : List Word} (hb : s.busy = false)
    (hcmds : s.cmds = encode (.ucfg stop data parity cd bdiv) ++ rest)
    (ha : s.agenda = [.hostIssue, .seq, .resetDone true true, .seq, .seq, .seq, .seq, .seq, .seq] ++ a) :
    core.run 9 s = .next (ucfgResult stop data parity cd bdiv a rest s) := by
  refine .trans (run_succ ((step_issues ha hb rfl hcmds).trans (exec_ucfg_idle hb))) ?_
  refine .trans (run_succ ((step_ucfg rfl rfl rfl).trans (ucfgMicro_ucReset rfl))) ?_
  refine .trans (run_succ ((step_of_agenda rfl).trans rfl)) ?_
  refine .trans (run_succ ((step_ucfg rfl rfl rfl).trans (ucfgMicro_ucWait_leaves rfl rfl rfl))) ?_
  refine .trans (run_succ ((step_ucfg rfl rfl rfl).trans (ucfgMicro_ucEnable rfl))) ?_
  refine .trans (run_succ ((step_ucfg rfl rfl rfl).trans (ucfgMicro_ucMode rfl))) ?_
  refine .trans (run_succ ((step_ucfg rfl rfl rfl).trans (ucfgMicro_ucBg rfl))) ?_
  refine .trans (run_succ ((step_ucfg rfl rfl rfl).trans (ucfgMicro_ucBd rfl))) ?_
  refine .trans (run_succ ((step_ucfg rfl rfl rfl).trans (ucfgMicro_ucIen rfl))) ?_
  rfl

end

/-- Settles O33: the nine steps end in `ucfgResult`. -/
theorem ucfgWholeOperation : Obligations.UcfgWholeOperation := by
  unfold Obligations.UcfgWholeOperation
  intro stop data parity cd bdiv s a rest hb hcmds ha
  exact ⟨_, run_ucfg hb hcmds ha, ucrWord_of_enabled rfl rfl rfl rfl, umrWord_of_fields rfl rfl rfl,
    ubgWord_eq_setWidth _, ubdWord_eq_setWidth _, uierWord_of_both rfl rfl, rfl,
    uisrWord_of_empty rfl rfl, rfl, rfl, rfl, rfl, rfl,
    SamePort.refl s, SameLatch.refl s, rfl, rfl, rfl, rfl⟩

/-! ### UTX: its micro-steps (section 2) -/

section

variable {msg : List Byte}

theorem exec_utx_idle (hb : s.busy = false) : exec (.utx msg) s = acceptIf s.ucfgDone (.utx msg) .utLoad false s :=
  if_neg (by simp [hb])

theorem exec_utx_accepts (hb : s.busy = false) (hu : s.ucfgDone = true) :
    exec (.utx msg) s = .next (accept (.utx msg) .utLoad false s) := by
  rw [exec_utx_idle hb, acceptIf, if_pos hu]

theorem exec_utx_refuses (hb : s.busy = false) (hu : s.ucfgDone = false) :
    exec (.utx msg) s = .refused .useBeforeInit := by
  rw [exec_utx_idle hb, acceptIf, if_neg (by simp [hu])]

theorem exec_utx_busy (hb : s.busy = true) (hc : s.cmd = .utx msg) : exec (.utx msg) s = utxMicro msg s :=
  execUtx_busy hb hc

theorem utxMicro_utCheck_full (h : s.seq = .utCheck) (hf : s.txfull = true) :
    utxMicro msg s = .next { s with seq := .utClear } := by
  rw [utxMicro_utCheck h, if_pos hf, setSeq]

theorem utxMicro_utCheck_clear (h : s.seq = .utCheck) (hf : s.txfull = false) :
    utxMicro msg s = .next { s with seq := .utWrite } := by
  rw [utxMicro_utCheck h, if_neg (by simp [hf]), setSeq]

theorem utxMicro_utPoll_leaves (h : s.seq = .utPoll) (he : s.fifo = []) :
    utxMicro msg s = .next { s with seq := .utWrite } := by
  rw [utxMicro_utPoll h, if_pos (by exact List.isEmpty_iff.2 he), setSeq]

theorem utxMicro_utPoll_repeats (h : s.seq = .utPoll) (hne : s.fifo ≠ []) : utxMicro msg s = .next s := by
  rw [utxMicro_utPoll h, txempty, if_neg (by simpa using hne), setSeq, ← h]

/-- The write to UISR in UT_CLEAR clears TXFULL (R38, R173). -/
theorem writeUisr_clear (s : State) : writeUisr 0x00000010 s = { s with txfull := false } := by
  simp [writeUisr]

/-- After a byte has been written SEQ is at UT_CHECK for the next one, or the operation has ended (R170). -/
theorem utxAdvance_eq (s : State) : utxAdvance s = { s with
    txidx := s.txidx + 1
    busy := s.busy && decide (s.txidx + 1 < s.txlen)
    seq := if s.txidx + 1 < s.txlen then .utCheck else .idle } := by
  unfold utxAdvance
  split_ifs with h
  · simp [h, setSeq, setTxidx]
  · simp [h, finish, setTxidx]

/-- UT_WRITE of a byte into a FIFO with room (R170, R205). -/
theorem utxMicro_utWrite_eq {b : Byte} (hb : s.busy = true) (hs : s.seq = .utWrite) (hbyte : s.txbuf[s.txidx]? = some b)
    (hr : s.txrst = false) (hroom : s.fifo.length < s.fifoDepth) : utxMicro msg s = .next { s with
      fifo := s.fifo ++ [b]
      txfull := s.txfull || s.fifo.length + 1 == s.fifoDepth
      txidx := s.txidx + 1
      busy := decide (s.txidx + 1 < s.txlen)
      seq := if s.txidx + 1 < s.txlen then .utCheck else .idle } := by
  rw [utxMicro_utWrite hs hbyte hr hroom, utxAdvance_eq, pushFifo_busy, hb, Bool.true_and]
  rfl

end

/-- Settles O38: the Issue and its refusal, then one equation per label. -/
theorem utxMicroSteps : Obligations.UtxMicroSteps := by
  unfold Obligations.UtxMicroSteps
  refine fun msg s => ⟨exec_utx_accepts, exec_utx_refuses, fun hb hc => ?_⟩
  rw [exec_utx_busy hb hc]
  refine ⟨fun hs => ⟨_, utxMicro_utLoad hs⟩, utxMicro_utCheck_full, utxMicro_utCheck_clear, fun hs => ?_,
    utxMicro_utPoll_leaves, utxMicro_utPoll_repeats, fun b hs => utxMicro_utWrite_eq hb hs⟩
  rw [utxMicro_utClear hs, writeUisr_clear]
  rfl

/-- Settles O39: the bytes sent, the terminator last, then the buffer as it was. -/
theorem utxLoadCutsAndTerminates : Obligations.UtxLoadCutsAndTerminates := by
  unfold Obligations.UtxLoadCutsAndTerminates
  intro msg s hb hc hs
  have hkept : keptLength msg.length = min msg.length 63 := rfl
  have hlen := sentBytes_length msg
  rw [exec_utx_busy hb hc]
  refine ⟨_, utxMicro_utLoad hs, rfl, keptLength_lt msg.length, rfl, fun j hj => ?_, ?_, fun j hj => ?_⟩
  · refine (loadBuffer_sent msg s.txbuf j (by omega)).trans ?_
    rw [sentBytes, List.getElem?_append_left (by simp; omega), List.getElem?_take_of_lt (by omega)]
  · refine (loadBuffer_sent msg s.txbuf _ (by omega)).trans ?_
    rw [sentBytes, List.getElem?_append_right (by simp [hkept])]
    simp [hkept, txTerm]
  · exact loadBuffer_rest msg s.txbuf j (by omega)

/-- Settles O44: the Issue writes no register, and each micro-step those its label names. -/
theorem utxFrame : Obligations.UtxFrame := by
  unfold Obligations.UtxFrame
  intro msg s t h
  cases hb : s.busy with
  | false =>
    obtain ⟨-, rfl⟩ := acceptIf_eq_next.1 ((exec_utx_idle hb).symm.trans h)
    exact ⟨SamePort.refl s, SameLatch.refl s, rfl, rfl, SameUartConfig.refl s, SameDone.refl s, SameSurroundings.refl s,
      rfl, rfl, rfl, fun _ => rfl, fun _ => rfl, fun _ => ⟨rfl, rfl⟩, fun _ => rfl, nofun⟩
  | true =>
    have hc := cmd_eq_of_exec_busy hb h
    obtain ⟨hs, rfl⟩ | ⟨hs, rfl⟩ | ⟨hs, rfl⟩ | ⟨hs, rfl⟩ | ⟨hs, b, -, -, -, rfl⟩ :=
      utxMicro_cases ((exec_utx_busy hb hc).symm.trans h)
    on_goal 5 => rw [utxAdvance_eq]
    all_goals
      refine ⟨SamePort.refl s, SameLatch.refl s, rfl, rfl, SameUartConfig.refl s, SameDone.refl s,
        SameSurroundings.refl s, rfl, rfl, hc, ?_, ?_, ?_, ?_, fun _ => rfl⟩ <;> simp [hs]

/-- UT_POLL repeats while the FIFO holds a byte (R175). -/
theorem exec_utPoll_repeats {msg : List Byte} (hb : s.busy = true) (hc : s.cmd = .utx msg) (hs : s.seq = .utPoll)
    (hne : s.fifo ≠ []) : exec s.cmd s = .next s := by
  rw [hc, exec_utx_busy hb hc, utxMicro_utPoll_repeats hs hne]

/-- Settles O41: UT_POLL repeats, and of the other agents only UARTDEV's Dequeue touches the FIFO. -/
theorem utxWaitsForEmpty : Obligations.UtxWaitsForEmpty := by
  unfold Obligations.UtxWaitsForEmpty
  intro msg s hb hc hs hne
  refine ⟨fun ha => run_of_step_self ((step_of_agenda_nil ha hb).trans (exec_utPoll_repeats hb hc hs hne)),
    fun hnd hnp => ?_⟩
  rw [step_eq]
  obtain ⟨-, -, hx⟩ | ⟨-, hb'⟩ | ⟨rx, tx, -, hx⟩ | ⟨he, -⟩ | ⟨t, hx, ht⟩ :=
    runEvent_cases (nextEvent s) (takeEvent s) hnp
  · have hself := exec_utPoll_repeats (s := takeEvent s) hb hc hs hne
    exact ⟨_, hx.trans hself, hb, rfl, hs, rfl⟩
  · exact absurd (hb.symm.trans hb') (by decide)
  · exact ⟨_, hx, hb, rfl, hs, rfl⟩
  · exact absurd he hnd
  · refine ⟨t, hx, ?_⟩
    rw [ht]
    exact ⟨hb, rfl, hs, rfl⟩

/-! ### The fast path (R177) -/

section

variable {msg : List Byte}

/-- A UTX on the fast path from `u` with `k` of its bytes sent. -/
def sentState (msg : List Byte) (k : Nat) (u : State) : State :=
  { u with
    fifo := u.fifo ++ (sentBytes msg).take k
    txfull := u.fifo.length + k == u.fifoDepth
    txidx := k
    busy := decide (k < u.txlen)
    seq := if k < u.txlen then .utCheck else .idle }

/-- Setting for the fast path: UT_LOAD has been taken, and the FIFO has room for all the bytes to send. -/
structure FastStart (msg : List Byte) (u : State) : Prop where
  busy : u.busy = true
  cmd : u.cmd = .utx msg
  check : u.seq = .utCheck
  noReset : u.txrst = false
  notFull : u.txfull = false
  length : u.txlen = (sentBytes msg).length
  index : u.txidx = 0
  loaded : ∀ j, j < u.txlen → u.txbuf[j]? = (sentBytes msg)[j]?
  room : u.fifo.length + u.txlen ≤ u.fifoDepth

theorem FastStart.txlen_pos {u : State} (h : FastStart msg u) : 0 < u.txlen := by
  rw [h.length, sentBytes_length]
  exact Nat.succ_pos _

/-- Before the first byte nothing has changed. -/
theorem FastStart.sentState_zero {u : State} (h : FastStart msg u) : sentState msg 0 u = u := by
  have hpos := h.txlen_pos
  have hroom := h.room
  have hfull : (u.fifo.length + 0 == u.fifoDepth) = false := beq_false_of_ne (by omega)
  rw [sentState, List.take_zero, List.append_nil, hfull, decide_eq_true hpos, if_pos hpos, ← h.notFull, ← h.index,
    ← h.busy, ← h.check]

/-- The two micro-steps of a byte: UT_CHECK finds TXFULL clear, UT_WRITE sends it (R172). -/
theorem seqRun_byte {b : Byte} (hb : s.busy = true) (hc : s.cmd = .utx msg) (hs : s.seq = .utCheck)
    (hfull : s.txfull = false) (hbyte : s.txbuf[s.txidx]? = some b) (hr : s.txrst = false)
    (hroom : s.fifo.length < s.fifoDepth) : seqRun 2 (.utx msg) s = .next { s with
      fifo := s.fifo ++ [b]
      txfull := s.fifo.length + 1 == s.fifoDepth
      txidx := s.txidx + 1
      busy := decide (s.txidx + 1 < s.txlen)
      seq := if s.txidx + 1 < s.txlen then .utCheck else .idle } := by
  have hcheck := (exec_utx_busy hb hc).trans (utxMicro_utCheck_clear hs hfull)
  have hwrite := (exec_utx_busy (s := { s with seq := .utWrite }) hb hc).trans
    (utxMicro_utWrite_eq hb rfl hbyte hr hroom)
  rw [seqRun_succ hcheck, seqRun_succ hwrite, seqRun]
  simp only [hfull, Bool.false_or]
  rfl

theorem FastStart.sends {u : State} (h : FastStart msg u) {k : Nat} (hk : k < u.txlen) :
    seqRun 2 (.utx msg) (sentState msg k u) = .next (sentState msg (k + 1) u) := by
  have hroom := h.room
  have hklen : k < (sentBytes msg).length := h.length ▸ hk
  have hbyte : u.txbuf[k]? = some (sentBytes msg)[k] := (h.loaded k hk).trans (List.getElem?_eq_getElem hklen)
  have hfifo : (sentState msg k u).fifo.length = u.fifo.length + k := by simp [sentState, hklen.le]
  have hlt : (sentState msg k u).fifo.length < u.fifoDepth := by omega
  have hbytes : (sentState msg k u).fifo ++ [(sentBytes msg)[k]] = (sentState msg (k + 1) u).fifo := by
    rw [sentState, sentState, List.append_assoc, List.take_append_getElem]
  have hfull : (sentState msg k u).txfull = false := beq_false_of_ne (by omega)
  rw [seqRun_byte (s := sentState msg k u) (decide_eq_true hk) h.cmd (if_pos hk) hfull hbyte h.noReset hlt, hfifo,
    hbytes, Nat.add_assoc]
  rfl

/-- Two micro-steps a byte send the first `k` bytes. -/
theorem FastStart.run {u : State} (h : FastStart msg u) (k : Nat) (hk : k ≤ u.txlen) :
    seqRun (2 * k) (.utx msg) u = .next (sentState msg k u) := by
  induction k with
  | zero => rw [h.sentState_zero]; rfl
  | succ k ih => rw [Nat.mul_succ, seqRun_add (ih (by omega)), h.sends hk]

/-- With all bytes sent the operation has ended. -/
theorem FastStart.run_all {u : State} (h : FastStart msg u) :
    seqRun (2 * (sentBytes msg).length) (.utx msg) u = .next { u with
      fifo := u.fifo ++ sentBytes msg
      txfull := u.fifo.length + (sentBytes msg).length == u.fifoDepth
      txidx := (sentBytes msg).length
      busy := false
      seq := .idle } := by
  have hend : ¬ (sentBytes msg).length < u.txlen := by rw [h.length]; exact lt_irrefl _
  rw [h.run _ h.length.ge, sentState, List.take_length, decide_eq_false hend, if_neg hend]

/-- The Issue and UT_LOAD come to the fast path (R170, R171). -/
theorem fastStart_of_issue (hr : s.txrst = false) (hf : s.txfull = false)
    (hroom : s.fifo.length + (sentBytes msg).length ≤ s.fifoDepth) :
    FastStart msg (setSeq .utCheck (loadText msg (accept (.utx msg) .utLoad false s))) where
  busy := rfl
  cmd := rfl
  check := rfl
  noReset := hr
  notFull := hf
  length := (sentBytes_length msg).symm
  index := rfl
  loaded j hj := loadBuffer_sent msg s.txbuf j (by rw [sentBytes_length]; exact hj)
  room := by rw [sentBytes_length] at hroom; exact hroom

/-- The state UTX leaves on the fast path when no other agent steps in between (R170, R177). -/
def utxResult (msg : List Byte) (s : State) : State :=
  { s with
    fifo := s.fifo ++ sentBytes msg
    txfull := s.fifo.length + (sentBytes msg).length == s.fifoDepth
    txbuf := loadBuffer msg s.txbuf
    txlen := keptLength msg.length + 1
    txidx := (sentBytes msg).length
    seq := .idle
    cmd := .utx msg
    waitmode := false
    busy := false }

theorem seqRun_utx (hb : s.busy = false) (hu : s.ucfgDone = true) (hr : s.txrst = false) (hf : s.txfull = false)
    (hroom : s.fifo.length + (sentBytes msg).length ≤ s.fifoDepth) :
    seqRun (2 + 2 * (sentBytes msg).length) (.utx msg) s = .next (utxResult msg s) := by
  have hload : seqRun 2 (.utx msg) s =
      .next (setSeq .utCheck (loadText msg (accept (.utx msg) .utLoad false s))) := by
    rw [seqRun_succ (exec_utx_accepts hb hu), seqRun_succ ((exec_utx_busy rfl rfl).trans (utxMicro_utLoad rfl)), seqRun]
  rw [seqRun_add hload, (fastStart_of_issue hr hf hroom).run_all]
  simp only [setSeq, loadText, accept, State.fifoDepth, utxResult]

end

/-- Settles O40: the Issue, UT_LOAD, then two micro-steps a byte end in `utxResult`. -/
theorem utxFastPath : Obligations.UtxFastPath := by
  unfold Obligations.UtxFastPath
  intro msg s hb hu hr hf hroom
  have hlen := sentBytes_length msg
  exact ⟨utxResult msg s, seqRun_utx hb hu hr hf hroom, rfl, rfl, rfl, hlen.symm, hlen, rfl, rfl, SamePort.refl s,
    SameLatch.refl s, rfl, SameUartConfig.refl s, SameDone.refl s, SameSurroundings.refl s⟩

/-! ### Where a UTX writes, and what becomes of its bytes (R174, R178) -/

/-- Settles O42: the invariant says so of every state whose SEQ is at UT_WRITE. -/
theorem noWriteWhileFull : Obligations.NoWriteWhileFull := by
  unfold Obligations.NoWriteWhileFull
  intro s t h hm hs
  have ht : BlockInv t := stepKeepsInvariant s t h hm
  exact ⟨(uisrWord_bit4 t).trans (ht.uart.cleared (.inr hs)), ht.uart.free hs⟩

/-- Dequeue moves a byte to txlog: none is lost or reordered (R208). -/
theorem delivered_dequeueStep (s : State) : delivered (dequeueStep s) = delivered s := by
  obtain hd | ⟨b, rest, hf, hd⟩ := dequeueStep_cases s <;> rw [hd]
  simp [delivered, hf]

theorem delivered_pushFifo (b : Byte) (s : State) : delivered (pushFifo b s) = delivered s ++ [b] := by
  simp [delivered]

theorem BlockInv.takeEvent (h : BlockInv s) : BlockInv (takeEvent s) :=
  h.surroundings s.closed s.hostKey s.agenda.tail s.cmds

section

variable {base msg : List Byte}

/-- UT_WRITE sends the next byte: after the last one the operation has ended with all of them sent. -/
theorem utxAdvance_keeps_utxProgress {b : Byte} (hb : s.busy = true) (hc : s.cmd = .utx msg)
    (hlen : s.txlen = (sentBytes msg).length) (hbuf : ∀ j, j < s.txlen → s.txbuf[j]? = (sentBytes msg)[j]?)
    (hsent : delivered s = base ++ (sentBytes msg).take s.txidx) (hidx : s.txidx < s.txlen)
    (hbyte : s.txbuf[s.txidx]? = some b) : UtxProgress base msg (utxAdvance (pushFifo b s)) := by
  have hget : (sentBytes msg)[s.txidx]? = some b := (hbuf _ hidx).symm.trans hbyte
  have hnext : delivered (pushFifo b s) = base ++ (sentBytes msg).take (s.txidx + 1) := by
    rw [delivered_pushFifo, hsent, List.append_assoc, List.take_add_one, hget, Option.toList_some]
  unfold utxAdvance
  split_ifs with hmore
  · exact .inr (.inl ⟨hb, hc, rfl, hlen, hbuf, hnext⟩)
  · refine .inr (.inr ⟨rfl, hnext.trans ?_⟩)
    rw [List.take_of_length_le (hlen ▸ not_lt.1 hmore)]

/-- Each micro-step of a UTX keeps the account of its bytes. -/
theorem exec_busy_keeps_utxProgress (h : UtxProgress base msg s) (hinv : BlockInv s) (hb : s.busy = true)
    (hm : exec s.cmd s = .next t) : UtxProgress base msg t := by
  obtain ⟨-, hc, hs, hsent⟩ | ⟨-, hc, hbody, hlen, hbuf, hsent⟩ | ⟨hb', -⟩ := h
  · rw [hc, exec_utx_busy hb hc, utxMicro_utLoad hs] at hm
    obtain rfl := Host.Outcome.next.inj hm
    refine .inr (.inl ⟨hb, hc, rfl, (sentBytes_length msg).symm, fun j hj => ?_, ?_⟩)
    · exact loadBuffer_sent msg s.txbuf j (by rw [sentBytes_length]; exact hj)
    · exact hsent.trans (List.append_nil base).symm
  · rw [hc, exec_utx_busy hb hc] at hm
    obtain ⟨hs, -⟩ | ⟨-, rfl⟩ | ⟨-, rfl⟩ | ⟨-, rfl⟩ | ⟨-, b, hbyte, -, -, rfl⟩ := utxMicro_cases hm
    · rw [hs] at hbody
      cases hbody
    · exact .inr (.inl ⟨hb, hc, by rw [setSeq_seq]; split_ifs <;> rfl, hlen, hbuf, hsent⟩)
    · exact .inr (.inl ⟨hb, hc, rfl, hlen, hbuf, hsent⟩)
    · exact .inr (.inl ⟨hb, hc, by rw [setSeq_seq]; split_ifs <;> rfl, hlen, hbuf, hsent⟩)
    · exact utxAdvance_keeps_utxProgress hb hc hlen hbuf hsent (hinv.uart.index hbody).1 hbyte
  · exact absurd (hb.symm.trans hb') (by decide)

/-- Dequeue touches neither the sequencer nor the buffer (R208). -/
theorem dequeueStep_keeps_utxProgress (h : UtxProgress base msg s) : UtxProgress base msg (dequeueStep s) := by
  have hsent := delivered_dequeueStep s
  obtain hd | ⟨b, rest, -, hd⟩ := dequeueStep_cases s <;> rw [hd] at hsent ⊢
  · exact h
  · rw [UtxProgress, hsent]
    exact h

/-- Every step of every agent keeps the account, until the reset event or the next command. -/
theorem runEvent_keeps_utxProgress {e : Event} (h : UtxProgress base msg s) (hinv : BlockInv s) (he : e ≠ .powerOn)
    (hi : s.busy = false → e ≠ .hostIssue) (hm : runEvent e s = .next t) : UtxProgress base msg t := by
  obtain ⟨-, hb, hx⟩ | ⟨hissue, hb⟩ | ⟨rx, tx, -, hx⟩ | ⟨-, hx⟩ | ⟨u, hx, hu⟩ := runEvent_cases e s he
  · exact exec_busy_keeps_utxProgress h hinv hb (hx.symm.trans hm)
  · exact absurd hissue (hi hb)
  · obtain rfl := Host.Outcome.next.inj (hx.symm.trans hm)
    exact h
  · obtain rfl := Host.Outcome.next.inj (hx.symm.trans hm)
    exact dequeueStep_keeps_utxProgress h
  · obtain rfl := Host.Outcome.next.inj (hx.symm.trans hm)
    rw [hu]
    exact h

end

/-- Settles O43: the Issue starts the account with none of the bytes sent, and every step keeps it. -/
theorem utxKeepsEveryByte : Obligations.UtxKeepsEveryByte := by
  unfold Obligations.UtxKeepsEveryByte
  refine ⟨fun msg s hb hu => ?_, fun base msg s t hinv h hm he hi => ?_⟩
  · exact ⟨_, exec_utx_accepts hb hu, .inl ⟨rfl, rfl, rfl, rfl⟩⟩
  · exact runEvent_keeps_utxProgress (s := takeEvent s) h hinv.takeEvent he hi hm

/-! ### No step faults under the invariant (R174, R209, R240) -/

theorem kinitMicro_answers (h : kinitLabel s.seq = true) : ∃ t, kinitMicro s = .next t := by
  unfold kinitMicro
  split
  case h_7 => cases hs : s.seq <;> simp_all [kinitLabel]
  all_goals exact ⟨_, rfl⟩

theorem scanMicro_answers (h : scanLabel s.seq = true) : ∃ t, scanMicro s = .next t := by
  unfold scanMicro
  split
  case h_7 =>
    unfold scanEnd
    split_ifs <;> exact ⟨_, rfl⟩
  case h_8 => cases hs : s.seq <;> simp_all [scanLabel]
  all_goals exact ⟨_, rfl⟩

theorem ucfgMicro_answers {stop data : BitVec 2} {parity : BitVec 3} {cd : BitVec 16} {bdiv : BitVec 8}
    (h : s.seq = .ucReset ∨ ucfgTail s.seq = true) : ∃ t, ucfgMicro stop data parity cd bdiv s = .next t := by
  unfold ucfgMicro
  split
  case h_8 => cases hs : s.seq <;> simp_all [ucfgTail]
  all_goals exact ⟨_, rfl⟩

/-- At UT_WRITE the invariant promises a byte of TXBUF, room for it, and no reset pending. -/
theorem utxMicro_answers {msg : List Byte} (hu : UartInv s) (h : s.seq = .utLoad ∨ utxBody s.seq = true) :
    ∃ t, utxMicro msg s = .next t := by
  by_cases hs : s.seq = .utWrite
  · obtain ⟨hidx, hcap⟩ := hu.index (by rw [hs]; rfl)
    have hbyte : s.txbuf[s.txidx]? = some s.txbuf[s.txidx] := Vector.getElem?_eq_getElem (by omega)
    exact ⟨_, utxMicro_utWrite hs hbyte (hu.noReset (by simp [hs])).1 (hu.free hs)⟩
  · unfold utxMicro
    split
    case h_5 hw => exact absurd hw hs
    case h_6 => cases hl : s.seq <;> simp_all [utxBody]
    all_goals exact ⟨_, rfl⟩

/-- Under the invariant an operation in progress has a next micro-step: SEQ is at a label of CMD's own (R44). -/
theorem exec_busy_answers (h : BlockInv s) (hb : s.busy = true) : ∃ t, exec s.cmd s = .next t := by
  have hfits := h.sequencer.fits hb
  cases hc : s.cmd with
  | kinit =>
    have hx : exec .kinit s = kinitMicro s := execKinit_busy hb hc
    exact hx ▸ kinitMicro_answers (by simpa [hc, labelFits] using hfits)
  | kscan => exact exec_scan_busy (.inl rfl) hb hc ▸ scanMicro_answers (by simpa [hc, labelFits] using hfits)
  | kwait => exact exec_scan_busy (.inr rfl) hb hc ▸ scanMicro_answers (by simpa [hc, labelFits] using hfits)
  | kdec row col =>
    have hs : s.seq = .kdExec := by simpa [hc, labelFits] using hfits
    exact ⟨_, (execKdec_busy hb hc).trans (by rw [kdecMicro, hs])⟩
  | ucfg stop data parity cd bdiv =>
    exact exec_ucfg_busy hb hc ▸ ucfgMicro_answers (by simpa [hc, labelFits] using hfits)
  | utx msg => exact exec_utx_busy hb hc ▸ utxMicro_answers h.uart (by simpa [hc, labelFits] using hfits)

/-- An Issue is accepted, or refused because an initialisation is missing (R240, R262). -/
theorem exec_idle_answers (i : Instr) (hb : s.busy = false) :
    (∃ t, exec i s = .next t) ∨ exec i s = .refused .useBeforeInit := by
  cases i with
  | kinit => exact .inl ⟨_, exec_kinit_idle hb⟩
  | kdec row col => exact .inl ⟨_, exec_kdec_idle hb⟩
  | ucfg stop data parity cd bdiv => exact .inl ⟨_, exec_ucfg_idle hb⟩
  | kscan =>
    cases hk : s.kinitDone with
    | true => exact .inl ⟨_, exec_scan_accepts (.inl rfl) hb hk⟩
    | false => exact .inr (exec_scan_refuses (.inl rfl) hb hk)
  | kwait =>
    cases hk : s.kinitDone with
    | true => exact .inl ⟨_, exec_scan_accepts (.inr rfl) hb hk⟩
    | false => exact .inr (exec_scan_refuses (.inr rfl) hb hk)
  | utx msg =>
    cases hu : s.ucfgDone with
    | true => exact .inl ⟨_, exec_utx_accepts hb hu⟩
    | false => exact .inr (exec_utx_refuses hb hu)

/-- HOST's Issue completes, or is refused for one of two reasons (R107, R240). -/
theorem hostIssueStep_answers (hb : s.busy = false) : (∃ t, hostIssueStep s = .next t) ∨
    hostIssueStep s = .refused .useBeforeInit ∨ ∃ e, hostIssueStep s = .refused (.illegalCommand e) := by
  simp only [hostIssueStep, hb, Bool.false_eq_true, if_false]
  split_ifs
  · exact .inl ⟨s, rfl⟩
  · split
    case h_1 i rest _ => exact (exec_idle_answers (s := setCmds rest s) i hb).imp_right .inl
    case h_2 e _ => exact .inr (.inr ⟨e, rfl⟩)

/-- Under the invariant an event completes, but for an Issue that is refused. -/
theorem runEvent_answers (e : Event) (h : BlockInv s) : (∃ t, runEvent e s = .next t) ∨
    runEvent e s = .refused .useBeforeInit ∨ ∃ d, runEvent e s = .refused (.illegalCommand d) := by
  by_cases he : e = .powerOn
  · exact .inl ⟨_, by rw [he]; rfl⟩
  · obtain ⟨-, hb, hx⟩ | ⟨rfl, hb⟩ | ⟨rx, tx, -, hx⟩ | ⟨-, hx⟩ | ⟨t, hx, -⟩ := runEvent_cases e s he
    · exact .inl (hx ▸ exec_busy_answers h hb)
    · exact hostIssueStep_answers hb
    · exact .inl ⟨_, hx⟩
    · exact .inl ⟨_, hx⟩
    · exact .inl ⟨t, hx⟩

/-- Settles O60: each of the three answers is no fault, and only two of them refuse. -/
theorem noFaultUnderInvariant : Obligations.NoFaultUnderInvariant := by
  unfold Obligations.NoFaultUnderInvariant
  intro s h
  rw [step_eq]
  obtain ⟨t, hx⟩ | hx | ⟨d, hx⟩ := runEvent_answers (nextEvent s) h.takeEvent <;> rw [hx]
  · exact ⟨nofun, nofun⟩
  · exact ⟨nofun, fun r hr => .inl (Host.Outcome.refused.inj hr).symm⟩
  · exact ⟨nofun, fun r hr => .inr ⟨d, (Host.Outcome.refused.inj hr).symm⟩⟩

end Sys2Proof.Machine

/-! Proofs about the agents (spec/45_agents.md): which event the next step takes and what it comes to, the steps of
HOST, UARTDEV, KEYS and OTHER, and what no operation touches. -/

namespace Sys2Proof.Machine

variable {s t : State} {i : Instr}

/-! ### Which agent moves (R218, log entry 1) -/

theorem nextEvent_of_agenda {e : Event} {a : List Event} (h : s.agenda = e :: a) : nextEvent s = e := by
  rw [nextEvent, h]

theorem nextEvent_of_agenda_nil (h : s.agenda = []) : nextEvent s = defaultEvent s := by rw [nextEvent, h]

/-- The next step is that of the agent the next event names, its event taken away. -/
theorem step_of_nextEvent {e : Event} (h : nextEvent s = e) : step s = runEvent e (takeEvent s) := by rw [step_eq, h]

/-! ### HOST's Issue and SEQ's micro-step come to `exec` (R216, R218) -/

/-- HOST's Issue of words that decode is `exec` of the command they decode to. -/
theorem hostIssueStep_legal {rest : List Word} (hb : s.busy = false) (hd : decode s.cmds = .ok (i, rest)) :
    hostIssueStep s = exec i (setCmds rest s) := by
  have hne : s.cmds.isEmpty = false := by
    cases hc : s.cmds with
    | nil => rw [hc] at hd; cases hd
    | cons w ws => rfl
  simp only [hostIssueStep, hb, hne, hd, Bool.false_eq_true, if_false]

/-- Settles O6: the event taken is HOST's, and its words decode. -/
theorem stepRunsIssuedCommand : Obligations.StepRunsIssuedCommand := by
  unfold Obligations.StepRunsIssuedCommand
  refine ⟨fun s i rest hb he hd => ?_, fun s a ha => nextEvent_of_agenda ha, fun s ha hb => ?_⟩
  · exact (step_of_nextEvent he).trans (hostIssueStep_legal (s := takeEvent s) hb hd)
  · rw [nextEvent_of_agenda_nil ha, defaultEvent, hb]
    rfl

/-- Settles O7: the event taken is SEQ's, and CMD holds the command. -/
theorem stepRunsMicroStep : Obligations.StepRunsMicroStep := by
  unfold Obligations.StepRunsMicroStep
  refine ⟨fun s hb he => ?_, fun s a ha => nextEvent_of_agenda ha, fun s ha hb => ?_⟩
  · exact (step_of_nextEvent he).trans (seqStep_busy (s := takeEvent s) hb)
  · rw [nextEvent_of_agenda_nil ha, defaultEvent, hb]
    rfl

/-- Words behind those that decode to a command are left as they stand (R106). -/
theorem decode_append {ws rest : List Word} (h : decode ws = .ok (i, rest)) (more : List Word) :
    decode (ws ++ more) = .ok (i, rest ++ more) := by
  obtain ⟨hwf, rfl⟩ := encodeReadsBackDecode ws i rest h
  rw [List.append_assoc]
  exact decodeReadsBackEncode i (rest ++ more) hwf

theorem decodeTableWord_eq_some {nbits w : Nat} (h : decodeTableWord nbits w = some i) :
    ∃ rest, decode (tableWords nbits w) = .ok (i, rest) := by
  unfold decodeTableWord at h
  split at h
  case h_1 j rest hd => exact ⟨rest, Option.some.inj h ▸ hd⟩
  case h_2 => cases h

/-- Settles O8: the placed words decode in front of those that stood there, and HOST's Issue heads the agenda. -/
theorem stepRunsPlacedWord : Obligations.StepRunsPlacedWord := by
  unfold Obligations.StepRunsPlacedWord
  intro s nbits w i h
  obtain ⟨rest, hd⟩ := decodeTableWord_eq_some h
  have hissue : nextEvent (s.withFetchWord nbits w) = .hostIssue := nextEvent_of_agenda rfl
  refine ⟨rest, hd, (step_of_nextEvent hissue).trans ?_⟩
  exact hostIssueStep_legal (s := takeEvent (s.withFetchWord nbits w)) rfl (decode_append hd s.cmds)

/-! ### Steps that are not enabled (log entry 2) -/

theorem seqStep_idle (hb : s.busy = false) : seqStep s = .next s := by simp [seqStep, hb]

theorem hostIssueStep_of_cmds_nil (hb : s.busy = false) (hc : s.cmds = []) : hostIssueStep s = .next s := by
  simp [hostIssueStep, hb, hc]

theorem dequeueEnabled_iff : dequeueEnabled s = true ↔ s.txen = true ∧ s.txrst = false ∧ s.fifo ≠ [] := by
  simp [dequeueEnabled, and_assoc]

/-- Dequeue takes the head of the FIFO when it is enabled (R208). -/
theorem dequeueStep_of_enabled {b : Byte} {rest : List Byte} (ht : s.txen = true) (hr : s.txrst = false)
    (hf : s.fifo = b :: rest) : dequeueStep s = popFifo b rest s := by
  simp [dequeueStep, hf, ht, hr]

theorem dequeueStep_of_not_enabled (h : s.txen = false ∨ s.txrst = true ∨ s.fifo = []) : dequeueStep s = s := by
  unfold dequeueStep
  split
  case h_1 => rfl
  case h_2 b rest hf =>
    rw [if_neg]
    obtain h | h | h := h
    · simp [h]
    · simp [h]
    · cases h.symm.trans hf

/-- ResetDone is taken only where it clears a pending bit (R207). -/
theorem clearResets_of_not_taken {rx tx : Bool} (h : takesResetDone (.resetDone rx tx) s = false) :
    clearResets rx tx s = s := by
  obtain ⟨hrx, htx⟩ : (rx && s.rxrst) = false ∧ (tx && s.txrst) = false := by simpa [takesResetDone] using h
  have hrx' : (s.rxrst && !rx) = s.rxrst := by cases rx <;> simp_all
  have htx' : (s.txrst && !tx) = s.txrst := by cases tx <;> simp_all
  rw [clearResets, hrx', htx']

/-- Settles O9: the agent of the event taken finds its step not enabled. -/
theorem stepsNotEnabledChangeNothing : Obligations.StepsNotEnabledChangeNothing := by
  unfold Obligations.StepsNotEnabledChangeNothing
  refine ⟨fun s r v hb he => ?_, fun s hb he => ?_, fun s hb hc he => ?_, fun s hn he => ?_,
    fun s rx tx ht hr he => ?_⟩
  · obtain he | he | he := he
    · exact (step_of_nextEvent he).trans (hostIssueStep_busy (s := takeEvent s) hb)
    · exact (step_of_nextEvent he).trans (congrArg _ (hostReadStep_busy (s := takeEvent s) hb))
    · exact (step_of_nextEvent he).trans (congrArg _ (otherStep_busy (s := takeEvent s) hb))
  · exact (step_of_nextEvent he).trans (seqStep_idle (s := takeEvent s) hb)
  · exact (step_of_nextEvent he).trans (hostIssueStep_of_cmds_nil (s := takeEvent s) hb hc)
  · exact (step_of_nextEvent he).trans (congrArg _ (dequeueStep_of_not_enabled (s := takeEvent s) hn))
  · have hn : takesResetDone (.resetDone rx tx) (takeEvent s) = false := by simp [takesResetDone, ht, hr]
    exact (step_of_nextEvent he).trans (congrArg _ (clearResets_of_not_taken hn))

/-! ### UARTDEV, KEYS, OTHER and HOST's Read -/

/-- Settles O48: ResetDone is `clearResets`, an enabled Dequeue is `popFifo`. -/
theorem deviceSteps : Obligations.DeviceSteps := by
  unfold Obligations.DeviceSteps
  refine ⟨fun s rx tx he => step_of_nextEvent he, fun s b rest he ht hr hf => ?_⟩
  exact (step_of_nextEvent he).trans (congrArg _ (dequeueStep_of_enabled (s := takeEvent s) ht hr hf))

theorem hostReadStep_idle (hb : s.busy = false) : hostReadStep s = setHostKey s.key s := by simp [hostReadStep, hb]

/-- Settles O55: HOST's Read is `setHostKey` of KEY. -/
theorem hostReadsKey : Obligations.HostReadsKey := by
  unfold Obligations.HostReadsKey
  intro s hb he
  exact (step_of_nextEvent he).trans (congrArg _ (hostReadStep_idle (s := takeEvent s) hb))

/-- Outside the window OTHER writes the bits of its value (R212). -/
theorem setForeign_foreign (old v : Word) : setForeign old v &&& ~~~wmask = v &&& ~~~wmask := by
  simp [setForeign, BitVec.and_or_distrib_right, BitVec.and_assoc]

/-! While BUSY = 0 OTHER writes the one register it names (R212). -/

theorem otherStep_pdir (v : Word) (hb : s.busy = false) : otherStep .pdir v s = setPdir (setForeign s.pdir v) s := by
  simp [otherStep, hb]

theorem otherStep_poen (v : Word) (hb : s.busy = false) : otherStep .poen v s = setPoen (setForeign s.poen v) s := by
  simp [otherStep, hb]

theorem otherStep_pout (v : Word) (hb : s.busy = false) : otherStep .pout v s = setPout (setForeign s.pout v) s := by
  simp [otherStep, hb]

/-- Settles O56: OTHER's value replaces the foreign bits of the register it names. -/
theorem environmentSteps : Obligations.EnvironmentSteps := by
  unfold Obligations.EnvironmentSteps
  refine ⟨fun s k he => step_of_nextEvent he, fun s r v hb he => ?_⟩
  have hstep : step s = .next (otherStep r v (takeEvent s)) := step_of_nextEvent he
  rw [hstep]
  cases r with
  | pdir =>
    exact ⟨_, win_setForeign s.pdir v, setForeign_foreign s.pdir v, congrArg _ (otherStep_pdir (s := takeEvent s) v hb)⟩
  | poen =>
    exact ⟨_, win_setForeign s.poen v, setForeign_foreign s.poen v, congrArg _ (otherStep_poen (s := takeEvent s) v hb)⟩
  | pout =>
    exact ⟨_, win_setForeign s.pout v, setForeign_foreign s.pout v, congrArg _ (otherStep_pout (s := takeEvent s) v hb)⟩

/-! ### Writes to UFIFO and UCR (R205, R206, R209) -/

/-- Settles O46: the three cases are the branches of the write. -/
theorem fifoWriteEffect : Obligations.FifoWriteEffect := by
  unfold Obligations.FifoWriteEffect
  refine fun v s => ⟨fun hr hl => ?_, fun hr hl => ?_, fun hr => ?_⟩ <;> rw [memWrite_ufifo]
  · have hfull : txfullAfterWrite s = if s.fifo.length + 1 = s.fifoDepth then true else s.txfull := by
      unfold txfullAfterWrite
      split_ifs with h <;> simp [h]
    rw [writeFifo_eq_next.2 ⟨hr, hl, rfl⟩, pushFifo, hfull]
  · rw [writeFifo, if_neg (by simp [hr]), if_neg (not_lt.2 hl)]
  · rw [writeFifo, if_pos hr]

/-- Settles O47: each field after the write, by the bit that rules it. -/
theorem ucrWriteEffect : Obligations.UcrWriteEffect := by
  unfold Obligations.UcrWriteEffect
  refine fun v s => ⟨writeUcr v s, memWrite_ucr v s, rfl, rfl, fun h => ?_, fun h => ?_, fun h => ?_, fun h => ?_, rfl⟩ <;>
    simp [h, -BitVec.getLsbD_eq_getElem]

/-! ### What a sample sees (R203) -/

/-- While one row is low a column is joined to a high row exactly through a contact of another row (R202). -/
theorem OneRowLow.joinedHigh_iff {r : Row} (h : OneRowLow r s) (c : Col) :
    joinedHigh s c = true ↔ ∃ r', r' ≠ r ∧ contact s.closed r' c = true := by
  obtain ⟨hrows, -⟩ := h.driven
  simp only [Machine.joinedHigh_iff, hrows, true_and, ne_eq, ← h.row_level_low_iff, Bool.not_eq_false, and_comm]

/-- Settles O20: the column is joined to the low row through its own contact, to a high row through any other. -/
theorem sampleSeesContacts : Obligations.SampleSeesContacts := by
  unfold Obligations.SampleSeesContacts
  intro s r c hinv hs
  have hlow := oneRowLow_of_inv hinv hs
  have hpin : (pinWord s).getLsbD c.bit = pinBit s c.bit :=
    pinWord_getLsbD s c.bit (by have := col_bit_range c; omega)
  have hcol : pinBit s c.bit = colLevel s c := pinBit_col (hlow.driven.2 c)
  have hjoined := hlow.joinedLow_eq c
  refine ⟨fun hc hopen => ?_, fun hc => ?_, fun r' hc hne hc' => ?_, fun hone => ?_⟩ <;> rw [hpin]
  · rw [hcol]
    refine colLevel_eq_false (hjoined.trans hc) (Bool.eq_false_iff.2 fun hj => ?_)
    obtain ⟨r', hne, hc'⟩ := (hlow.joinedHigh_iff c).1 hj
    simp [hopen r' hne] at hc'
  · rw [hcol, colLevel_of_not_joinedLow (hjoined.trans hc)]
  · rw [hcol, colLevel_eq_drawn (hjoined.trans hc) ((hlow.joinedHigh_iff c).2 ⟨r', hne, hc'⟩), drawn]
  · rw [hlow.pinBit_eq hone c, Bool.not_eq_false']

/-! ### What no operation changes of the port (R214) -/

/-- The bits outside the window of the port registers are kept, and PDIR and POEN wholly once KINIT has run. -/
def ForeignKept (s t : State) : Prop :=
  t.pdir &&& ~~~wmask = s.pdir &&& ~~~wmask ∧ t.poen &&& ~~~wmask = s.poen &&& ~~~wmask ∧
    t.pout &&& ~~~wmask = s.pout &&& ~~~wmask ∧ (s.kinitDone = true → t.pdir = s.pdir ∧ t.poen = s.poen)

theorem SamePort.foreignKept (h : SamePort s t) : ForeignKept s t := by
  obtain ⟨hd, he, ho⟩ := h
  exact ⟨by rw [hd], by rw [he], by rw [ho], fun _ => ⟨hd, he⟩⟩

/-- KINIT writes back the foreign bits it read, and a repeated KINIT the window that stands there (R131, R132). -/
theorem kinitMicro_foreignKept (h : KeypadInv s) (hm : kinitMicro s = .next t) : ForeignKept s t := by
  have hheld := h.held
  obtain ⟨-, rfl⟩ | ⟨hs, rfl⟩ | ⟨-, rfl⟩ | ⟨hs, rfl⟩ | ⟨-, rfl⟩ | ⟨hs, rfl⟩ := kinitMicro_cases hm
  · exact (SamePort.refl s).foreignKept
  · have htmp : s.tmp = s.pdir := by simpa [tmpHeld, hs] using hheld
    refine ⟨?_, rfl, rfl, fun hk => ⟨?_, rfl⟩⟩
    · exact htmp ▸ setwin_foreign s.tmp 0xFF 0x0F
    · exact htmp ▸ setwin_same s.tmp _ _ (by rw [htmp, h.direction (.inl hk)])
  · exact (SamePort.refl s).foreignKept
  · have htmp : s.tmp = s.poen := by simpa [tmpHeld, hs] using hheld
    refine ⟨rfl, ?_, rfl, fun hk => ⟨rfl, ?_⟩⟩
    · exact htmp ▸ setwin_foreign s.tmp 0xFF 0x0F
    · exact htmp ▸ setwin_same s.tmp _ _ (by rw [htmp, h.enable (.inl hk)])
  · exact (SamePort.refl s).foreignKept
  · have htmp : s.tmp = s.pout := by simpa [tmpHeld, hs] using hheld
    exact ⟨rfl, rfl, htmp ▸ setwin_foreign s.tmp 0x0F 0x0F, fun _ => ⟨rfl, rfl⟩⟩

/-- A pass writes POUT alone, and back into it the foreign bits it read (R134). -/
theorem scanMicro_foreignKept (h : KeypadInv s) (hm : scanMicro s = .next t) : ForeignKept s t := by
  have hheld := h.held
  obtain ⟨-, rfl⟩ | ⟨r, -, rfl⟩ | ⟨r, hs, rfl⟩ | ⟨r, c, -, -, rfl⟩ | ⟨r, c, -, -, rfl⟩ | ⟨r, -, rfl⟩ | ⟨r, hs, rfl⟩ |
    ⟨-, -, -, rfl⟩ | ⟨-, -, rfl⟩ := scanMicro_cases hm
  case inr.inr.inl | inr.inr.inr.inr.inr.inr.inl =>
    have htmp : s.tmp = s.pout := by simpa [tmpHeld, hs] using hheld
    exact ⟨rfl, rfl, htmp ▸ setwin_foreign s.tmp _ _, fun _ => ⟨rfl, rfl⟩⟩
  all_goals exact (SamePort.refl s).foreignKept

/-- Neither an Issue nor a micro-step of any command changes a foreign bit. -/
theorem exec_foreignKept (h : KeypadInv s) (hx : exec i s = .next t) : ForeignKept s t := by
  cases hb : s.busy with
  | false =>
    obtain ⟨l, rfl, -⟩ := exec_idle_accepts hb hx
    exact (SamePort.refl s).foreignKept
  | true =>
    obtain rfl := cmd_eq_of_exec_busy hb hx
    obtain ⟨-, hm⟩ | ⟨-, hm⟩ | ⟨row, col, -, hm⟩ | ⟨stop, data, parity, cd, bdiv, hc, -⟩ | ⟨msg, hc, -⟩ :=
      exec_busy_cases hb hx
    · exact kinitMicro_foreignKept h hm
    · exact scanMicro_foreignKept h hm
    · obtain ⟨-, rfl⟩ := kdecMicro_cases hm
      exact (SamePort.refl s).foreignKept
    · obtain ⟨hport, -⟩ := ucfgFrame stop data parity cd bdiv s t (hc ▸ hx)
      exact hport.foreignKept
    · obtain ⟨hport, -⟩ := utxFrame msg s t (hc ▸ hx)
      exact hport.foreignKept

/-- Settles O16: SEQ's step and HOST's Issue change nothing, or are `exec` of a command. -/
theorem foreignBitsKept : Obligations.ForeignBitsKept := by
  unfold Obligations.ForeignBitsKept
  intro s t hinv he hm
  have hk : KeypadInv (takeEvent s) := hinv.takeEvent.keypad
  obtain he | he := he <;> rw [step_of_nextEvent he] at hm
  · by_cases hb : s.busy = true
    · exact exec_foreignKept (s := takeEvent s) hk ((seqStep_busy (s := takeEvent s) hb).symm.trans hm)
    · obtain rfl := Host.Outcome.next.inj ((seqStep_idle (s := takeEvent s) (Bool.eq_false_iff.2 hb)).symm.trans hm)
      exact (SamePort.refl s).foreignKept
  · obtain ⟨rfl, -⟩ | ⟨-, i, rest, -, hx⟩ := hostIssueStep_cases hm
    · exact (SamePort.refl s).foreignKept
    · exact exec_foreignKept (s := setCmds rest (takeEvent s)) { hk with } hx

/-! ### Who changes the FIFO, TXFULL and the reset bits (R210) -/

/-- What of the device a step of an operation from `s` to `t` may have changed, and at which micro-step. -/
def DeviceWrites (s t : State) : Prop :=
  (t.fifo = s.fifo ∨ (s.busy = true ∧ (s.seq = .utWrite ∨ s.seq = .ucReset))) ∧
    (t.txfull = s.txfull ∨ (s.busy = true ∧ (s.seq = .utWrite ∨ s.seq = .ucReset ∨ s.seq = .utClear))) ∧
    ((t.rxrst = s.rxrst ∧ t.txrst = s.txrst) ∨ (s.busy = true ∧ s.seq = .ucReset))

theorem deviceWrites_of_same (hf : SameFifo s t) (hu : SameUartConfig s t) : DeviceWrites s t := by
  obtain ⟨hfifo, hfull, -⟩ := hf
  obtain ⟨hrx, htx, -⟩ := hu
  exact ⟨.inl hfifo, .inl hfull, .inl ⟨hrx, htx⟩⟩

/-- The frames of the commands say which micro-step writes what of the device. -/
theorem exec_deviceWrites (hx : exec i s = .next t) : DeviceWrites s t := by
  cases i with
  | kinit =>
    obtain ⟨-, -, hu, hf, -⟩ := kinitFrame s t hx
    exact deviceWrites_of_same hf hu
  | kscan =>
    obtain ⟨-, -, hu, hf, -⟩ := scanFrame .kscan s t (.inl rfl) hx
    exact deviceWrites_of_same hf hu
  | kwait =>
    obtain ⟨-, -, hu, hf, -⟩ := scanFrame .kwait s t (.inr rfl) hx
    exact deviceWrites_of_same hf hu
  | kdec row col =>
    obtain ⟨-, -, -, hu, hf, -⟩ := kdecFrame row col s t hx
    exact deviceWrites_of_same hf hu
  | ucfg stop data parity cd bdiv =>
    obtain ⟨-, -, -, -, -, -, -, -, -, -, hsame, -⟩ := ucfgFrame stop data parity cd bdiv s t hx
    by_cases hr : s.busy = true ∧ s.seq = .ucReset
    · exact ⟨.inr ⟨hr.1, .inr hr.2⟩, .inr ⟨hr.1, .inr (.inl hr.2)⟩, .inr hr⟩
    · obtain ⟨hfifo, hfull, hrx, htx⟩ := hsame hr
      exact ⟨.inl hfifo, .inl hfull, .inl ⟨hrx, htx⟩⟩
  | utx msg =>
    obtain ⟨-, -, -, -, ⟨hrx, htx, -⟩, -, -, -, -, -, hfifo, hfull, -⟩ := utxFrame msg s t hx
    refine ⟨or_iff_not_imp_right.2 fun hn => hfifo fun hw => hn ⟨hw.1, .inl hw.2⟩,
      or_iff_not_imp_right.2 fun hn => hfull fun hw => hn ⟨hw.1, ?_⟩, .inl ⟨hrx, htx⟩⟩
    exact hw.2.elim (fun h => .inr (.inr h)) .inl

/-- Settles O49: an operation owns what `DeviceWrites` says, UARTDEV its own two steps, the other agents nothing. -/
theorem deviceStateOwnership : Obligations.DeviceStateOwnership := by
  unfold Obligations.DeviceStateOwnership
  intro s t hm hnp
  rw [step_eq] at hm
  obtain ⟨he, -, hx⟩ | ⟨he, hb⟩ | ⟨rx, tx, he, hx⟩ | ⟨he, hx⟩ | ⟨u, hx, hu⟩ :=
    runEvent_cases (nextEvent s) (takeEvent s) hnp
  · obtain ⟨hfifo, hfull, hreset⟩ := exec_deviceWrites (hx.symm.trans hm)
    exact ⟨hfifo.imp_right fun h => .inr ⟨he, h⟩, hfull.imp_right fun h => ⟨he, h⟩,
      hreset.imp_right fun h => .inr ⟨he, h⟩⟩
  · rw [he] at hm
    obtain ⟨rfl, -⟩ | ⟨-, i, rest, -, hx⟩ := hostIssueStep_cases hm
    · exact ⟨.inl rfl, .inl rfl, .inl ⟨rfl, rfl⟩⟩
    · obtain ⟨l, rfl, -⟩ := exec_idle_accepts (s := setCmds rest (takeEvent s)) hb hx
      exact ⟨.inl rfl, .inl rfl, .inl ⟨rfl, rfl⟩⟩
  · obtain rfl := Host.Outcome.next.inj (hx.symm.trans hm)
    exact ⟨.inl rfl, .inl rfl, .inr (.inl ⟨rx, tx, he⟩)⟩
  · obtain rfl := Host.Outcome.next.inj (hx.symm.trans hm)
    refine ⟨.inr (.inl he), ?_⟩
    obtain hd | ⟨b, rest, -, hd⟩ := dequeueStep_cases (takeEvent s) <;> rw [hd] <;>
      exact ⟨.inl rfl, .inl ⟨rfl, rfl⟩⟩
  · obtain rfl := Host.Outcome.next.inj (hx.symm.trans hm)
    rw [hu]
    exact ⟨.inl rfl, .inl rfl, .inl ⟨rfl, rfl⟩⟩

end Sys2Proof.Machine

/-! Proof that under weak fairness every UCFG and every UTX ends (spec/45_agents.md R211, spec/41_uart_tx.md R165 and
R175): a rank that no step raises, and that the one event the operation waits for lowers. -/

namespace Sys2Proof.Machine

variable {s t : State}

/-! ### The rank of a UCFG or UTX in progress, and what it waits for -/

/-- What `n` bytes still to be sent count for in the rank: each needs at most four micro-steps and `depth` Dequeues. -/
def bytesRank (n depth : Nat) : Nat := n * (depth + 4)

/-- A bound on the steps a UCFG or UTX in progress still needs: micro-steps, at UC_WAIT the clearing of the pending reset
bits, at UT_POLL the Dequeues. -/
def uartRank (s : State) : Nat :=
  match s.seq with
  | .ucReset => 9
  | .ucWait => 6 + s.rxrst.toNat + s.txrst.toNat
  | .ucEnable => 5
  | .ucMode => 4
  | .ucBg => 3
  | .ucBd => 2
  | .ucIen => 1
  | .utLoad => bytesRank (txbufCap + 1) s.fifoDepth
  | .utCheck => bytesRank (s.txlen - s.txidx) s.fifoDepth + (s.fifoDepth + 3)
  | .utClear => bytesRank (s.txlen - s.txidx) s.fifoDepth + (s.fifoDepth + 2)
  | .utPoll => bytesRank (s.txlen - s.txidx) s.fifoDepth + (s.fifo.length + 1)
  | .utWrite => bytesRank (s.txlen - s.txidx) s.fifoDepth
  | _ => 0

/-- The operation is held at UC_WAIT by a pending reset (R165). -/
def awaitsReset (s : State) : Bool := s.seq == .ucWait && resetPending s

/-- The operation is held at UT_POLL by a byte in the FIFO (R175). -/
def awaitsDrain (s : State) : Bool := s.seq == .utPoll && !s.fifo.isEmpty

/-- Whether an event is the one the operation waits for: a ResetDone, a Dequeue, or else its own micro-step. -/
def advances (e : Event) (s : State) : Bool :=
  if awaitsReset s then takesResetDone e s
  else if awaitsDrain s then e == .dequeue
  else e == .seq

/-- The operation stands where it stood, and waits for what it waited for. -/
structure SameWait (s t : State) : Prop where
  rank : uartRank t = uartRank s
  reset : awaitsReset t = awaitsReset s
  drain : awaitsDrain t = awaitsDrain s

theorem SameWait.refl (s : State) : SameWait s s := ⟨rfl, rfl, rfl⟩

theorem SameWait.trans {u : State} (h : SameWait s t) (h' : SameWait t u) : SameWait s u :=
  ⟨h'.rank.trans h.rank, h'.reset.trans h.reset, h'.drain.trans h.drain⟩

theorem awaitsReset_iff : awaitsReset s = true ↔ s.seq = .ucWait ∧ resetPending s = true := by simp [awaitsReset]

theorem awaitsDrain_iff : awaitsDrain s = true ↔ s.seq = .utPoll ∧ s.fifo ≠ [] := by simp [awaitsDrain]

theorem bytesRank_succ (n depth : Nat) : bytesRank (n + 1) depth = bytesRank n depth + (depth + 4) := Nat.succ_mul n _

theorem bytesRank_mono {n m depth : Nat} (h : n ≤ m) : bytesRank n depth ≤ bytesRank m depth := Nat.mul_le_mul_right _ h

theorem uartBusy_iff : uartBusy s = true ↔ s.busy = true ∧
    ((∃ stop data parity cd bdiv, s.cmd = .ucfg stop data parity cd bdiv) ∨ ∃ msg, s.cmd = .utx msg) := by
  unfold uartBusy
  cases s.cmd <;> simp

/-! ### SEQ's micro-steps lower the rank, or wait -/

theorem ucfgMicro_lowers_rank {stop data : BitVec 2} {parity : BitVec 3} {cd : BitVec 16} {bdiv : BitVec 8}
    (hm : ucfgMicro stop data parity cd bdiv s = .next t) :
    uartRank t < uartRank s ∨ (awaitsReset s = true ∧ t = s) := by
  obtain ⟨hs, rfl⟩ | ⟨hs, rfl⟩ | ⟨hs, rfl⟩ | ⟨hs, rfl⟩ | ⟨hs, rfl⟩ | ⟨hs, rfl⟩ | ⟨hs, rfl⟩ := ucfgMicro_cases hm
  case inr.inl =>
    cases hp : resetPending s with
    | true =>
      have hr : s.rxrst = true ∨ s.txrst = true := by simpa [resetPending] using hp
      rw [if_neg (ucrWord_reset_ne_zero hr), setSeq, ← hs]
      exact .inr ⟨awaitsReset_iff.2 ⟨hs, hp⟩, rfl⟩
    | false =>
      obtain ⟨hrx, htx⟩ : s.rxrst = false ∧ s.txrst = false := by simpa [resetPending] using hp
      rw [if_pos ((ucrWord_reset_eq_zero s).2 ⟨htx, hrx⟩)]
      left
      simp [uartRank, hs, hrx, htx]
  all_goals
    left
    simp [uartRank, hs]

/-- UT_WRITE ends the transmission, or leaves it with one byte less (R170). -/
theorem utxAdvance_lowers_rank (b : Byte) (hs : s.seq = .utWrite) (hidx : s.txidx < s.txlen) :
    uartRank (utxAdvance (pushFifo b s)) < uartRank s := by
  have hleft : s.txlen - s.txidx = s.txlen - (s.txidx + 1) + 1 := by omega
  have hrank : uartRank s = bytesRank (s.txlen - (s.txidx + 1)) s.fifoDepth + (s.fifoDepth + 4) := by
    rw [← bytesRank_succ, ← hleft, uartRank, hs]
  unfold utxAdvance
  rw [hrank]
  split_ifs with hmore
  · exact Nat.lt_succ_self _
  · exact Nat.succ_pos _

theorem utxMicro_lowers_rank {msg : List Byte} (h : UartInv s) (hm : utxMicro msg s = .next t) :
    uartRank t < uartRank s ∨ (awaitsDrain s = true ∧ t = s) := by
  have hroom := h.room
  obtain ⟨hs, rfl⟩ | ⟨hs, rfl⟩ | ⟨hs, rfl⟩ | ⟨hs, rfl⟩ | ⟨hs, b, -, -, -, rfl⟩ := utxMicro_cases hm
  · left
    have hlen : bytesRank (keptLength msg.length + 1) s.fifoDepth ≤ bytesRank txbufCap s.fifoDepth :=
      bytesRank_mono (keptLength_lt _)
    have hrank : uartRank s = bytesRank txbufCap s.fifoDepth + (s.fifoDepth + 4) := by
      rw [← bytesRank_succ, uartRank, hs]
    rw [hrank]
    exact Nat.lt_succ_of_le (Nat.add_le_add_right hlen (s.fifoDepth + 3))
  · left
    split_ifs
    · simp [uartRank, hs]
    · simp [uartRank, hs]
  · left
    have hrank : uartRank s = bytesRank (s.txlen - s.txidx) s.fifoDepth + (s.fifoDepth + 2) := by rw [uartRank, hs]
    rw [hrank]
    exact Nat.add_lt_add_left (Nat.lt_succ_of_le (Nat.succ_le_succ hroom)) _
  · by_cases hf : s.fifo = []
    · left
      rw [if_pos (by simp [txempty, hf])]
      simp [uartRank, hs]
    · right
      rw [if_neg (by simp [txempty, hf]), setSeq, ← hs]
      exact ⟨awaitsDrain_iff.2 ⟨hs, hf⟩, rfl⟩
  · left
    exact utxAdvance_lowers_rank b hs (h.index (by rw [hs]; rfl)).1

/-- A micro-step lowers the rank, unless the operation waits for the device; then it changes nothing. -/
theorem exec_lowers_rank (h : UartInv s) (hu : uartBusy s = true) (hx : exec s.cmd s = .next t) :
    uartRank t < uartRank s ∨ ((awaitsReset s = true ∨ awaitsDrain s = true) ∧ t = s) := by
  obtain ⟨hb, ⟨stop, data, parity, cd, bdiv, hc⟩ | ⟨msg, hc⟩⟩ := uartBusy_iff.1 hu
  · rw [hc, exec_ucfg_busy hb hc] at hx
    exact (ucfgMicro_lowers_rank hx).imp_right fun hw => ⟨.inl hw.1, hw.2⟩
  · rw [hc, exec_utx_busy hb hc] at hx
    exact (utxMicro_lowers_rank h hx).imp_right fun hw => ⟨.inr hw.1, hw.2⟩

/-! ### UARTDEV's steps lower the rank where they are waited for -/

/-- A reset is pending at UC_WAIT alone, so a ResetDone that is taken is waited for (R163). -/
theorem awaitsReset_of_taken {e : Event} (h : UartInv s) (ht : takesResetDone e s = true) : awaitsReset s = true := by
  have hp : resetPending s = true := by
    cases e with
    | resetDone rx tx =>
      simp only [takesResetDone, Bool.or_eq_true, Bool.and_eq_true] at ht
      rw [resetPending, Bool.or_eq_true]
      exact ht.imp And.right And.right
    | _ => cases ht
  refine awaitsReset_iff.2 ⟨?_, hp⟩
  by_contra hs
  simp [resetPending, h.noReset hs] at hp

theorem clearResets_lowers_rank {rx tx : Bool} (hs : s.seq = .ucWait)
    (ht : takesResetDone (.resetDone rx tx) s = true) : uartRank (clearResets rx tx s) < uartRank s := by
  have hclear : (s.rxrst && !rx).toNat + (s.txrst && !tx).toNat < s.rxrst.toNat + s.txrst.toNat := by
    revert ht
    unfold takesResetDone
    cases rx <;> cases tx <;> cases s.rxrst <;> cases s.txrst <;> decide
  have hrank : uartRank s = 6 + s.rxrst.toNat + s.txrst.toNat := by rw [uartRank, hs]
  have hrank' : uartRank (clearResets rx tx s) = 6 + (s.rxrst && !rx).toNat + (s.txrst && !tx).toNat := by
    rw [uartRank, clearResets_seq, hs]
    rfl
  omega

/-- A Dequeue that is waited for is enabled: past UT_LOAD the transmitter is on and no reset is pending (R208). -/
theorem dequeueEnabled_of_awaitsDrain (h : UartInv s) (hd : awaitsDrain s = true) : dequeueEnabled s = true := by
  obtain ⟨hs, hf⟩ := awaitsDrain_iff.1 hd
  obtain ⟨-, ⟨htx, -⟩, -, hen, -⟩ := (uartInv_iff_of_utxBody (by rw [hs]; rfl)).1 h
  exact dequeueEnabled_iff.2 ⟨hen, htx, hf⟩

theorem dequeueStep_lowers_rank (h : UartInv s) (hd : awaitsDrain s = true) :
    uartRank (dequeueStep s) < uartRank s := by
  obtain ⟨hs, -⟩ := awaitsDrain_iff.1 hd
  obtain ⟨ht, hr, hf⟩ := dequeueEnabled_iff.1 (dequeueEnabled_of_awaitsDrain h hd)
  obtain ⟨b, rest, hf⟩ := List.exists_cons_of_ne_nil hf
  rw [dequeueStep_of_enabled ht hr hf]
  simp [uartRank, hs, hf, State.fifoDepth]

/-- Where Dequeue is not waited for it is of no account. -/
theorem dequeueStep_sameWait (hd : awaitsDrain s = false) : SameWait s (dequeueStep s) := by
  obtain he | ⟨b, rest, hf, he⟩ := dequeueStep_cases s <;> rw [he]
  · exact SameWait.refl s
  · have hs : s.seq ≠ .utPoll := fun hs => by simp [awaitsDrain, hs, hf] at hd
    refine ⟨?_, rfl, ?_⟩
    · unfold uartRank
      rw [popFifo_seq]
      split
      case h_11 hpoll => exact absurd hpoll hs
      all_goals rfl
    · simp [awaitsDrain, beq_false_of_ne hs]

/-! ### Every step of every agent -/

/-- An operation waits for no step but SEQ's, a Dequeue and a ResetDone that is taken. -/
theorem not_advances_of_bystander {e : Event} (hs : e ≠ .seq) (hd : e ≠ .dequeue) (ht : takesResetDone e s = false) :
    advances e s = false := by
  unfold advances
  split_ifs
  · exact ht
  · exact beq_false_of_ne hd
  · exact beq_false_of_ne hs

/-- No step but the reset event raises the rank of an operation, and the event it waits for lowers it. -/
theorem runEvent_lowers_rank {e : Event} (h : UartInv s) (hu : uartBusy s = true) (he : e ≠ .powerOn)
    (hm : runEvent e s = .next t) : uartRank t < uartRank s ∨ (advances e s = false ∧ SameWait s t) := by
  obtain ⟨hb, -⟩ := uartBusy_iff.1 hu
  cases e with
  | seq =>
    obtain hlt | ⟨hw, rfl⟩ := exec_lowers_rank h hu ((seqStep_busy hb).symm.trans hm)
    · exact .inl hlt
    · refine .inr ⟨?_, SameWait.refl _⟩
      obtain hw | hw := hw
      · simp [advances, hw, takesResetDone]
      · simp [advances, hw, takesResetDone]
  | resetDone rx tx =>
    obtain rfl := Host.Outcome.next.inj hm
    cases ht : takesResetDone (.resetDone rx tx) s with
    | true => exact .inl (clearResets_lowers_rank (awaitsReset_iff.1 (awaitsReset_of_taken h ht)).1 ht)
    | false => exact .inr ⟨not_advances_of_bystander nofun nofun ht, (clearResets_of_not_taken ht).symm ▸ SameWait.refl s⟩
  | dequeue =>
    obtain rfl := Host.Outcome.next.inj hm
    cases hd : awaitsDrain s with
    | true => exact .inl (dequeueStep_lowers_rank h hd)
    | false => exact .inr ⟨by simp [advances, hd, takesResetDone], dequeueStep_sameWait hd⟩
  | keys k =>
    obtain rfl := Host.Outcome.next.inj hm
    exact .inr ⟨not_advances_of_bystander nofun nofun rfl, rfl, rfl, rfl⟩
  | other r v =>
    obtain rfl := Host.Outcome.next.inj hm
    exact .inr ⟨not_advances_of_bystander nofun nofun rfl, (otherStep_busy hb).symm ▸ SameWait.refl s⟩
  | hostIssue =>
    obtain rfl := Host.Outcome.next.inj ((hostIssueStep_busy hb).symm.trans hm)
    exact .inr ⟨not_advances_of_bystander nofun nofun rfl, SameWait.refl _⟩
  | hostRead =>
    obtain rfl := Host.Outcome.next.inj hm
    exact .inr ⟨not_advances_of_bystander nofun nofun rfl, (hostReadStep_busy hb).symm ▸ SameWait.refl s⟩
  | powerOn => exact absurd rfl he

/-! ### A fair run (R211, R218, log entry 22) -/

/-- A fair run without the reset event in which a UCFG or UTX never ends. -/
structure EndlessRun (sched : Nat → Event) (st : Nat → State) : Prop where
  scheduled : ScheduledRun sched st
  device : DeviceFair sched st
  sequencer : SequencerFair sched st
  noReset : ∀ n, sched n ≠ .powerOn
  inv : ∀ n, BlockInv (st n)
  uart : ∀ n, uartBusy (st n) = true

section

variable {sched : Nat → Event} {st : Nat → State}

/-- One step of a scheduled run is a step of the agent the schedule names. -/
theorem ScheduledRun.event (h : ScheduledRun sched st) (n : Nat) :
    runEvent (sched n) { st n with agenda := [] } = .next (st (n + 1)) := h n

/-- An operation that goes on is still the same one (R46). -/
theorem ScheduledRun.uartBusy_succ (h : ScheduledRun sched st) {n : Nat} (he : sched n ≠ .powerOn)
    (hu : uartBusy (st n) = true) (hb : (st (n + 1)).busy = true) : uartBusy (st (n + 1)) = true := by
  obtain ⟨hb', hc⟩ := uartBusy_iff.1 hu
  obtain ⟨-, -, -, hcmd, -⟩ := runEvent_latches he (h.event n)
  rw [uartBusy_iff, hcmd hb']
  exact ⟨hb, hc⟩

theorem ScheduledRun.inv_succ (h : ScheduledRun sched st) {n : Nat} (hinv : BlockInv (st n)) : BlockInv (st (n + 1)) :=
  runEvent_keeps_inv (sched n) (hinv.surroundings (st n).closed (st n).hostKey [] (st n).cmds) (h.event n)

theorem EndlessRun.lowers_rank (h : EndlessRun sched st) (n : Nat) :
    uartRank (st (n + 1)) < uartRank (st n) ∨
      (advances (sched n) (st n) = false ∧ SameWait (st n) (st (n + 1))) := by
  have hagenda : SameWait (st n) { st n with agenda := [] } := ⟨rfl, rfl, rfl⟩
  obtain hlt | ⟨ha, hw⟩ := runEvent_lowers_rank (s := { st n with agenda := [] }) { (h.inv n).uart with } (h.uart n)
    (h.noReset n) (h.scheduled.event n)
  · exact .inl hlt
  · exact .inr ⟨ha, hagenda.trans hw⟩

/-- Fairness in one: an operation that waits for the same thing from some step on gets it. -/
theorem EndlessRun.advances_again (h : EndlessRun sched st) {N : Nat} (hsame : ∀ m, N ≤ m → SameWait (st N) (st m)) :
    ∃ m, N ≤ m ∧ advances (sched m) (st m) = true := by
  cases hr : awaitsReset (st N) with
  | true =>
    have hwait : ∀ m, N ≤ m → awaitsReset (st m) = true := fun m hm => (hsame m hm).reset.trans hr
    obtain ⟨m, hm, ht⟩ := h.device.resetDone N fun m hm => (awaitsReset_iff.1 (hwait m hm)).2
    exact ⟨m, hm, by rw [advances, if_pos (hwait m hm), ht]⟩
  | false =>
    have hno : ∀ m, N ≤ m → ¬ awaitsReset (st m) = true := fun m hm => by simp [(hsame m hm).reset, hr]
    cases hd : awaitsDrain (st N) with
    | true =>
      have hwait : ∀ m, N ≤ m → awaitsDrain (st m) = true := fun m hm => (hsame m hm).drain.trans hd
      obtain ⟨m, hm, ht⟩ :=
        h.device.dequeue N fun m hm => dequeueEnabled_of_awaitsDrain (h.inv m).uart (hwait m hm)
      exact ⟨m, hm, by rw [advances, if_neg (hno m hm), if_pos (hwait m hm), ht]; rfl⟩
    | false =>
      have hfree : ∀ m, N ≤ m → ¬ awaitsDrain (st m) = true := fun m hm => by simp [(hsame m hm).drain, hd]
      obtain ⟨m, hm, ht⟩ := h.sequencer N fun m _ => (uartBusy_iff.1 (h.uart m)).1
      exact ⟨m, hm, by rw [advances, if_neg (hno m hm), if_neg (hfree m hm), ht]; rfl⟩

/-- There is no such run: from a step of least rank on the operation waits for one thing, and gets it. -/
theorem EndlessRun.impossible (h : EndlessRun sched st) : False := by
  obtain ⟨N, hleast⟩ : ∃ N, ∀ m, uartRank (st N) ≤ uartRank (st m) :=
    ⟨_, fun m => Function.argmin_le (fun n => uartRank (st n)) m⟩
  have hstays : ∀ m, SameWait (st N) (st m) → advances (sched m) (st m) = false ∧ SameWait (st N) (st (m + 1)) := by
    intro m hm
    obtain hlt | ⟨ha, hw⟩ := h.lowers_rank m
    · rw [hm.rank] at hlt
      exact absurd (hleast (m + 1)) (not_le.2 hlt)
    · exact ⟨ha, hm.trans hw⟩
  have hsame : ∀ m, N ≤ m → SameWait (st N) (st m) := by
    intro m hm
    induction m, hm using Nat.le_induction with
    | base => exact SameWait.refl _
    | succ m _ ih => exact (hstays m ih).2
  obtain ⟨m, hm, ha⟩ := h.advances_again hsame
  exact absurd ((hstays m (hsame m hm)).1.symm.trans ha) (by decide)

end

/-- Settles O45: a run in which BUSY stays 1 would be an `EndlessRun`. -/
theorem uartOperationsEndUnderFairness : Obligations.UartOperationsEndUnderFairness := by
  unfold Obligations.UartOperationsEndUnderFairness
  intro sched st hrun hdev hseq hno hinv hu
  by_contra hend
  have hbusy : ∀ n, (st n).busy = true := fun n => by_contra fun hb => hend ⟨n, Bool.eq_false_iff.2 hb⟩
  have hinvs : ∀ n, BlockInv (st n) := fun n => by
    induction n with
    | zero => exact hinv
    | succ n ih => exact hrun.inv_succ ih
  have huarts : ∀ n, uartBusy (st n) = true := fun n => by
    induction n with
    | zero => exact hu
    | succ n ih => exact hrun.uartBusy_succ (hno n) ih (hbusy (n + 1))
  exact EndlessRun.impossible ⟨hrun, hdev, hseq, hno, hinvs, huarts⟩

end Sys2Proof.Machine

/-! Proofs about the exceptions (spec/60_exceptions.md): the interrupt request line, and the KWAIT that hangs because no
contact closes. -/

namespace Sys2Proof.Machine

variable {s t : State}

/-! ### The interrupt request line (R234) -/

/-- Bit 4 of UIER is the enable of TXFULL (R37). -/
theorem uierWord_bit4 (s : State) : (uierWord s).getLsbD 4 = s.txfullEn := by
  rw [uierWord_getLsbD s (by decide)]
  simp

/-- Bit 3 of UIER is the enable of TXEMPTY (R37). -/
theorem uierWord_bit3 (s : State) : (uierWord s).getLsbD 3 = s.txemptyEn := by
  rw [uierWord_getLsbD s (by decide)]
  simp

/-- Settles O53: each of the four bits read is the flag or the enable that `irq` names. -/
theorem interruptLine : Obligations.InterruptLine := by
  unfold Obligations.InterruptLine
  intro s
  rw [uisrWord_bit4, uisrWord_bit3, uierWord_bit4, uierWord_bit3, irq]

/-! ### An operation in progress always has a next step (R218, R240) -/

/-- Only an Issue can be refused, and none is made while BUSY = 1. -/
theorem runEvent_completes (e : Event) (h : BlockInv s) (hb : s.busy = true) : ∃ t, runEvent e s = .next t := by
  by_cases he : e = .powerOn
  · exact ⟨_, by rw [he]; rfl⟩
  · obtain ⟨-, -, hx⟩ | ⟨-, hb'⟩ | ⟨rx, tx, -, hx⟩ | ⟨-, hx⟩ | ⟨t, hx, -⟩ := runEvent_cases e s he
    · exact hx ▸ exec_busy_answers h hb
    · exact absurd (hb.symm.trans hb') (by decide)
    · exact ⟨_, hx⟩
    · exact ⟨_, hx⟩
    · exact ⟨t, hx⟩

/-! ### A KWAIT with every contact open (R137, R145, R237) -/

/-- An open contact is no path to the low row, so the column reads high (R135, R202). -/
theorem OneRowLow.pinBit_of_open {r : Row} {c : Col} (h : OneRowLow r s) (ho : contact s.closed r c = false) :
    pinBit s c.bit = true := by
  obtain ⟨-, hcols⟩ := h.driven
  rw [pinBit_col (hcols c), colLevel_of_not_joinedLow ((h.joinedLow_eq c).trans ho)]

/-- With nothing recorded KS_END of a KWAIT does not end the operation: the code is -1 (R137, R145). -/
theorem WaitingForKey.goes_again (h : WaitingForKey s) (hs : s.seq = .ksEnd) :
    s.waitmode = true ∧ (scanResult s).msb = true := by
  have hres : (scanResult s).toInt = -1 := scanResult_of_not_hit (h.nothingRecorded (by rw [hs]; nofun))
  refine ⟨by simp [h.inv.sequencer.wait, h.busy, h.cmd], ?_⟩
  rw [BitVec.msb_eq_toInt, hres]
  rfl

/-- Each micro-step of the pass keeps it waiting: a sample reads high, and KS_END starts another pass. -/
theorem WaitingForKey.exec_keeps (h : WaitingForKey s) (hx : exec s.cmd s = .next t) : WaitingForKey t := by
  have hinv : BlockInv t := seqStep_keeps_inv h.inv ((seqStep_busy h.busy).trans hx)
  have hhit {l : SeqLabel} (hs : s.seq = l) (hl : l ≠ .ksBegin) : s.hit = false := h.nothingRecorded (hs ▸ hl)
  rw [h.cmd, exec_scan_busy (.inr rfl) h.busy h.cmd] at hx
  obtain ⟨-, rfl⟩ | ⟨r, hs, rfl⟩ | ⟨r, hs, rfl⟩ | ⟨r, c, hs, -, rfl⟩ | ⟨r, c, hs, hlow, -⟩ | ⟨r, hs, rfl⟩ |
    ⟨r, hs, rfl⟩ | ⟨-, -, -, rfl⟩ | ⟨hs, hend, -⟩ := scanMicro_cases hx
  · exact ⟨hinv, h.busy, h.cmd, h.allOpen, fun _ => rfl⟩
  · exact ⟨hinv, h.busy, h.cmd, h.allOpen, fun _ => hhit hs nofun⟩
  · exact ⟨hinv, h.busy, h.cmd, h.allOpen, fun _ => hhit hs nofun⟩
  · exact ⟨hinv, h.busy, h.cmd, h.allOpen, fun _ => hhit hs nofun⟩
  · have hhigh : pinBit s c.bit = true := (oneRowLow_of_inv h.inv hs).pinBit_of_open (h.allOpen r c)
    exact absurd (hhigh.symm.trans hlow) (by decide)
  · exact ⟨hinv, h.busy, h.cmd, h.allOpen, fun _ => hhit hs nofun⟩
  · exact ⟨hinv, h.busy, h.cmd, h.allOpen, fun _ => hhit hs nofun⟩
  · exact ⟨hinv, h.busy, h.cmd, h.allOpen, fun hne => absurd rfl hne⟩
  · exact absurd (h.goes_again hs) hend

/-- Every agent but KEYS keeps it waiting, the reset event apart: UARTDEV touches no part of the scanner, and neither
OTHER nor HOST has a step while BUSY = 1 (R212, R216). -/
theorem WaitingForKey.runEvent_keeps {e : Event} (h : WaitingForKey s) (hk : ∀ k, e ≠ .keys k) (hp : e ≠ .powerOn)
    (hm : runEvent e s = .next t) : WaitingForKey t := by
  cases e with
  | seq => exact h.exec_keeps ((seqStep_busy h.busy).symm.trans hm)
  | keys k => exact absurd rfl (hk k)
  | resetDone rx tx =>
    obtain rfl := Host.Outcome.next.inj hm
    exact ⟨clearResets_keeps_inv rx tx h.inv, h.busy, h.cmd, h.allOpen, h.nothingRecorded⟩
  | dequeue =>
    have hinv := dequeueStep_keeps_inv h.inv
    obtain rfl := Host.Outcome.next.inj hm
    obtain hd | ⟨b, rest, -, hd⟩ := dequeueStep_cases s <;> rw [hd] at hinv ⊢
    · exact h
    · exact ⟨hinv, h.busy, h.cmd, h.allOpen, h.nothingRecorded⟩
  | other r v => exact (otherStep_busy h.busy).symm.trans (Host.Outcome.next.inj hm) ▸ h
  | hostIssue => exact Host.Outcome.next.inj ((hostIssueStep_busy h.busy).symm.trans hm) ▸ h
  | hostRead => exact (hostReadStep_busy h.busy).symm.trans (Host.Outcome.next.inj hm) ▸ h
  | powerOn => exact absurd rfl hp

theorem WaitingForKey.takeEvent (h : WaitingForKey s) : WaitingForKey (takeEvent s) :=
  ⟨h.inv.takeEvent, h.busy, h.cmd, h.allOpen, h.nothingRecorded⟩

/-- Any number of micro-steps completes and leaves it waiting. -/
theorem WaitingForKey.seqRun_keeps (h : WaitingForKey s) (n : Nat) :
    ∃ t, seqRun n .kwait s = .next t ∧ WaitingForKey t := by
  induction n with
  | zero => exact ⟨s, rfl, h⟩
  | succ n ih =>
    obtain ⟨t, hrun, ht⟩ := ih
    obtain ⟨u, hx⟩ := exec_busy_answers ht.inv ht.busy
    exact ⟨u, seqRun_snoc hrun (ht.cmd ▸ hx), ht.exec_keeps hx⟩

/-- Settles O24: `WaitingForKey` is an invariant of every step but those of KEYS and the reset event. -/
theorem waitHangsWithoutKey : Obligations.WaitHangsWithoutKey := by
  unfold Obligations.WaitHangsWithoutKey
  refine ⟨fun s h => ⟨h.busy, ?_⟩, fun s t h hm hk hp => ?_, fun n s h => h.seqRun_keeps n⟩
  · exact runEvent_completes (nextEvent s) h.takeEvent.inv h.busy
  · exact h.takeEvent.runEvent_keeps hk hp hm

end Sys2Proof.Machine

/-! Proofs about the hazards (spec/70_reset_and_hazards.md): what a low reading says of the contacts. -/

namespace Sys2Proof.Machine

/-! ### A low reading and its contact (R270) -/

/-- The bit KS_SAMPLE(r, p) tests, `L + p - 1` with p = c + 4, is the bit of the column's pin (R23, R135). -/
theorem Col.tested_bit (c : Col) : portLsb + (c.num + 4) - 1 = c.bit := rfl

/-- Settles O21: an open contact would read high (R203), and a contact alone in its column reads low. -/
theorem recordedContactClosed : Obligations.RecordedContactClosed := by
  unfold Obligations.RecordedContactClosed
  intro s r c hinv hs
  rw [c.tested_bit]
  obtain ⟨halone, hopen, -, -⟩ := sampleSeesContacts s r c hinv hs
  refine ⟨fun hlow => ?_, halone⟩
  by_contra hc
  have hhigh : (pinWord s).getLsbD c.bit = true := hopen (Bool.eq_false_iff.2 hc)
  exact absurd (hhigh.symm.trans hlow) (by decide)

end Sys2Proof.Machine
